-- ==== Sys2Proof/Word.lean ====
section
/-! DEFINITION. The word types of the block and their plainest arithmetic (00_scope.md R8, R9). -/

namespace Sys2Proof

/-- A register or bus datum: 32 bits (R8: "A register is 32 bits wide unless a rule says otherwise"). -/
abbrev Word := BitVec 32

/-- One byte lane of the bus, and one byte of a buffer (20_memory.md R61). -/
abbrev Byte := BitVec 8

/-- `clamp(v, lo, hi) = min(max(v, lo), hi)` over the integers (00_scope.md R9). -/
def clampInt (v lo hi : Int) : Int := min (max v lo) hi

end Sys2Proof
end

