-- ==== Sys2Proof/Config.lean ====
section
/-! DEFINITION. The parameters an implementation fixes (00_scope.md R7), and the free values: constants with no body, which no
proof can evaluate. -/

namespace Sys2Proof

/-- The implementation parameters of 00_scope.md R7. A machine state carries them as plain data, so that every statement
about all states holds for every choice of them. RX_OUT_DEPTH and SPI_DEPTH are derived or fixed (below), not free. -/
structure Params where
  /-- BASE / 0x10000. R7 allows any multiple of 0x10000, so BASE is kept as the multiple. -/
  basePage : Nat
  /-- RX_DEPTH: entries of RX_SAMPLE. -/
  rxDepth : Nat
  /-- TX_DEPTH: entries of TX_BYTE and of TX_FRAME. -/
  txDepth : Nat
  /-- SAMPLE_W: width in bits of one RX sample. -/
  sampleW : Nat
  /-- RX_TIE_HIGH: whether a group sum exactly equal to the threshold resolves to 1. -/
  rxTieHigh : Bool
  /-- CMD_LATENCY: clock cycles from issue to completion of each command other than SPI_READ (timing only, R240). -/
  cmdLatency : Nat
  /-- F_CLK, in hertz (timing only: no rule computes a value from it). -/
  fClk : Nat
  deriving DecidableEq, Repr

namespace Params

/-- BASE, the bus address of offset 0 (R7). -/
def base (p : Params) : Nat := 0x10000 * p.basePage

/-- RX_OUT_DEPTH, the entries of RX_BYTE: floor(RX_DEPTH / 10), derived (R7). -/
def rxOutDepth (p : Params) : Nat := p.rxDepth / 10

/-- The legal values of R7's table (log 17). -/
def legal (p : Params) : Bool :=
  decide (10 ≤ p.rxDepth) && decide (p.rxDepth ≤ 1024) &&
  decide (1 ≤ p.txDepth) && decide (p.txDepth ≤ 256) &&
  decide (1 ≤ p.sampleW) && decide (p.sampleW ≤ 16) &&
  decide (1 ≤ p.cmdLatency)

end Params

namespace Config

/-- SPI_DEPTH, the entries of SPI_BYTE: 15, fixed by the 4-bit BYTECOUNT field (R7). -/
abbrev spiDepth : Nat := 15

/-- FREE VALUE (log 2). BASE is an OPEN parameter, any multiple of 0x10000 that the platform chooses (R7): this is the multiple. -/
opaque basePage : Nat

/-- FREE VALUE (log 3). RX_TIE_HIGH is an OPEN parameter (R7, 92_eei_decisions.md D13). -/
opaque rxTieHigh : Bool

/-- FREE VALUE (log 4). CMD_LATENCY is an OPEN parameter, any count that is at least 1: this is what it exceeds 1 by. -/
opaque cmdLatencyBeyondOne : Nat

/-- FREE VALUE (log 4). F_CLK is an OPEN parameter, timing only. -/
opaque fClk : Nat

/-- FREE VALUE (log 5). The level on `spi_miso` at the k-th draw of the run, chosen by the environment under no law
(43_spi.md R176), for a draw whose level the state does not list. -/
opaque misoLevel : Nat → Bool

/-- The parameters of the machine after reset: the defaults of R7 (log 14), and the free values for the OPEN ones. -/
def params : Params where
  basePage := basePage
  rxDepth := 1024
  txDepth := 64
  sampleW := 16
  rxTieHigh := rxTieHigh
  cmdLatency := cmdLatencyBeyondOne + 1
  fClk := fClk

end Config

end Sys2Proof
end

