-- ==== Sys2Proof/Syntax.lean ====
section
/-! DEFINITION. The commands of the block: one constructor per row of spec/opcode_table.json (30_encoding.md R81). A command
word carries no operand (R84), so no constructor has an argument. -/

namespace Sys2Proof

/-- The six commands (00_scope.md R3, 30_encoding.md R81). -/
inductive Instr where
  /-- CODEC_ENC: BitCodec `encode` (40_codec.md R101). -/
  | codecEnc
  /-- CODEC_DEC: BitCodec `decode` (40_codec.md R110). -/
  | codecDec
  /-- UART_RX_DECODE: WaveformUartDecoder (41_uart_rx.md R129). -/
  | uartRxDecode
  /-- UART_TX_BUILD: WaveformUartEncoder (42_uart_tx.md R152). -/
  | uartTxBuild
  /-- SPI_READ: SoftwareSpiReader, transaction and assembly (43_spi.md R175). -/
  | spiRead
  /-- SPI_ASSEMBLE: SoftwareSpiReader, assembly alone (43_spi.md R177). -/
  | spiAssemble
  deriving DecidableEq, Repr

end Sys2Proof
end

