-- ==== Sys2Proof/WellFormed.lean ====
section
/-! DEFINITION. Well-formedness. A command has no operand field (30_encoding.md R84), so every command is well formed; what can
be ill formed is a command WORD (R80, R82) and a choice of parameters (00_scope.md R7, `Params.legal`). -/

namespace Sys2Proof

/-- A command carries no operand (R84), so there is nothing in one that could be out of range. -/
def Instr.wf : Instr → Bool
  | .codecEnc => true
  | .codecDec => true
  | .uartRxDecode => true
  | .uartTxBuild => true
  | .spiRead => true
  | .spiAssemble => true

/-- The RSV field, bits 31..4 of a command word, is 0 (R80). -/
def rsvIsZero (w : Word) : Bool := w.extractLsb' 4 28 == 0#28

/-- The OP field, bits 3..0 of a command word, is one of 0x1 to 0x6 (R82). -/
def opIsAssigned (w : Word) : Bool :=
  decide (1 ≤ (w.extractLsb' 0 4).toNat) && decide ((w.extractLsb' 0 4).toNat ≤ 6)

/-- A command word is legal exactly when RSV is 0 and OP is one of 0x1 to 0x6 (R82). -/
def legalWord (w : Word) : Bool := rsvIsZero w && opIsAssigned w

end Sys2Proof
end

