-- ==== Sys2Proof/Decode.lean ====
section
/-! DEFINITION. Decoding and encoding of the one format CMD32 (30_encoding.md R80 to R83), and the byte layout of a command word
(20_memory.md R61: little-endian lanes). -/

namespace Sys2Proof

/-- Why a word is no command (R83). -/
inductive DecodeError where
  /-- RSV, bits 31..4, is not 0. -/
  | reservedNonzero
  /-- OP is 0x0 or 0x7 to 0xF. -/
  | unassignedOpcode (op : BitVec 4)
  /-- Not exactly one 32-bit word of bytes (R80: every command word is exactly 32 bits). -/
  | notOneWord
  deriving DecidableEq, Repr

/-- The opcode map of R81, read from an OP field. -/
def opcodeMap (op : BitVec 4) : Option Instr :=
  match op.toNat with
  | 1 => some .codecEnc
  | 2 => some .codecDec
  | 3 => some .uartRxDecode
  | 4 => some .uartTxBuild
  | 5 => some .spiRead
  | 6 => some .spiAssemble
  | _ => none

/-- The command a word is, or by name why it is none (R80, R81, R82, R83). -/
def decode (w : Word) : Except DecodeError Instr :=
  if w.extractLsb' 4 28 = 0#28 then
    match opcodeMap (w.extractLsb' 0 4) with
    | some i => .ok i
    | none => .error (.unassignedOpcode (w.extractLsb' 0 4))
  else .error .reservedNonzero

/-- The 32-bit datum whose byte lanes 0 to 3 are the four bytes (R61). -/
def wordOfLanes (b0 b1 b2 b3 : Byte) : Word := b3 ++ b2 ++ b1 ++ b0

/-- Byte lane n of a datum: lane 0 is bits 7..0 (R61). -/
def laneOfWord (w : Word) (n : Nat) : Byte := w.extractLsb' (8 * n) 8

/-- The command that four bytes in lane order are; total on any list of bytes. -/
def decodeBytes : List Byte → Except DecodeError Instr
  | [b0, b1, b2, b3] => decode (wordOfLanes b0 b1 b2 b3)
  | _ => .error .notOneWord

/-- The OP value of each command (R81). -/
def opcodeOf : Instr → BitVec 4
  | .codecEnc => 0x1#4
  | .codecDec => 0x2#4
  | .uartRxDecode => 0x3#4
  | .uartTxBuild => 0x4#4
  | .spiRead => 0x5#4
  | .spiAssemble => 0x6#4

/-- The command word: RSV = 0 above OP (R80, R81). -/
def encode (i : Instr) : Word := 0#28 ++ opcodeOf i

/-- The bytes of a command word in lane order. -/
def encodeBytes (i : Instr) : List Byte :=
  [laneOfWord (encode i) 0, laneOfWord (encode i) 1, laneOfWord (encode i) 2, laneOfWord (encode i) 3]

/-- The bytes, in lane order, of a command whose low `nbits` bits are `w` and whose bits above are 0; a number that
does not fit 32 bits has more than four bytes. -/
def tableBytes (nbits w : Nat) : List Byte :=
  let v := w % 2 ^ nbits
  [BitVec.ofNat 8 v, BitVec.ofNat 8 (v / 0x100), BitVec.ofNat 8 (v / 0x10000), BitVec.ofNat 8 (v / 0x1000000)] ++
    (if v < 2 ^ 32 then [] else [BitVec.ofNat 8 (v / 2 ^ 32)])

/-- The command the decoder reads from an instruction whose low `nbits` bits are `w`. -/
def decodeTableWord (nbits w : Nat) : Option Instr :=
  match decodeBytes (tableBytes nbits w) with
  | .ok i => some i
  | .error _ => none

end Sys2Proof
end

