-- ==== Sys2Proof/Machine/State.lean ====
section
/-! DEFINITION. The machine's state as plain data, its reset value, and the reasons a step could stop
(10_state.md; 70_reset_and_hazards.md R230; 60_exceptions.md R200). -/

namespace Sys2Proof.Machine

open Sys2Proof

/-- The engine phase (10_state.md R21): idle, or busy with an issued command. -/
inductive Phase where
  | idle
  | busy (op : Instr)
  deriving DecidableEq, Repr

/-- The sticky bits of STATUS (10_state.md R27). BUSY is no storage (it reads the phase) and TIMING_OVR is RAZ/WI. -/
structure Status where
  /-- DONE [1]. -/
  done : Bool
  /-- FRAME_ERR [2]. -/
  frameErr : Bool
  /-- SHORT [3]. -/
  short : Bool
  /-- CODEC_ERR [4]. -/
  codecErr : Bool
  /-- CFG_ERR [6]. -/
  cfgErr : Bool
  /-- CMD_REJ [7]. -/
  cmdRej : Bool
  deriving DecidableEq, Repr

/-- What moves next, as the environment schedules it (60_exceptions.md R207): one host access, one engine step, or the reset
input sampled at a clock edge. -/
inductive Input where
  /-- The host reads bus address `addr` (R10: `MemRead(addr, 4)`). -/
  | read (addr : Nat)
  /-- The host writes `data` to bus address `addr` (R10: `MemWrite(addr, 4, data)`). -/
  | write (addr : Nat) (data : Word)
  /-- The engine performs the next pin event or draw of the SPI_READ it is performing (43_spi.md R172). -/
  | spiEvent
  /-- The engine's completion step (10_state.md R22). -/
  | complete
  /-- A rising edge of `clk` that samples `rst` at this level (R230). -/
  | rst (level : Bool)
  deriving DecidableEq, Repr

/-- What is seen on the SPI pins at one event (43_spi.md R172). -/
inductive PinSignal where
  /-- `pin spi_cs_n <- level`. -/
  | csN (level : Bool)
  /-- `pin spi_sclk <- level`. -/
  | sclk (level : Bool)
  /-- `draw MISO()` returned `level`, as bit `index` of the transaction. -/
  | miso (index : Nat) (level : Bool)
  deriving DecidableEq, Repr

/-- One entry of the event history (10_state.md R52): the signal, and the block clock cycle of the event counted from the fall
of `spi_cs_n` of its transaction (43_spi.md R178). -/
structure PinEvent where
  cycle : Nat
  signal : PinSignal
  deriving DecidableEq, Repr

/-- The buffers' bytes by offset from BASE, as (address, byte) pairs in one canonical form: addresses strictly rising, no
byte equal to what an unlisted address reads as (DESIGN CHOICE, log 6). -/
abbrev Memory := List Host.Cell

/-- The state of the block (10_state.md R20) and, after it, the model's own fields. -/
@[ext]
structure State where
  /-- The implementation parameters (00_scope.md R7); no step changes them. -/
  params : Params
  /-- The engine phase (R21). -/
  phase : Phase
  /-- STATUS, its sticky bits (R27). -/
  status : Status
  /-- CODEC_VALUE.VALUE (R28). -/
  codecValue : BitVec 32
  /-- CODEC_MAX.MAX (R29). -/
  codecMax : BitVec 32
  /-- CODEC_MIN.MIN (R30). -/
  codecMin : BitVec 32
  /-- CODEC_TAG.TAG (R31). -/
  codecTag : BitVec 2
  /-- CODEC_FRAME.FRAME (R32). -/
  codecFrame : BitVec 8
  /-- CODEC_DEC.RAW (R33). -/
  codecDecRaw : BitVec 6
  /-- CODEC_DEC.TAG (R33). -/
  codecDecTag : BitVec 2
  /-- RX_SPB.SPB (R34). -/
  rxSpb : BitVec 32
  /-- RX_THRESH.THRESH (R35). -/
  rxThresh : BitVec 16
  /-- RX_LEN.LEN (R36). -/
  rxLen : BitVec 32
  /-- RX_NBYTES.NBYTES (R37). -/
  rxNbytes : BitVec 32
  /-- RX_NBITS.NBITS (R38). -/
  rxNbits : BitVec 32
  /-- RX_NDROP.NDROP (R39). -/
  rxNdrop : BitVec 32
  /-- TX_NBYTES.NBYTES (R40). -/
  txNbytes : BitVec 32
  /-- TX_NBITS.NBITS (R41). -/
  txNbits : BitVec 32
  /-- SPI_CTRL.MODE (R42). -/
  spiMode : BitVec 2
  /-- SPI_CTRL.ORDER (R42): false is MSB-first, true LSB-first. -/
  spiOrder : Bool
  /-- SPI_CTRL.BYTECOUNT (R42). -/
  spiByteCount : BitVec 4
  /-- SPI_CLKDIV.DIV (R43). -/
  spiClkdiv : BitVec 16
  /-- SPI_READING.READING (R44). -/
  spiReading : BitVec 12
  /-- The five buffers RX_SAMPLE, RX_BYTE, TX_BYTE, TX_FRAME, SPI_BYTE (R45 to R49), at their offsets (20_memory.md R66). -/
  mem : Memory
  /-- The level of the output `spi_sclk` (R50, R51). -/
  spiSclk : Bool
  /-- The level of the output `spi_cs_n` (R50, R51). -/
  spiCsN : Bool
  /-- Hidden (R52): how many events of the running SPI_READ's transaction have been performed. -/
  spiPos : Nat
  /-- Hidden (R52): the bits the running SPI_READ has drawn, the first in time first. -/
  spiBits : List Bool
  /-- The level of the input `rst` at the last clock edge (R50, R230). -/
  rst : Bool
  /-- The model's own: the environment's schedule still to come, the next one first (DESIGN CHOICE, log 7). -/
  inputs : List Input
  /-- The model's own: the levels `spi_miso` will show at the next draws, as far as they are listed (log 5). -/
  miso : List Bool
  /-- The model's own: how many draws the run has made, the argument of the free MISO level (log 5). -/
  misoDrawn : Nat
  /-- The event history of every SPI_READ (R52), oldest event first (DESIGN CHOICE, log 9). -/
  history : List PinEvent
  /-- The model's own: the data the bus port returned for the host's last read (R60, R62; DESIGN CHOICE, log 11). -/
  rdata : BitVec 32
  deriving DecidableEq, Repr

/-- Reasons to fault. THERE IS NONE: "The block raises no exception, trap, bus error or interrupt, for any command or any
access" (60_exceptions.md R200). The type is empty, so no step can fault (DEDUCED, log 15; safe). -/
inductive Fault where
  deriving DecidableEq, Repr

/-- Reasons to refuse. -/
inductive Refusal where
  /-- The instruction has no meaning in the model yet. Only an arm of exec could answer it; no arm does (safe). -/
  | notModelled (mnemonic : String)
  deriving DecidableEq, Repr

/-- No sticky flag set: STATUS after reset (R25). -/
def Status.clear : Status where
  done := false
  frameErr := false
  short := false
  codecErr := false
  cfgErr := false
  cmdRej := false

/-- The block right after reset (70_reset_and_hazards.md R230; the reset values are those of 10_state.md R25), with `rst`
released, nothing scheduled, nothing drawn and an empty history (DESIGN CHOICE, log 13). -/
def State.reset : State where
  params := Config.params
  phase := .idle
  status := Status.clear
  codecValue := 0#32
  codecMax := 0#32
  codecMin := 0#32
  codecTag := 0#2
  codecFrame := 0#8
  codecDecRaw := 0#6
  codecDecTag := 0#2
  rxSpb := 0#32
  rxThresh := 0x4000#16
  rxLen := 0#32
  rxNbytes := 0#32
  rxNbits := 0#32
  rxNdrop := 0#32
  txNbytes := 0#32
  txNbits := 0#32
  spiMode := 0#2
  spiOrder := false
  spiByteCount := 2#4
  spiClkdiv := 0#16
  spiReading := 0#12
  mem := []
  spiSclk := false
  spiCsN := true
  spiPos := 0
  spiBits := []
  rst := false
  inputs := []
  miso := []
  misoDrawn := 0
  history := []
  rdata := 0#32

end Sys2Proof.Machine
end

