-- ==== Sys2Proof/Machine/Ops.lean ====
section
/-! DEFINITION. The named operations over memory, buffers and the engine phase that every meaning shares
(10_state.md R21, R22, R45 to R49; 20_memory.md R60, R61, R66; 70_reset_and_hazards.md R230). -/

namespace Sys2Proof.Machine

open Sys2Proof

/-- What a byte that memory does not list reads as: 0, the reset contents of every buffer entry (R45 to R49, R230). -/
abbrev unlistedByte : Byte := 0#8

/-- The byte at offset `a`. -/
def readByte : Memory → Nat → Byte
  | [], _ => unlistedByte
  | (b, x) :: t, a => if b = a then x else readByte t a

/-- Memory with the byte at offset `a` set to `v`, in canonical form when it was. -/
def writeByte : Memory → Nat → Byte → Memory
  | [], a, v => if v = unlistedByte then [] else [(a, v)]
  | (b, x) :: t, a, v =>
    if a < b then (if v = unlistedByte then (b, x) :: t else (a, v) :: (b, x) :: t)
    else if a = b then (if v = unlistedByte then t else (a, v) :: t)
    else (b, x) :: writeByte t a v

/-- The canonical form above a bound: addresses rise strictly from at least `lo`, and no byte is the unlisted one. -/
def canonicalFrom (lo : Nat) : Memory → Bool
  | [] => true
  | (a, x) :: t => decide (lo ≤ a) && !decide (x = unlistedByte) && canonicalFrom (a + 1) t

/-- The canonical form of memory. -/
def Memory.wf (m : Memory) : Bool := canonicalFrom 0 m

/-- The 32-bit location at offset `a`, lane 0 at the lowest address (R61). -/
def readWord (m : Memory) (a : Nat) : Word :=
  wordOfLanes (readByte m a) (readByte m (a + 1)) (readByte m (a + 2)) (readByte m (a + 3))

/-- Memory with the 32-bit location at offset `a` set (R60: every access is of a whole location). -/
def writeWord (m : Memory) (a : Nat) (v : Word) : Memory :=
  writeByte (writeByte (writeByte (writeByte m a (laneOfWord v 0)) (a + 1) (laneOfWord v 1))
    (a + 2) (laneOfWord v 2)) (a + 3) (laneOfWord v 3)

/-- The five buffers (R45 to R49). -/
inductive Buf where
  | rxSample
  | rxByte
  | txByte
  | txFrame
  | spiByte
  deriving DecidableEq, Repr

/-- The offset of entry 0 (R66). -/
def bufBase : Buf → Nat
  | .rxSample => 0x1000
  | .rxByte => 0x2000
  | .txByte => 0x3000
  | .txFrame => 0x3400
  | .spiByte => 0x4000

/-- The number of entries (R45 to R49). -/
def bufDepth (p : Params) : Buf → Nat
  | .rxSample => p.rxDepth
  | .rxByte => p.rxOutDepth
  | .txByte => p.txDepth
  | .txFrame => p.txDepth
  | .spiByte => Config.spiDepth

/-- The width of an entry in bits (R45 to R49). -/
def bufWidth (p : Params) : Buf → Nat
  | .rxSample => p.sampleW
  | .rxByte => 8
  | .txByte => 8
  | .txFrame => 10
  | .spiByte => 8

/-- Whether the host may write the buffer's entries (R45 to R49). -/
def bufWritable : Buf → Bool
  | .rxSample => true
  | .rxByte => false
  | .txByte => true
  | .txFrame => false
  | .spiByte => true

/-- The offset of entry `i` (R45 to R49: base + 4 × i). -/
def bufAddr (b : Buf) (i : Nat) : Nat := bufBase b + 4 * i

/-- `v[w-1:0]` zero-extended to 32 bits: what an entry of width `w` keeps of a datum (R45, R47, R49). -/
def entryValue (w : Nat) (v : Word) : Word := BitVec.ofNat 32 (v.toNat % 2 ^ w)

/-- Entry `i` of a buffer, zero-extended (R62). -/
def readEntry (s : State) (b : Buf) (i : Nat) : Word :=
  entryValue (bufWidth s.params b) (readWord s.mem (bufAddr b i))

/-- `BUF[i] <- v`, the entry's low bits stored. -/
def writeEntry (s : State) (b : Buf) (i : Nat) (v : Word) : State :=
  { s with mem := writeWord s.mem (bufAddr b i) (entryValue (bufWidth s.params b) v) }

/-- `BUF[i] <- v0, BUF[i+1] <- v1, …`. -/
def writeEntries (s : State) (b : Buf) (i : Nat) : List Word → State
  | [] => s
  | v :: vs => writeEntries (writeEntry s b i v) b (i + 1) vs

/-- `for k in 0..depth-1: BUF[k] <- f(k)`, over the buffer's whole depth. -/
def fillBuffer (s : State) (b : Buf) (f : Nat → Word) : State :=
  writeEntries s b 0 ((List.range (bufDepth s.params b)).map f)

/-- What is left of the environment's schedule. -/
def setInputs (rest : List Input) (s : State) : State := { s with inputs := rest }

/-- The issue of a command (R21): the phase becomes BUSY(op). SPI_READ starts at its first event. -/
def issue (op : Instr) (s : State) : State :=
  { s with phase := .busy op, spiPos := 0, spiBits := [] }

/-- The end of every completion (R22): DONE is set and the phase becomes IDLE. -/
def complete (s : State) : State :=
  { s with status := { s.status with done := true }, phase := .idle }

/-- A rising clock edge with `rst` = 1 (R230, R231): every register, buffer, pin and the phase take their reset values, whatever
was running. The parameters, the environment's schedule and MISO levels, the record of past events and the last read's data are
no state of the block that a reset sets (DESIGN CHOICE, log 10). -/
def assertReset (s : State) : State :=
  { State.reset with
    params := s.params
    rst := true
    inputs := s.inputs
    miso := s.miso
    misoDrawn := s.misoDrawn
    history := s.history
    rdata := s.rdata }

/-- A rising clock edge with `rst` = 0: the reset input is released (R230, R233). -/
def releaseReset (s : State) : State := { s with rst := false }

end Sys2Proof.Machine
end

