-- ==== Sys2Proof/Machine/Operands.lean ====
section
/-! DEFINITION. The operand forms: how a command reads each register and buffer (30_encoding.md R84; 10_state.md R28 to R49). -/

namespace Sys2Proof.Machine

open Sys2Proof

/-- `v = s32(CODEC_VALUE)` (R28, R100). -/
def codecValueOp (s : State) : Int := s.codecValue.toInt

/-- `hi = s32(CODEC_MAX)` (R29, R100). -/
def codecMaxOp (s : State) : Int := s.codecMax.toInt

/-- `lo = s32(CODEC_MIN)` (R30, R100). -/
def codecMinOp (s : State) : Int := s.codecMin.toInt

/-- `S = u32(RX_SPB.SPB)`, UQ16.16 (R34, R120). -/
def rxSpbOp (s : State) : Nat := s.rxSpb.toNat

/-- `T = RX_THRESH.THRESH`, UQ1.15 (R35, R120). -/
def rxThreshOp (s : State) : Nat := s.rxThresh.toNat

/-- `L = RX_LEN.LEN` (R36, R120). -/
def rxLenOp (s : State) : Nat := s.rxLen.toNat

/-- `[s_0, …, s_(L-1)]`: the valid samples of RX_SAMPLE, unsigned (R45, R120). -/
def rxSamplesOp (s : State) : List Nat :=
  (List.range (rxLenOp s)).map fun j => (readEntry s .rxSample j).toNat

/-- `n = TX_NBYTES.NBYTES` (R40, R150). -/
def txCountOp (s : State) : Nat := s.txNbytes.toNat

/-- `b_k = TX_BYTE[k]` (R47, R150). -/
def txByteOp (s : State) (k : Nat) : Byte := (readEntry s .txByte k).setWidth 8

/-- The byte count `n = SPI_CTRL.BYTECOUNT` (R42, R170). -/
def spiCountOp (s : State) : Nat := s.spiByteCount.toNat

/-- `SPI_BYTE[m]` (R49). -/
def spiByteOp (s : State) (m : Nat) : Byte := (readEntry s .spiByte m).setWidth 8

/-- The idle clock level of a mode, `MODE[0]` (43_spi.md R171). -/
def spiIdleLevel (mode : BitVec 2) : Bool := mode.getLsbD 0

/-- The active clock level, `1 - idle` (R171). -/
def spiActiveLevel (mode : BitVec 2) : Bool := !spiIdleLevel mode

/-- Whether a mode samples on the second edge, `MODE[1]` (R171). -/
def spiSecondEdge (mode : BitVec 2) : Bool := mode.getLsbD 1

/-- Half an SPI bit period in block clock cycles: P / 2 = DIV + 1 (R178). -/
def spiHalfPeriod (s : State) : Nat := s.spiClkdiv.toNat + 1

/-- The level `spi_miso` shows at the `k`-th draw from now (R176): as listed, else the free level of that draw. -/
def misoAt (s : State) (k : Nat) : Bool := s.miso.getD k (Config.misoLevel (s.misoDrawn + k))

end Sys2Proof.Machine
end

