-- ==== Sys2Proof/Machine/Flags.lean ====
section
/-! DEFINITION. STATUS: its value as the host reads it, the write-1-to-clear action, and the setting of each sticky flag
(10_state.md R27; 60_exceptions.md R201). A flag is only ever set by these, cleared by `clearStatus`, or reset. -/

namespace Sys2Proof.Machine

open Sys2Proof

/-- `STATUS.BUSY`: 1 exactly when the phase is BUSY(op) for some op (R21). -/
def isBusy (s : State) : Bool :=
  match s.phase with
  | .idle => false
  | .busy _ => true

/-- STATUS as a read returns it: CMD_REJ [7], CFG_ERR [6], TIMING_OVR [5] reading 0, CODEC_ERR [4], SHORT [3],
FRAME_ERR [2], DONE [1], BUSY [0]; bits 31..8 are 0 (R27). -/
def statusWord (s : State) : Word :=
  0#24 ++ BitVec.ofBool s.status.cmdRej ++ BitVec.ofBool s.status.cfgErr ++ 0#1 ++ BitVec.ofBool s.status.codecErr ++
    BitVec.ofBool s.status.short ++ BitVec.ofBool s.status.frameErr ++ BitVec.ofBool s.status.done ++
    BitVec.ofBool (isBusy s)

/-- The W1C action of a host write `v` to STATUS (R27): each sticky bit i with `v[i] = 1` is cleared. -/
def clearStatus (v : Word) (st : Status) : Status where
  done := st.done && !v.getLsbD 1
  frameErr := st.frameErr && !v.getLsbD 2
  short := st.short && !v.getLsbD 3
  codecErr := st.codecErr && !v.getLsbD 4
  cfgErr := st.cfgErr && !v.getLsbD 6
  cmdRej := st.cmdRej && !v.getLsbD 7

/-- `STATUS.FRAME_ERR <- 1` if the condition holds. -/
def setFrameErr (c : Bool) (s : State) : State :=
  { s with status := { s.status with frameErr := s.status.frameErr || c } }

/-- `STATUS.SHORT <- 1` if the condition holds. -/
def setShort (c : Bool) (s : State) : State :=
  { s with status := { s.status with short := s.status.short || c } }

/-- `STATUS.CODEC_ERR <- 1` if the condition holds. -/
def setCodecErr (c : Bool) (s : State) : State :=
  { s with status := { s.status with codecErr := s.status.codecErr || c } }

/-- `STATUS.CFG_ERR <- 1` if the condition holds. -/
def setCfgErr (c : Bool) (s : State) : State :=
  { s with status := { s.status with cfgErr := s.status.cfgErr || c } }

/-- `STATUS.CMD_REJ <- 1`. -/
def setCmdRej (s : State) : State :=
  { s with status := { s.status with cmdRej := true } }

/-- The cause of CODEC_ERR: a degenerate range, `hi <= lo` (40_codec.md R102). -/
def codecRangeDegenerate (s : State) : Bool := decide (codecMaxOp s ≤ codecMinOp s)

/-- The cause of CFG_ERR: an oversampling ratio below 1, `S < 0x00010000` (41_uart_rx.md R121). -/
def rxRatioBelowOne (s : State) : Bool := decide (rxSpbOp s < 0x10000)

/-- The cause of SHORT at SPI_READ and SPI_ASSEMBLE: BYTECOUNT < 2 (43_spi.md R174). -/
def spiFrameShort (s : State) : Bool := decide (spiCountOp s < 2)

end Sys2Proof.Machine
end

