-- ==== Sys2Proof/Machine/Bus.lean ====
section
/-! DEFINITION. The bus port: the address map and what a host read or write does in each engine phase and under reset
(10_state.md R25; 20_memory.md R60 to R66; 30_encoding.md R82, R83; 70_reset_and_hazards.md R230). -/

namespace Sys2Proof.Machine

open Sys2Proof

/-- The registers of R25. -/
inductive Reg where
  | cmd
  | status
  | codecValue
  | codecMax
  | codecMin
  | codecTag
  | codecFrame
  | codecDec
  | rxSpb
  | rxThresh
  | rxLen
  | rxNbytes
  | rxNbits
  | rxNdrop
  | txNbytes
  | txNbits
  | spiCtrl
  | spiClkdiv
  | spiReading
  deriving DecidableEq, Repr

/-- Every register, in the order of R25's table. -/
def allRegs : List Reg :=
  [.cmd, .status, .codecValue, .codecMax, .codecMin, .codecTag, .codecFrame, .codecDec, .rxSpb, .rxThresh, .rxLen, .rxNbytes,
    .rxNbits, .rxNdrop, .txNbytes, .txNbits, .spiCtrl, .spiClkdiv, .spiReading]

/-- The offset column of R25's table. -/
def regOffset : Reg → Nat
  | .cmd => 0x000
  | .status => 0x004
  | .codecValue => 0x010
  | .codecMax => 0x014
  | .codecMin => 0x018
  | .codecTag => 0x01C
  | .codecFrame => 0x020
  | .codecDec => 0x024
  | .rxSpb => 0x030
  | .rxThresh => 0x034
  | .rxLen => 0x038
  | .rxNbytes => 0x03C
  | .rxNbits => 0x040
  | .rxNdrop => 0x044
  | .txNbytes => 0x050
  | .txNbits => 0x054
  | .spiCtrl => 0x060
  | .spiClkdiv => 0x064
  | .spiReading => 0x068

/-- What an offset of the window selects (R66). -/
inductive Location where
  | reg (r : Reg)
  | entry (b : Buf) (i : Nat)
  | unmapped
  deriving DecidableEq, Repr

/-- Whether bus address `a` reaches the block: `BASE ≤ a < BASE + 0x10000` (R60). -/
def inWindow (p : Params) (a : Nat) : Bool := decide (p.base ≤ a) && decide (a < p.base + 0x10000)

/-- The offset of the 32-bit location that bus address `a` selects: `(a - BASE)[15:0] & 0xFFFC` (R60). -/
def locationOffset (p : Params) (a : Nat) : Nat := (a - p.base) % 0x10000 / 4 * 4

/-- Entry `(off - base) / 4` of a buffer, if below its depth (R66). -/
def entryAt (p : Params) (b : Buf) (off : Nat) : Location :=
  if (off - bufBase b) / 4 < bufDepth p b then .entry b ((off - bufBase b) / 4) else .unmapped

/-- The address map (R66) at the offset of a 32-bit location. -/
def locate (p : Params) (off : Nat) : Location :=
  if off < 0x100 then
    match allRegs.find? fun r => decide (regOffset r = off) with
    | some r => .reg r
    | none => .unmapped
  else if off < 0x1000 then .unmapped
  else if off < 0x2000 then entryAt p .rxSample off
  else if off < 0x3000 then entryAt p .rxByte off
  else if off < 0x3400 then entryAt p .txByte off
  else if off < 0x3800 then entryAt p .txFrame off
  else if off < 0x4000 then .unmapped
  else if off < 0x4040 then entryAt p .spiByte off
  else .unmapped

/-- SPI_CTRL as a read returns it: BYTECOUNT [11:8], ORDER [2], MODE [1:0], 0 elsewhere (R42). -/
def spiCtrlWord (s : State) : Word :=
  0#20 ++ s.spiByteCount ++ 0#5 ++ BitVec.ofBool s.spiOrder ++ s.spiMode

/-- CODEC_DEC as a read returns it: TAG [9:8], RAW [5:0], 0 elsewhere (R33). -/
def codecDecWord (s : State) : Word := 0#22 ++ s.codecDecTag ++ 0#2 ++ s.codecDecRaw

/-- The value of a register as a read returns it, 0 in every reserved bit (R25, R62). CMD reads 0 (R26). -/
def regWord (s : State) : Reg → Word
  | .cmd => 0#32
  | .status => statusWord s
  | .codecValue => s.codecValue
  | .codecMax => s.codecMax
  | .codecMin => s.codecMin
  | .codecTag => s.codecTag.setWidth 32
  | .codecFrame => s.codecFrame.setWidth 32
  | .codecDec => codecDecWord s
  | .rxSpb => s.rxSpb
  | .rxThresh => s.rxThresh.setWidth 32
  | .rxLen => s.rxLen
  | .rxNbytes => s.rxNbytes
  | .rxNbits => s.rxNbits
  | .rxNdrop => s.rxNdrop
  | .txNbytes => s.txNbytes
  | .txNbits => s.txNbits
  | .spiCtrl => spiCtrlWord s
  | .spiClkdiv => s.spiClkdiv.setWidth 32
  | .spiReading => s.spiReading.setWidth 32

/-- What a read of a location returns (R62). -/
def locationWord (s : State) : Location → Word
  | .reg r => regWord s r
  | .entry b i => readEntry s b i
  | .unmapped => 0#32

/-- A word written to CMD while the phase is IDLE (R82, R83): a legal word issues its command, any other sets CMD_REJ. -/
def writeCommand (s : State) (w : Word) : State :=
  match decode w with
  | .ok op => issue op s
  | .error _ => setCmdRej s

/-- A write to SPI_CTRL while the phase is IDLE: the fields are stored, and `spi_sclk` moves to the new idle level at once
(R42, R51). -/
def writeSpiCtrl (s : State) (v : Word) : State :=
  { s with
    spiMode := v.extractLsb' 0 2
    spiOrder := v.getLsbD 2
    spiByteCount := v.extractLsb' 8 4
    spiSclk := spiIdleLevel (v.extractLsb' 0 2) }

/-- A write to a register while the phase is IDLE (R63): RW fields are stored, WARL registers store `min(u32(v), depth)`
(R36, R40), STATUS is write 1 to clear, RO registers ignore it. -/
def writeReg (s : State) (v : Word) : Reg → State
  | .cmd => writeCommand s v
  | .status => { s with status := clearStatus v s.status }
  | .codecValue => { s with codecValue := v }
  | .codecMax => { s with codecMax := v }
  | .codecMin => { s with codecMin := v }
  | .codecTag => { s with codecTag := v.setWidth 2 }
  | .codecFrame => { s with codecFrame := v.setWidth 8 }
  | .codecDec => s
  | .rxSpb => { s with rxSpb := v }
  | .rxThresh => { s with rxThresh := v.setWidth 16 }
  | .rxLen => { s with rxLen := BitVec.ofNat 32 (min v.toNat s.params.rxDepth) }
  | .rxNbytes => s
  | .rxNbits => s
  | .rxNdrop => s
  | .txNbytes => { s with txNbytes := BitVec.ofNat 32 (min v.toNat s.params.txDepth) }
  | .txNbits => s
  | .spiCtrl => writeSpiCtrl s v
  | .spiClkdiv => { s with spiClkdiv := v.setWidth 16 }
  | .spiReading => s

/-- A write to a location while the phase is IDLE (R63). -/
def writeIdle (s : State) (loc : Location) (v : Word) : State :=
  match loc with
  | .reg r => writeReg s v r
  | .entry b i => if bufWritable b then writeEntry s b i v else s
  | .unmapped => s

/-- A write to a location while the phase is BUSY(op) (R64): STATUS as in R63, anything else dropped with CMD_REJ set. -/
def writeBusy (s : State) (loc : Location) (v : Word) : State :=
  if loc = .reg .status then { s with status := clearStatus v s.status } else setCmdRej s

/-- A host read of bus address `a` (R60, R62): the port returns the location's value and nothing else changes. While `rst` is 1 it
returns 0 (R230). An address outside the window does not reach the block (DEDUCED, log 12). -/
def hostRead (s : State) (a : Nat) : State :=
  if inWindow s.params a then
    { s with rdata := if s.rst then 0#32 else locationWord s (locate s.params (locationOffset s.params a)) }
  else s

/-- A host write of `v` to bus address `a` (R60, R63, R64). While `rst` is 1 it is ignored (R230). An address outside the window does
not reach the block. -/
def hostWrite (s : State) (a : Nat) (v : Word) : State :=
  if inWindow s.params a && !s.rst then
    match s.phase with
    | .idle => writeIdle s (locate s.params (locationOffset s.params a)) v
    | .busy _ => writeBusy s (locate s.params (locationOffset s.params a)) v
  else s

/-- The bus address of a register (R85: `BASE + off(NAME)`). -/
def regAddr (p : Params) (r : Reg) : Nat := p.base + regOffset r

/-- The state in which the very next step runs the command whose low `nbits` bits are `w` (log 1): the command issued, the engine's
completion next. A word that is no command is left as the host's next write to CMD, which the next step rejects (R83). -/
def placeCommand (s : State) (nbits w : Nat) : State :=
  match decodeTableWord nbits w with
  | some op => issue op (releaseReset (setInputs [] s))
  | none => { releaseReset (setInputs [.write (regAddr s.params .cmd) (BitVec.ofNat 32 w)] s) with phase := .idle }

/-- The bus address of a buffer entry (R85: `BASE + off(BUF) + 4·i`). -/
def entryAddr (p : Params) (b : Buf) (i : Nat) : Nat := p.base + bufAddr b i

end Sys2Proof.Machine
end

