-- ==== Sys2Proof/Machine/Codec.lean ====
section
/-! DEFINITION. The BitCodec commands CODEC_ENC and CODEC_DEC (40_codec.md). -/

namespace Sys2Proof.Machine

open Sys2Proof

/-- `raw = ((c - lo) * 63) // (hi - lo)` with `c = clamp(v, lo, hi)`, for `lo < hi` (R101). -/
def codecRaw (v hi lo : Int) : Int := ((clampInt v lo hi - lo) * 63) / (hi - lo)

/-- `(tag << 6) | (raw & 0x3F)`: bits 7..6 are the tag, bits 5..0 the magnitude (R101). -/
def codecFrameOf (tag : BitVec 2) (raw : Int) : BitVec 8 := tag ++ BitVec.ofInt 6 raw

/-- CODEC_ENC (R101; the degenerate range R102). -/
def execCodecEnc (s : State) : Host.Outcome State Fault Refusal :=
  let frame :=
    if codecRangeDegenerate s then 0#8
    else codecFrameOf s.codecTag (codecRaw (codecValueOp s) (codecMaxOp s) (codecMinOp s))
  .next (complete (setCodecErr (codecRangeDegenerate s) { s with codecFrame := frame }))

/-- CODEC_DEC (R110): `TAG <- f[7:6]`, `RAW <- f[5:0]`. -/
def execCodecDec (s : State) : Host.Outcome State Fault Refusal :=
  .next (complete { s with
    codecDecTag := s.codecFrame.extractLsb' 6 2
    codecDecRaw := s.codecFrame.extractLsb' 0 6 })

end Sys2Proof.Machine
end

