-- ==== Sys2Proof/Machine/Spi.lean ====
section
/-! DEFINITION. The SPI sampler commands SPI_READ and SPI_ASSEMBLE (43_spi.md). The transaction of an SPI_READ is a list of timed
events; the engine may perform them one at a time between host accesses (`spiEvent`), and the completion performs those that
remain (10_state.md R22; DESIGN CHOICE, log 8). -/

namespace Sys2Proof.Machine

open Sys2Proof

/-- One event of a transaction: a pin drive or a draw of the data input (R172). -/
inductive SpiOp where
  | csN (level : Bool)
  | sclk (level : Bool)
  | draw
  deriving DecidableEq, Repr

/-- The events of bit period k, each with its clock cycle (R172; the cycles R178, with `half` = P / 2): the first edge, the second
edge, and the draw after the edge that the mode samples on. -/
def spiBitOps (mode : BitVec 2) (half k : Nat) : List (Nat × SpiOp) :=
  if spiSecondEdge mode then
    [(half * (2 * k + 1), .sclk (spiActiveLevel mode)), (half * (2 * k + 2), .sclk (spiIdleLevel mode)),
      (half * (2 * k + 2), .draw)]
  else
    [(half * (2 * k + 1), .sclk (spiActiveLevel mode)), (half * (2 * k + 1), .draw),
      (half * (2 * k + 2), .sclk (spiIdleLevel mode))]

/-- The transaction of n bytes (R172): chip select falls, 8n bit periods, chip select rises. -/
def spiProgram (mode : BitVec 2) (half n : Nat) : List (Nat × SpiOp) :=
  (0, .csN false) :: ((List.range (8 * n)).flatMap (spiBitOps mode half) ++ [(half * (16 * n + 1), .csN true)])

/-- The transaction that the state's configuration gives. -/
def spiProgramOf (s : State) : List (Nat × SpiOp) := spiProgram s.spiMode (spiHalfPeriod s) (spiCountOp s)

/-- Performs one event, recording it in the event history with its cycle (R172, R52). -/
def performSpiOp (s : State) (e : Nat × SpiOp) : State :=
  match e.2 with
  | .csN level =>
    { s with spiCsN := level, spiPos := s.spiPos + 1, history := s.history ++ [⟨e.1, .csN level⟩] }
  | .sclk level =>
    { s with spiSclk := level, spiPos := s.spiPos + 1, history := s.history ++ [⟨e.1, .sclk level⟩] }
  | .draw =>
    { s with
      spiBits := s.spiBits ++ [misoAt s 0]
      miso := s.miso.tail
      misoDrawn := s.misoDrawn + 1
      spiPos := s.spiPos + 1
      history := s.history ++ [⟨e.1, .miso s.spiBits.length (misoAt s 0)⟩] }

/-- The events of the running transaction still to come. -/
def spiRemaining (s : State) : List (Nat × SpiOp) := (spiProgramOf s).drop s.spiPos

/-- The engine's next pin event or draw while it performs an SPI_READ (60_exceptions.md R207); nothing otherwise. -/
def spiEventStep (s : State) : State :=
  match s.phase, spiRemaining s with
  | .busy .spiRead, e :: _ => performSpiOp s e
  | _, _ => s

/-- Performs the rest of the transaction. -/
def spiFinish (s : State) : State := (spiRemaining s).foldl performSpiOp s

/-- `byte(m)` of the bits drawn, the first in time first (R173): MSB-first for ORDER = 0, LSB-first for ORDER = 1. -/
def spiByteOf (order : Bool) (bits : List Bool) (m : Nat) : Byte :=
  BitVec.ofNat 8 ((List.range 8).map fun i =>
    (bits.getD (8 * m + i) false).toNat <<< (if order then i else 7 - i)).sum

/-- `(byte0 << 4) | (byte1 >> 4)`, 12 bits (R174). -/
def spiReadingOf (b0 b1 : Byte) : BitVec 12 := (b0.setWidth 12 <<< 4) ||| (b1.setWidth 12 >>> 4)

/-- `assemble(n)` over SPI_BYTE (R174). -/
def assemble (s : State) : State :=
  setShort (spiFrameShort s)
    { s with spiReading := if spiFrameShort s then 0#12 else spiReadingOf (spiByteOp s 0) (spiByteOp s 1) }

/-- No transaction is in progress. -/
def clearSpiProgress (s : State) : State := { s with spiPos := 0, spiBits := [] }

/-- What SPI_READ writes to SPI_BYTE[m]: byte m of the bits drawn, or 0 from the byte count on (R175). -/
def spiEntryOf (s : State) (bits : List Bool) (m : Nat) : Word :=
  if m < spiCountOp s then (spiByteOf s.spiOrder bits m).setWidth 32 else 0#32

/-- SPI_READ (R175): the transaction, the bytes from its bits, the assembly. -/
def execSpiRead (s : State) : Host.Outcome State Fault Refusal :=
  .next (complete (clearSpiProgress (assemble (fillBuffer (spiFinish s) .spiByte (spiEntryOf s (spiFinish s).spiBits)))))

/-- SPI_ASSEMBLE (R177): the assembly over the current SPI_BYTE. -/
def execSpiAssemble (s : State) : Host.Outcome State Fault Refusal := .next (complete (assemble s))

/-- Clock cycles from issue to completion, at least (70_reset_and_hazards.md R240): the transaction's length for SPI_READ,
8·n·P + P / 2 with P = 2 · half, and CMD_LATENCY for every other command. Timing only: no step reads it (DESIGN CHOICE, log 4). -/
def commandCycles (op : Instr) (s : State) : Nat :=
  match op with
  | .spiRead => 8 * spiCountOp s * (2 * spiHalfPeriod s) + spiHalfPeriod s
  | .codecEnc => s.params.cmdLatency
  | .codecDec => s.params.cmdLatency
  | .uartRxDecode => s.params.cmdLatency
  | .uartTxBuild => s.params.cmdLatency
  | .spiAssemble => s.params.cmdLatency

end Sys2Proof.Machine
end

