-- ==== Sys2Proof/Machine/UartRx.lean ====
section
/-! DEFINITION. The UART receiver command UART_RX_DECODE (41_uart_rx.md): its four steps as functions of a capture, and the
command. All arithmetic is exact over the naturals: rule R126 gives the integer form of its rational comparison. -/

namespace Sys2Proof.Machine

open Sys2Proof

/-- `M`, the maximum over all samples; 0 for an empty capture (R122). -/
def rxMax (xs : List Nat) : Nat := xs.foldl max 0

/-- `start(i) = (i · S) >> 16` (R124). -/
def groupStart (S i : Nat) : Nat := i * S / 0x10000

/-- `end(i) = ((i + 1) · S) >> 16` (R124). -/
def groupEnd (S i : Nat) : Nat := (i + 1) * S / 0x10000

/-- `G`, the number of i with `end(i) ≤ L` (R125). For S ≥ 2^16 every such i is below L, since `end(i) ≥ i + 1` (DEDUCED, log 16). -/
def rxGroupCount (S L : Nat) : Nat := (List.range L).countP fun i => decide (groupEnd S i ≤ L)

/-- `sum_i`, the sum of the raw samples of group i (R126). -/
def groupSum (S : Nat) (xs : List Nat) (i : Nat) : Nat :=
  ((xs.drop (groupStart S i)).take (groupEnd S i - groupStart S i)).sum

/-- `bit(i)` from the group's sum (R126): for M > 0 the comparison of `sum_i · 2^31` with `S · T · M`; for M = 0 every
normalised sample is 0 (R123), so the comparison is of 0 with `S · T` (DEDUCED, log 16). An exact tie resolves as RX_TIE_HIGH says. -/
def resolveBit (tieHigh : Bool) (S T M sum : Nat) : Bool :=
  let vote := if M = 0 then 0 else sum * 2 ^ 31
  let threshold := if M = 0 then S * T else S * T * M
  decide (threshold < vote) || (decide (vote = threshold) && tieHigh)

/-- The resolved bits `bit(0), …, bit(G-1)` of a capture (R126). -/
def rxBits (tieHigh : Bool) (S T : Nat) (xs : List Nat) : List Bool :=
  let M := rxMax xs
  (List.range (rxGroupCount S xs.length)).map fun i => resolveBit tieHigh S T M (groupSum S xs i)

/-- `bit(i)` of a resolved stream. -/
def bitAt (bits : List Bool) (i : Nat) : Bool := bits.getD i false

/-- Word w is valid exactly when its start bit is 0 and its stop bit is 1 (R128). -/
def wordValid (bits : List Bool) (w : Nat) : Bool := !bitAt bits (10 * w) && bitAt bits (10 * w + 9)

/-- `d_w = sum_{i=0..7} bit(10w + 1 + i) << i` (R128). -/
def wordByte (bits : List Bool) (w : Nat) : Byte :=
  BitVec.ofNat 8 ((List.range 8).map fun i => (bitAt bits (10 * w + 1 + i)).toNat <<< i).sum

/-- The number of complete words, `W = G // 10` (R127). -/
def wordCount (bits : List Bool) : Nat := bits.length / 10

/-- The bytes of the valid words, in order (R128, R129). -/
def rxOut (bits : List Bool) : List Byte :=
  ((List.range (wordCount bits)).filter (wordValid bits)).map (wordByte bits)

/-- `drop`, the number of complete words that are invalid (R129). -/
def rxDropped (bits : List Bool) : Nat := (List.range (wordCount bits)).countP fun w => !wordValid bits w

/-- The cause of SHORT: samples beyond the last complete group (`end(G-1) = start(G)`, and `end(-1) = 0 = start(0)`), or a
partial word (R131). -/
def rxTailDiscarded (S L G : Nat) : Bool := decide (groupStart S G < L) || !decide (G % 10 = 0)

/-- What UART_RX_DECODE writes to RX_BYTE[k]: byte k recovered, or 0 beyond them (R129). -/
def rxEntryOf (out : List Byte) (k : Nat) : Word := (out.getD k 0#8).setWidth 32

/-- Writes a decode's data results: RX_BYTE, with 0 beyond the bytes recovered, and the three counts (R129). -/
def writeRxResults (out : List Byte) (nbits ndrop : Nat) (s : State) : State :=
  { fillBuffer s .rxByte (rxEntryOf out) with
    rxNbytes := BitVec.ofNat 32 out.length
    rxNbits := BitVec.ofNat 32 nbits
    rxNdrop := BitVec.ofNat 32 ndrop }

/-- UART_RX_DECODE (R129; the configuration check R121). -/
def execUartRxDecode (s : State) : Host.Outcome State Fault Refusal :=
  if rxRatioBelowOne s then
    .next (complete (setCfgErr true (writeRxResults [] 0 0 s)))
  else
    let bits := rxBits s.params.rxTieHigh (rxSpbOp s) (rxThreshOp s) (rxSamplesOp s)
    .next (complete
      (setShort (rxTailDiscarded (rxSpbOp s) (rxLenOp s) bits.length)
        (setFrameErr (decide (0 < rxDropped bits))
          (writeRxResults (rxOut bits) bits.length (rxDropped bits) s))))

end Sys2Proof.Machine
end

