-- ==== Sys2Proof/Machine/UartTx.lean ====
section
/-! DEFINITION. The UART transmitter command UART_TX_BUILD (42_uart_tx.md). -/

namespace Sys2Proof.Machine

open Sys2Proof

/-- `frame(b) = (1 << 9) | (b << 1)`, 10 bits: start bit 0, the data least significant bit first, stop bit 1 (R151). -/
def frameOf (b : Byte) : BitVec 10 := (1#10 <<< 9) ||| (b.setWidth 10 <<< 1)

/-- What UART_TX_BUILD writes to TX_FRAME[k]: the frame of payload byte k, or 0 from n on (R152). -/
def txEntryOf (s : State) (k : Nat) : Word :=
  if k < txCountOp s then (frameOf (txByteOp s k)).setWidth 32 else 0#32

/-- UART_TX_BUILD (R152). -/
def execUartTxBuild (s : State) : Host.Outcome State Fault Refusal :=
  .next (complete { fillBuffer s .txFrame (txEntryOf s) with txNbits := BitVec.ofNat 32 (10 * txCountOp s) })

/-- The BitSequence of the last UART_TX_BUILD (R153): `q[10·k + i] = TX_FRAME[k][i]`, of length TX_NBITS. It is what a waveform
generator reads through the bus port (R154). -/
def bitSequence (s : State) : List Bool :=
  (List.range s.txNbits.toNat).map fun j => (readEntry s .txFrame (j / 10)).getLsbD (j % 10)

end Sys2Proof.Machine
end

