-- ==== Sys2Proof/Machine/Dispatch.lean ====
section
/-! DEFINITION. The meaning of each command: what the completion of BUSY(op) does (10_state.md R22), one arm per constructor. -/

namespace Sys2Proof.Machine

open Sys2Proof

def exec (i : Instr) (s : State) : Host.Outcome State Fault Refusal :=
  match i with
  | .codecEnc => Sys2Proof.Machine.execCodecEnc s
  | .codecDec => Sys2Proof.Machine.execCodecDec s
  | .uartRxDecode => Sys2Proof.Machine.execUartRxDecode s
  | .uartTxBuild => Sys2Proof.Machine.execUartTxBuild s
  | .spiRead => Sys2Proof.Machine.execSpiRead s
  | .spiAssemble => Sys2Proof.Machine.execSpiAssemble s

end Sys2Proof.Machine
end

