-- ==== Sys2Proof/Machine/Step.lean ====
section
/-! DEFINITION. One step of the machine: the next input of the environment's schedule is taken (60_exceptions.md R207), or, when
nothing is scheduled, the engine moves (70_reset_and_hazards.md R241; DESIGN CHOICE, log 7). -/

namespace Sys2Proof.Machine

open Sys2Proof

/-- The engine's turn: while BUSY(op) it completes op (10_state.md R22); while IDLE it does nothing (60_exceptions.md R212). -/
def engineStep (s : State) : Host.Outcome State Fault Refusal :=
  match s.phase with
  | .idle => .next s
  | .busy op => exec op s

/-- One step. -/
def step (s : State) : Host.Outcome State Fault Refusal :=
  match s.inputs with
  | [] => engineStep s
  | .complete :: rest => engineStep (setInputs rest s)
  | .spiEvent :: rest => .next (spiEventStep (setInputs rest s))
  | .read a :: rest => .next (hostRead (setInputs rest s) a)
  | .write a v :: rest => .next (hostWrite (setInputs rest s) a v)
  | .rst true :: rest => .next (assertReset (setInputs rest s))
  | .rst false :: rest => .next (releaseReset (setInputs rest s))

/-- The state in which the very next step runs the instruction whose low `nbits` bits are `w` (log 1). -/
def State.withFetchWord (s : State) (nbits w : Nat) : State := placeCommand s nbits w

end Sys2Proof.Machine
end

