-- ==== Sys2Proof/Machine/HostProgram.lean ====
section
/-! DEFINITION. The host program notation (30_encoding.md R85, R86): each line as the schedule of bus accesses and engine steps it
stands for. A program of the block is such a schedule (R87, 10_state.md R24). -/

namespace Sys2Proof.Machine

open Sys2Proof

/-- One line of a host program (R85, R86). `wait polls` is WAIT under the schedule in which the engine completes after `polls`
reads that still see BUSY = 1; a WAIT that finds the engine idle has `polls` = 0, and its completion step does nothing. -/
inductive HostLine where
  /-- `WR NAME, v`. -/
  | wrReg (r : Reg) (v : Word)
  /-- `WR BUF[i], v`. -/
  | wrBuf (b : Buf) (i : Nat) (v : Word)
  /-- `RD NAME`. -/
  | rdReg (r : Reg)
  /-- `RD BUF[i]`. -/
  | rdBuf (b : Buf) (i : Nat)
  /-- `ISSUE OPNAME` = `WR CMD, word(OPNAME)`. -/
  | issue (op : Instr)
  /-- `WAIT`. -/
  | wait (polls : Nat)
  /-- `CLRST` = `WR STATUS, 0x000000FE`. -/
  | clrst
  /-- `RUN OPNAME` = `ISSUE OPNAME` followed by `WAIT`. -/
  | run (op : Instr) (polls : Nat)
  deriving DecidableEq, Repr

/-- `ISSUE OPNAME` (R86). -/
def issueInputs (p : Params) (op : Instr) : List Input := [.write (regAddr p .cmd) (encode op)]

/-- `WAIT` (R86), with the engine's completion before its last read. -/
def waitInputs (p : Params) (polls : Nat) : List Input :=
  List.replicate polls (.read (regAddr p .status)) ++ [.complete, .read (regAddr p .status)]

/-- The schedule that a line stands for (R85, R86). -/
def lineInputs (p : Params) : HostLine → List Input
  | .wrReg r v => [.write (regAddr p r) v]
  | .wrBuf b i v => [.write (entryAddr p b i) v]
  | .rdReg r => [.read (regAddr p r)]
  | .rdBuf b i => [.read (entryAddr p b i)]
  | .issue op => issueInputs p op
  | .wait polls => waitInputs p polls
  | .clrst => [.write (regAddr p .status) 0x000000FE#32]
  | .run op polls => issueInputs p op ++ waitInputs p polls

/-- The schedule of a host program (R87). -/
def programInputs (p : Params) (ls : List HostLine) : List Input := ls.flatMap (lineInputs p)

end Sys2Proof.Machine
end

