-- ==== Sys2Proof/Safety.lean ====
section
/-! DEFINITION. What counts as a safe step, and the invariants of the machine, in the terms the statements use. -/

namespace Sys2Proof.Machine

open Sys2Proof

/-- A step is safe when it ends in a next state: no fault, no refusal (60_exceptions.md R200). -/
def SafeStep (s : State) : Prop := ∃ t, step s = .next t

/-- The bytes of memory outside offsets `lo` to `hi - 1` read alike. -/
def SameBytesOutside (lo hi : Nat) (m m' : Memory) : Prop :=
  ∀ a, (a < lo ∨ hi ≤ a) → readByte m' a = readByte m a

/-- The parameters are legal and the two WARL lengths are within their buffers (00_scope.md R7; 10_state.md R36, R40). -/
def LengthsLegal (s : State) : Prop :=
  s.params.legal = true ∧ s.rxLen.toNat ≤ s.params.rxDepth ∧ s.txNbytes.toNat ≤ s.params.txDepth

/-- The receiver's result counts are bounded and add up (10_state.md R37, R38; 41_uart_rx.md R133). -/
def RxCountsBounded (s : State) : Prop :=
  s.rxNbytes.toNat ≤ s.params.rxOutDepth ∧ s.rxNbits.toNat ≤ s.params.rxDepth ∧
    s.rxNbytes.toNat + s.rxNdrop.toNat = s.rxNbits.toNat / 10

/-- Entries of RX_BYTE from RX_NBYTES on read 0 (10_state.md R46). -/
def RxTailZero (s : State) : Prop :=
  ∀ k, s.rxNbytes.toNat ≤ k → k < s.params.rxOutDepth → readEntry s .rxByte k = 0#32

/-- TX_NBITS is ten times a number of frames; the entries below it hold frames (start bit 0, stop bit 1) and the others 0
(10_state.md R41, R48; 42_uart_tx.md R155, R157). -/
def TxFramesWhole (s : State) : Prop :=
  s.txNbits.toNat % 10 = 0 ∧ s.txNbits.toNat ≤ 10 * s.params.txDepth ∧
    ∀ k, k < s.params.txDepth →
      if 10 * k < s.txNbits.toNat then
        (readEntry s .txFrame k).getLsbD 0 = false ∧ (readEntry s .txFrame k).getLsbD 9 = true
      else readEntry s .txFrame k = 0#32

/-- Offset `a` is a byte lane of an entry of a buffer (20_memory.md R66). -/
def IsEntryLane (p : Params) (a : Nat) : Prop :=
  ∃ b i, i < bufDepth p b ∧ bufAddr b i ≤ a ∧ a < bufAddr b i + 4

/-- Memory holds the buffers and nothing else: a byte that is no lane of an entry reads 0, and no entry holds more bits than
its width (10_state.md R45 to R49; 20_memory.md R66). -/
def OnlyEntriesStored (s : State) : Prop :=
  (∀ a, ¬ IsEntryLane s.params a → readByte s.mem a = 0#8) ∧
    ∀ b i, i < bufDepth s.params b → (readWord s.mem (bufAddr b i)).toNat < 2 ^ bufWidth s.params b

/-- The levels of (`spi_cs_n`, `spi_sclk`) after a list of events, from given levels. -/
def pinsAfter (pins : Bool × Bool) : List (Nat × SpiOp) → Bool × Bool
  | [] => pins
  | (_, .csN level) :: t => pinsAfter (level, pins.2) t
  | (_, .sclk level) :: t => pinsAfter (pins.1, level) t
  | (_, .draw) :: t => pinsAfter pins t

/-- How many draws a list of events makes. -/
def drawCount (es : List (Nat × SpiOp)) : Nat := es.countP fun e => decide (e.2 = .draw)

/-- The output pins: outside an SPI_READ, `spi_cs_n` is 1, `spi_sclk` is `MODE[0]` and no transaction is in progress; during
one, the pins and the bits drawn are what the events performed so far give (10_state.md R51, R52). -/
def PinsAsSpecified (s : State) : Prop :=
  if s.phase = .busy .spiRead then
    s.spiPos ≤ (spiProgramOf s).length ∧
    (s.spiCsN, s.spiSclk) = pinsAfter (true, spiIdleLevel s.spiMode) ((spiProgramOf s).take s.spiPos) ∧
    s.spiBits.length = drawCount ((spiProgramOf s).take s.spiPos)
  else s.spiCsN = true ∧ s.spiSclk = s.spiMode.getLsbD 0 ∧ s.spiPos = 0 ∧ s.spiBits = []

/-- While `rst` is 1 the block is in its reset state (70_reset_and_hazards.md R230). -/
def HeldInReset (s : State) : Prop := s.rst = true → s = assertReset s

/-- The invariant of the machine: all of the above. -/
structure Inv (s : State) : Prop where
  memory : s.mem.wf = true
  lengths : LengthsLegal s
  rxCounts : RxCountsBounded s
  rxTail : RxTailZero s
  txFrames : TxFramesWhole s
  stored : OnlyEntriesStored s
  pins : PinsAsSpecified s
  reset : HeldInReset s

end Sys2Proof.Machine
end

