-- ==== Sys2Proof/Certificates/Slice0/Obligations.lean ====
section
/-! DEFINITION. The statements for the provers. Each docstring names the rules of spec/ its statement formalises; OBLIGATIONS.json
holds the words. -/

open Sys2Proof Sys2Proof.Machine

/-! ### Encoding (30_encoding.md) -/

/-- The six command words of R81's table decode to their commands, and decoding the encoding of any well-formed command, as a word or
as bytes in lane order (R61), gives it back. -/
def Obligations.CommandWordsDecodeAsTabled : Prop :=
  decode 0x00000001#32 = .ok .codecEnc ∧ decode 0x00000002#32 = .ok .codecDec ∧
  decode 0x00000003#32 = .ok .uartRxDecode ∧ decode 0x00000004#32 = .ok .uartTxBuild ∧
  decode 0x00000005#32 = .ok .spiRead ∧ decode 0x00000006#32 = .ok .spiAssemble ∧
  decodeBytes [0x05#8, 0x00#8, 0x00#8, 0x00#8] = .ok .spiRead ∧
  ∀ i : Instr, i.wf = true → decode (encode i) = .ok i ∧ decodeBytes (encodeBytes i) = .ok i

/-- A word decodes exactly when RSV is 0 and OP is one of 1 to 6, and then it is the encoding of what it decodes to (R80 to R82). -/
def Obligations.DecodeAcceptsExactlyTheLegalWords : Prop :=
  ∀ w : Word,
    ((∃ i, decode w = .ok i) ↔ w.extractLsb' 4 28 = 0#28 ∧ 1 ≤ (w.extractLsb' 0 4).toNat ∧ (w.extractLsb' 0 4).toNat ≤ 6) ∧
    (∀ i, decode w = .ok i → w = encode i)

/-! ### Issue, completion and the step (10_state.md R21 to R23; 60_exceptions.md) -/

/-- While a command is issued and the engine moves next, one step is exec of that command, on the state without the consumed
input; that the engine moves when nothing is scheduled is the model's choice (log 7). A write of a command's word to CMD while IDLE
issues it and does nothing else, so that with the engine's completion scheduled next the two steps together run it (R21, R22).
`withFetchWord` is a state whose next step runs it: the model's choice (log 1). -/
def Obligations.StepRunsTheIssuedCommand : Prop :=
  (∀ (s : State) (i : Instr), s.phase = .busy i → s.inputs = [] → step s = exec i s) ∧
  (∀ (s : State) (i : Instr) (rest : List Input), s.phase = .busy i → s.inputs = .complete :: rest →
    step s = exec i { s with inputs := rest }) ∧
  (∀ (s : State) (i : Instr) (rest : List Input), i.wf = true → s.phase = .idle → s.rst = false →
    s.inputs = .write (regAddr s.params .cmd) (encode i) :: .complete :: rest →
    ∃ t, step s = .next t ∧ t = { s with inputs := .complete :: rest, phase := .busy i, spiPos := 0, spiBits := [] } ∧
      step t = exec i { t with inputs := rest }) ∧
  (∀ (s : State) (i : Instr), i.wf = true → (s.withFetchWord 32 (encode i).toNat).phase = .busy i ∧
    step (s.withFetchWord 32 (encode i).toNat) = exec i (s.withFetchWord 32 (encode i).toNat))

/-- No step faults or refuses, and every command completes with DONE set and the phase IDLE (R200, R22). -/
def Obligations.NoStepStopsAndEveryCommandCompletes : Prop :=
  (∀ s : State, SafeStep s) ∧
  (∀ (i : Instr) (s : State), ∃ t, exec i s = .next t ∧ t.status.done = true ∧ t.phase = .idle)

/-- The engine moves only while a command is issued. Its completion sets DONE and the phase IDLE (R22). That it comes at the very next
step when nothing is scheduled is the model's choice (DESIGN CHOICE, log 7): R241 says only that it is taken eventually. While IDLE
the block does nothing and holds its state (R212). That a completion or a pin event scheduled while IDLE is passed over, so that only
the schedule moves, is the model's choice (DESIGN CHOICE, log 7 and log 8). -/
def Obligations.EngineCompletesWhenBusyAndHoldsWhenIdle : Prop :=
  (∀ (s : State) (op : Instr), s.phase = .busy op → s.inputs = [] →
    ∃ t, step s = .next t ∧ t.phase = .idle ∧ t.status.done = true ∧ t.inputs = []) ∧
  (∀ s : State, s.phase = .idle →
    (s.inputs = [] → step s = .next s) ∧
    (∀ rest, s.inputs = .complete :: rest → step s = .next { s with inputs := rest }) ∧
    (∀ rest, s.inputs = .spiEvent :: rest → step s = .next { s with inputs := rest }))

/-- Only a write of a legal word to CMD takes the engine from IDLE to BUSY (R21). -/
def Obligations.OnlyALegalCommandWriteLeavesIdle : Prop :=
  ∀ (s t : State) (op : Instr), s.phase = .idle → step s = .next t → t.phase = .busy op →
    s.rst = false ∧ ∃ a rest, s.inputs = .write a (encode op) :: rest ∧ s.params.base ≤ a ∧ a < s.params.base + 4

/-- A host write to CMD (R26, R82, R83): while IDLE, a word with RSV = 0 and OP in 1 to 6 issues its command; any other word issues
nothing, leaves the phase IDLE, sets CMD_REJ, leaves DONE and everything else alone; while BUSY any word is dropped, with CMD_REJ
set. -/
def Obligations.CommandWriteIssuesOrRejects : Prop :=
  ∀ (s : State) (a : Nat) (w : Word) (rest : List Input), s.inputs = .write a w :: rest → s.rst = false → s.params.base ≤ a →
    a < s.params.base + 4 →
    (s.phase = .idle →
      (w.extractLsb' 4 28 = 0#28 ∧ 1 ≤ (w.extractLsb' 0 4).toNat ∧ (w.extractLsb' 0 4).toNat ≤ 6 →
        ∃ op, w = encode op ∧ step s = .next { s with inputs := rest, phase := .busy op, spiPos := 0, spiBits := [] }) ∧
      (¬ (w.extractLsb' 4 28 = 0#28 ∧ 1 ≤ (w.extractLsb' 0 4).toNat ∧ (w.extractLsb' 0 4).toNat ≤ 6) →
        step s = .next { s with inputs := rest, status := { s.status with cmdRej := true } })) ∧
    (∀ op, s.phase = .busy op → step s = .next { s with inputs := rest, status := { s.status with cmdRej := true } })

/-- A host write while BUSY (R64): to STATUS it clears as while IDLE; to any other offset it stores nothing, issues nothing and sets
CMD_REJ. -/
def Obligations.BusyWritesAreDropped : Prop :=
  ∀ (s : State) (a : Nat) (v : Word) (rest : List Input) (op : Instr), s.inputs = .write a v :: rest → s.rst = false →
    s.phase = .busy op →
    s.params.base ≤ a → a < s.params.base + 0x10000 →
    ((a - s.params.base) / 4 = 1 →
      step s = .next { s with inputs := rest, status := clearStatus v s.status } ∧
      step { s with phase := .idle } = .next { s with phase := .idle, inputs := rest, status := clearStatus v s.status }) ∧
    ((a - s.params.base) / 4 ≠ 1 →
      step s = .next { s with inputs := rest, status := { s.status with cmdRej := true } })

/-- While a command stays issued, no step changes an operand, a result or a buffer (R23): only the schedule, STATUS, the SPI
transaction's progress and pins, and the read port move. -/
def Obligations.OperandsAndResultsHoldWhileBusy : Prop :=
  ∀ (s t : State) (op op' : Instr), s.phase = .busy op → step s = .next t → t.phase = .busy op' →
    t = { s with
      inputs := t.inputs, status := t.status, rdata := t.rdata, spiSclk := t.spiSclk, spiCsN := t.spiCsN,
      spiPos := t.spiPos, spiBits := t.spiBits, miso := t.miso, misoDrawn := t.misoDrawn, history := t.history,
      rst := t.rst }

/-- Each result register and each result buffer changes only at the completion of a command that writes it, or at reset (R33, R37 to
R39, R41, R44, R46, R48: "Written only by the completion of …"). -/
def Obligations.ResultsChangeOnlyAtTheirCompletion : Prop :=
  ∀ s t : State, s.params.legal = true → step s = .next t → t.rst = false →
    ((t.codecDecRaw ≠ s.codecDecRaw ∨ t.codecDecTag ≠ s.codecDecTag) → s.phase = .busy .codecDec ∧ t.phase = .idle) ∧
    ((t.rxNbytes ≠ s.rxNbytes ∨ t.rxNbits ≠ s.rxNbits ∨ t.rxNdrop ≠ s.rxNdrop ∨
        ∃ k, k < s.params.rxOutDepth ∧ readEntry t .rxByte k ≠ readEntry s .rxByte k) →
      s.phase = .busy .uartRxDecode ∧ t.phase = .idle) ∧
    ((t.txNbits ≠ s.txNbits ∨ ∃ k, k < s.params.txDepth ∧ readEntry t .txFrame k ≠ readEntry s .txFrame k) →
      s.phase = .busy .uartTxBuild ∧ t.phase = .idle) ∧
    (t.spiReading ≠ s.spiReading → (s.phase = .busy .spiRead ∨ s.phase = .busy .spiAssemble) ∧ t.phase = .idle)

/-- A sticky flag is cleared only by reset or by a write of 1 to it in STATUS; no command clears one (R27). -/
def Obligations.StickyFlagsAreClearedOnlyByTheHostOrReset : Prop :=
  ∀ s t : State, step s = .next t →
    (∃ rest, s.inputs = .rst true :: rest) ∨
    (∃ a v rest, s.inputs = .write a v :: rest ∧ s.rst = false ∧ s.params.base + 4 ≤ a ∧ a < s.params.base + 8 ∧
      t.status = clearStatus v s.status) ∨
    ((s.status.done = true → t.status.done = true) ∧ (s.status.frameErr = true → t.status.frameErr = true) ∧
      (s.status.short = true → t.status.short = true) ∧ (s.status.codecErr = true → t.status.codecErr = true) ∧
      (s.status.cfgErr = true → t.status.cfgErr = true) ∧ (s.status.cmdRej = true → t.status.cmdRej = true))

/-! ### The bus (20_memory.md; 10_state.md R25, R27) -/

/-- Every register reads its fields at their bit positions and 0 in every other bit (R25, R27, R42): all nineteen, in the order of
R25's table. With ReadReturnsTheLocationAndChangesNothing this is what a host read of each returns. -/
def Obligations.RegistersReadTheirFieldsInPlace : Prop :=
  ∀ s : State,
    (regWord s .cmd).toNat = 0 ∧
    (regWord s .status).toNat =
      (if s.phase = .idle then 0 else 1) + 2 * s.status.done.toNat + 4 * s.status.frameErr.toNat + 8 * s.status.short.toNat +
        16 * s.status.codecErr.toNat + 64 * s.status.cfgErr.toNat + 128 * s.status.cmdRej.toNat ∧
    (regWord s .codecValue).toNat = s.codecValue.toNat ∧
    (regWord s .codecMax).toNat = s.codecMax.toNat ∧
    (regWord s .codecMin).toNat = s.codecMin.toNat ∧
    (regWord s .codecTag).toNat = s.codecTag.toNat ∧
    (regWord s .codecFrame).toNat = s.codecFrame.toNat ∧
    (regWord s .codecDec).toNat = s.codecDecRaw.toNat + 256 * s.codecDecTag.toNat ∧
    (regWord s .rxSpb).toNat = s.rxSpb.toNat ∧
    (regWord s .rxThresh).toNat = s.rxThresh.toNat ∧
    (regWord s .rxLen).toNat = s.rxLen.toNat ∧
    (regWord s .rxNbytes).toNat = s.rxNbytes.toNat ∧
    (regWord s .rxNbits).toNat = s.rxNbits.toNat ∧
    (regWord s .rxNdrop).toNat = s.rxNdrop.toNat ∧
    (regWord s .txNbytes).toNat = s.txNbytes.toNat ∧
    (regWord s .txNbits).toNat = s.txNbits.toNat ∧
    (regWord s .spiCtrl).toNat = s.spiMode.toNat + 4 * s.spiOrder.toNat + 256 * s.spiByteCount.toNat ∧
    (regWord s .spiClkdiv).toNat = s.spiClkdiv.toNat ∧
    (regWord s .spiReading).toNat = s.spiReading.toNat

/-- A host read (R62): it returns the register, the zero-extended entry, or 0 elsewhere, whatever the low two address bits, and
changes nothing else, in either engine phase. (The field that shows the data returned is the model's, log 11.) -/
def Obligations.ReadReturnsTheLocationAndChangesNothing : Prop :=
  ∀ (s : State) (a : Nat) (rest : List Input), s.inputs = .read a :: rest → s.rst = false → s.params.legal = true →
    s.params.base ≤ a → a < s.params.base + 0x10000 →
    ∃ v, step s = .next { s with inputs := rest, rdata := v } ∧
      (∀ r, regOffset r ≤ a - s.params.base → a - s.params.base < regOffset r + 4 → v = regWord s r) ∧
      (∀ b i, i < bufDepth s.params b → bufAddr b i ≤ a - s.params.base → a - s.params.base < bufAddr b i + 4 →
        v = readEntry s b i) ∧
      ((∀ r, ¬ (regOffset r ≤ a - s.params.base ∧ a - s.params.base < regOffset r + 4)) →
        ¬ IsEntryLane s.params (a - s.params.base) → v = 0#32)

/-- An access outside [BASE, BASE + 0x10000) does not reach the block, and inside it the low two address bits are ignored (R60). R60
does not say what the bus returns for a read outside the window: that the field which shows the last read's data (DESIGN CHOICE,
log 11) then keeps its value is the model's choice (DEDUCED, log 12). -/
def Obligations.OnlyTheWindowIsDecodedAndLowBitsAreIgnored : Prop :=
  (∀ (s : State) (a : Nat) (rest : List Input), (a < s.params.base ∨ s.params.base + 0x10000 ≤ a) →
    (s.inputs = .read a :: rest → step s = .next { s with inputs := rest }) ∧
    (∀ v, s.inputs = .write a v :: rest → step s = .next { s with inputs := rest })) ∧
  (∀ (s : State) (q k : Nat) (v : Word) (rest : List Input), k < 4 → 4 * q < 0x10000 →
    step { s with inputs := .read (s.params.base + 4 * q + k) :: rest } =
      step { s with inputs := .read (s.params.base + 4 * q) :: rest } ∧
    step { s with inputs := .write (s.params.base + 4 * q + k) v :: rest } =
      step { s with inputs := .write (s.params.base + 4 * q) v :: rest })

/-- A write while IDLE to an RW register stores its fields and drops its reserved bits, so that reading it back gives the data masked
with them; every other register, and all of memory, is unchanged (R63, R25). A write of SPI_CTRL moves `spi_sclk` to the new idle
level MODE[0] at once, and no other write moves it; `spi_cs_n` stays (R51). That the event history stays, so
that a move of `spi_sclk` by a write of MODE leaves no entry in it, is the model's choice (DESIGN CHOICE, log 9). -/
def Obligations.RegisterWritesReadBackMasked : Prop :=
  ∀ (s : State) (v : Word) (rest : List Input) (r : Reg) (mask : Word), s.phase = .idle → s.rst = false →
    s.inputs = .write (regAddr s.params r) v :: rest →
    (r, mask) ∈ [(Reg.codecValue, 0xFFFFFFFF#32), (.codecMax, 0xFFFFFFFF#32), (.codecMin, 0xFFFFFFFF#32), (.codecTag, 0x3#32),
      (.codecFrame, 0xFF#32), (.rxSpb, 0xFFFFFFFF#32), (.rxThresh, 0xFFFF#32), (.spiCtrl, 0xF07#32),
      (.spiClkdiv, 0xFFFF#32)] →
    ∃ t, step s = .next t ∧ regWord t r = v &&& mask ∧ (∀ r', r' ≠ r → regWord t r' = regWord s r') ∧
      t.mem = s.mem ∧ t.phase = .idle ∧ t.spiCsN = s.spiCsN ∧ t.history = s.history ∧
      t.spiSclk = if r = .spiCtrl then v.getLsbD 0 else s.spiSclk

/-- A write while IDLE to RX_LEN or TX_NBYTES stores min(value, depth) and changes nothing else (R36, R40). -/
def Obligations.LengthWritesAreClampedToTheDepth : Prop :=
  ∀ (s : State) (v : Word) (rest : List Input), s.phase = .idle → s.rst = false →
    (s.inputs = .write (regAddr s.params .rxLen) v :: rest →
      ∃ n, step s = .next { s with inputs := rest, rxLen := n } ∧ n.toNat = min v.toNat s.params.rxDepth) ∧
    (s.inputs = .write (regAddr s.params .txNbytes) v :: rest →
      ∃ n, step s = .next { s with inputs := rest, txNbytes := n } ∧ n.toNat = min v.toNat s.params.txDepth)

/-- A write of 1 to a sticky bit of STATUS clears it, every other bit and everything else is unchanged, in either phase (R27). -/
def Obligations.StatusWriteClearsTheOnesWritten : Prop :=
  ∀ (s : State) (v : Word) (rest : List Input), s.rst = false → s.inputs = .write (regAddr s.params .status) v :: rest →
    ∃ st, step s = .next { s with inputs := rest, status := st } ∧
      st.done = (s.status.done && !v.getLsbD 1) ∧ st.frameErr = (s.status.frameErr && !v.getLsbD 2) ∧
      st.short = (s.status.short && !v.getLsbD 3) ∧ st.codecErr = (s.status.codecErr && !v.getLsbD 4) ∧
      st.cfgErr = (s.status.cfgErr && !v.getLsbD 6) ∧ st.cmdRej = (s.status.cmdRej && !v.getLsbD 7)

/-- A write while IDLE to an RO register, an RO buffer entry or an unmapped offset is ignored and sets no flag (R63). -/
def Obligations.WritesToReadOnlyAndUnmappedAreIgnored : Prop :=
  ∀ (s : State) (v : Word) (rest : List Input), s.phase = .idle → s.rst = false → s.params.legal = true →
    (∀ r ∈ [Reg.codecDec, .rxNbytes, .rxNbits, .rxNdrop, .txNbits, .spiReading],
      s.inputs = .write (regAddr s.params r) v :: rest → step s = .next { s with inputs := rest }) ∧
    (∀ b ∈ [Buf.rxByte, .txFrame], ∀ i, i < bufDepth s.params b →
      s.inputs = .write (entryAddr s.params b i) v :: rest → step s = .next { s with inputs := rest }) ∧
    (∀ off, off < 0x10000 → (∀ r, ¬ (regOffset r ≤ off ∧ off < regOffset r + 4)) → ¬ IsEntryLane s.params off →
      s.inputs = .write (s.params.base + off) v :: rest → step s = .next { s with inputs := rest })

/-- A write while IDLE to an entry of RX_SAMPLE, TX_BYTE or SPI_BYTE stores the entry's low bits: it reads back those, every byte
outside the entry is unchanged, and so is everything but memory (R45, R47, R49, R63). -/
def Obligations.BufferWriteStoresTheLowBits : Prop :=
  ∀ (s : State) (b : Buf) (i : Nat) (v : Word) (rest : List Input), s.phase = .idle → s.rst = false → s.params.legal = true →
    s.mem.wf = true →
    b ∈ [Buf.rxSample, .txByte, .spiByte] → i < bufDepth s.params b →
    s.inputs = .write (entryAddr s.params b i) v :: rest →
    ∃ m, step s = .next { s with inputs := rest, mem := m } ∧
      (readEntry { s with mem := m } b i).toNat = v.toNat % 2 ^ bufWidth s.params b ∧
      SameBytesOutside (bufAddr b i) (bufAddr b i + 4) s.mem m

/-- A RUN of a command by an idle host program (R86): after its CMD write, any number of polls that see BUSY = 1, the completion and
the last poll, the phase is IDLE and the last read returned BUSY = 0 and DONE = 1 (R69, R235). The schedule as data is the model's choice
(log 7). -/
def Obligations.RunWaitsForTheCompletion : Prop :=
  ∀ (s : State) (op : Instr) (polls : Nat), s.phase = .idle → s.rst = false → s.inputs = programInputs s.params [.run op polls] →
    ∃ t, Host.Core.run core (polls + 3) s = .next t ∧ t.phase = .idle ∧ t.inputs = [] ∧
      t.rdata.getLsbD 0 = false ∧ t.rdata.getLsbD 1 = true ∧
      (∀ k, k < polls → ∃ u, Host.Core.run core (k + 2) s = .next u ∧ u.rdata.getLsbD 0 = true)

/-! ### Reset (70_reset_and_hazards.md) -/

/-- The registers' values after reset, as R25's table gives them, the buffers 0, the phase IDLE and the pins as R230 says. -/
def Obligations.ResetStateIsAsTabled : Prop :=
  (∀ r, regWord State.reset r =
    if r = .rxThresh then 0x00004000#32 else if r = .spiCtrl then 0x00000200#32 else 0x00000000#32) ∧
  (∀ b i, readEntry State.reset b i = 0#32) ∧
  State.reset.phase = .idle ∧ State.reset.spiCsN = true ∧ State.reset.spiSclk = false

/-- A clock edge with `rst` = 1 in ANY state puts every register, every buffer entry, the phase and the pins at their reset values;
while `rst` is 1 host writes are ignored and reads return 0; and the machine starts in the reset state (R230). So a reset while BUSY
abandons the command (R231). -/
def Obligations.ResetEdgeResetsTheBlock : Prop :=
  (∀ (s : State) (rest : List Input), s.inputs = .rst true :: rest →
    ∃ t, step s = .next t ∧ t.rst = true ∧
      (∀ r, regWord t r =
        if r = .rxThresh then 0x00004000#32 else if r = .spiCtrl then 0x00000200#32 else 0x00000000#32) ∧
      (∀ b i, readEntry t b i = 0#32) ∧ t.phase = .idle ∧ t.status.done = false ∧ t.spiCsN = true ∧ t.spiSclk = false) ∧
  (∀ (s : State) (a : Nat) (rest : List Input), s.rst = true → s.params.base ≤ a → a < s.params.base + 0x10000 →
    (s.inputs = .read a :: rest → step s = .next { s with inputs := rest, rdata := 0#32 }) ∧
    (∀ v, s.inputs = .write a v :: rest → step s = .next { s with inputs := rest })) ∧
  ((∀ r, regWord State.reset r =
      if r = .rxThresh then 0x00004000#32 else if r = .spiCtrl then 0x00000200#32 else 0x00000000#32) ∧
    (∀ b i, readEntry State.reset b i = 0#32) ∧ State.reset.phase = .idle ∧ State.reset.spiCsN = true ∧
    State.reset.spiSclk = false)

/-- What each command does right after reset (R232), whatever the parameters, the schedule and the levels MISO will show. The phase is
IDLE. CODEC_ENC takes the degenerate path, UART_RX_DECODE the configuration path, UART_TX_BUILD gives an empty sequence, SPI_READ
runs a 2-byte mode-0 MSB-first transaction (its first bit, drawn after a rising first edge, is bit 7 of byte 0) at the fastest bit
period (2 cycles, so that chip select rises at cycle 33), and SPI_ASSEMBLE reads 0. -/
def Obligations.CommandsAreDefinedRightAfterReset : Prop :=
  ∀ s : State, s = releaseReset (assertReset s) → s.phase = .idle ∧
    (∃ t, exec .codecEnc s = .next t ∧ t.codecFrame = 0#8 ∧ t.status.codecErr = true) ∧
    (∃ t, exec .codecDec s = .next t ∧ t.codecDecRaw = 0#6 ∧ t.codecDecTag = 0#2) ∧
    (∃ t, exec .uartRxDecode s = .next t ∧ t.rxNbytes = 0#32 ∧ t.rxNbits = 0#32 ∧ t.rxNdrop = 0#32 ∧ t.status.cfgErr = true) ∧
    (∃ t, exec .uartTxBuild s = .next t ∧ t.txNbits = 0#32 ∧ bitSequence t = []) ∧
    (∃ t es, exec .spiRead s = .next t ∧ t.history = s.history ++ es ∧ es.length = 50 ∧
      es.take 4 = [⟨0, .csN false⟩, ⟨1, .sclk true⟩, ⟨1, .miso 0 (misoAt s 0)⟩, ⟨2, .sclk false⟩] ∧
      es.getLast? = some ⟨33, .csN true⟩ ∧
      (readEntry t .spiByte 0).getLsbD 7 = misoAt s 0) ∧
    (∃ t, exec .spiAssemble s = .next t ∧ t.spiReading = 0#12 ∧ t.status.short = false)

/-! ### The codec (40_codec.md) -/

/-- CODEC_ENC (R101, R102, R103). A degenerate range gives FRAME = 0 and CODEC_ERR; otherwise FRAME[7:6] is the tag and
FRAME[5:0] the truncated quotient ((c - lo)·63) / (hi - lo). Nothing else but DONE and the phase changes. -/
def Obligations.CodecEncPacksTagAndScaledMagnitude : Prop :=
  ∀ s : State, ∃ t, exec .codecEnc s = .next t ∧
    (s.codecMax.toInt ≤ s.codecMin.toInt → t.codecFrame = 0#8 ∧ t.status.codecErr = true) ∧
    (s.codecMin.toInt < s.codecMax.toInt →
      t.status.codecErr = s.status.codecErr ∧ t.codecFrame.extractLsb' 6 2 = s.codecTag ∧
      ∀ c raw : Int, c = min (max s.codecValue.toInt s.codecMin.toInt) s.codecMax.toInt →
        raw = ((t.codecFrame.extractLsb' 0 6).toNat : Int) →
        raw * (s.codecMax.toInt - s.codecMin.toInt) ≤ (c - s.codecMin.toInt) * 63 ∧
        (c - s.codecMin.toInt) * 63 < (raw + 1) * (s.codecMax.toInt - s.codecMin.toInt)) ∧
    t = { s with
      codecFrame := t.codecFrame, phase := .idle,
      status := { s.status with done := true, codecErr := t.status.codecErr } }

/-- The extreme codes (R105): for hi > lo, raw is between 0 and 63, is 0 exactly when (c - lo)·63 < hi - lo and 63 exactly when
c = hi; the mask of 6 bits changes nothing. -/
def Obligations.CodecRawReachesItsExtremesExactly : Prop :=
  ∀ v hi lo c : Int, lo < hi → c = min (max v lo) hi →
    0 ≤ c - lo ∧ c - lo ≤ hi - lo ∧ 0 ≤ codecRaw v hi lo ∧ codecRaw v hi lo ≤ 63 ∧
    (codecRaw v hi lo = 0 ↔ (c - lo) * 63 < hi - lo) ∧ (codecRaw v hi lo = 63 ↔ c = hi) ∧
    ∀ tag, ((codecFrameOf tag (codecRaw v hi lo)).extractLsb' 0 6).toNat = (codecRaw v hi lo).toNat

/-- Scaling all three operands by the same positive integer does not change the frame (R104). -/
def Obligations.CodecEncIsScaleInvariant : Prop :=
  ∀ (s u : State) (k : Int), 0 < k → u.codecValue.toInt = k * s.codecValue.toInt → u.codecMax.toInt = k * s.codecMax.toInt →
    u.codecMin.toInt = k * s.codecMin.toInt → u.codecTag = s.codecTag →
    ∃ t t', exec .codecEnc s = .next t ∧ exec .codecEnc u = .next t' ∧ t'.codecFrame = t.codecFrame

/-- For a value in the range the code is within one step below the exact scaled value (R107). -/
def Obligations.CodecRawIsWithinOneStepBelow : Prop :=
  ∀ v hi lo : Int, lo < hi → lo ≤ v → v ≤ hi →
    (0 : ℚ) ≤ ((v : ℚ) - lo) * 63 / ((hi : ℚ) - lo) - codecRaw v hi lo ∧
    ((v : ℚ) - lo) * 63 / ((hi : ℚ) - lo) - codecRaw v hi lo < 1

/-- CODEC_DEC (R110): TAG is the frame's bits 7..6 and RAW its bits 5..0; CODEC_DEC reads RAW + 256·TAG. Nothing else but DONE and the
phase changes. -/
def Obligations.CodecDecSplitsTheFrame : Prop :=
  ∀ s : State, ∃ t, exec .codecDec s = .next t ∧
    t.codecDecTag.toNat = s.codecFrame.toNat / 64 ∧ t.codecDecRaw.toNat = s.codecFrame.toNat % 64 ∧
    (regWord t .codecDec).toNat = s.codecFrame.toNat % 64 + 256 * (s.codecFrame.toNat / 64) ∧
    t = { s with
      codecDecTag := t.codecDecTag, codecDecRaw := t.codecDecRaw, phase := .idle,
      status := { s.status with done := true } }

/-- Decoding the frame that CODEC_ENC produced gives back its tag and code exactly (R108, R111). -/
def Obligations.CodecDecodeInvertsEncode : Prop :=
  ∀ s : State, s.codecMin.toInt < s.codecMax.toInt → ∃ t u, exec .codecEnc s = .next t ∧ exec .codecDec t = .next u ∧
    u.codecDecTag = s.codecTag ∧
    (u.codecDecRaw.toNat : Int) = codecRaw s.codecValue.toInt s.codecMax.toInt s.codecMin.toInt

/-! ### The transmitter (42_uart_tx.md) -/

/-- The frame of a byte (R151): bit 0 is 0, bit 1 + i is bit i of the byte, bit 9 is 1. -/
def Obligations.FrameIsStartDataLsbFirstStop : Prop :=
  ∀ b : Byte, (frameOf b).toNat = 0x200 + 2 * b.toNat ∧ (frameOf b).getLsbD 0 = false ∧
    (∀ i, i < 8 → (frameOf b).getLsbD (1 + i) = b.getLsbD i) ∧ (frameOf b).getLsbD 9 = true

/-- UART_TX_BUILD (R152): TX_FRAME[k] is the frame of TX_BYTE[k] below n and 0 from n on, TX_NBITS is 10·n. Every byte outside
TX_FRAME, and everything else but DONE and the phase, is unchanged. -/
def Obligations.TxBuildFramesThePayload : Prop :=
  ∀ s : State, s.params.legal = true → s.mem.wf = true → s.txNbytes.toNat ≤ s.params.txDepth →
    ∃ t, exec .uartTxBuild s = .next t ∧
      (∀ k, k < s.params.txDepth → (readEntry t .txFrame k).toNat =
        if k < s.txNbytes.toNat then 0x200 + 2 * (readEntry s .txByte k).toNat else 0) ∧
      t.txNbits.toNat = 10 * s.txNbytes.toNat ∧
      SameBytesOutside (bufAddr .txFrame 0) (bufAddr .txFrame s.params.txDepth) s.mem t.mem ∧
      t = { s with mem := t.mem, txNbits := t.txNbits, phase := .idle, status := { s.status with done := true } }

/-- The BitSequence after UART_TX_BUILD (R153, R155): its length is 10·n, and its element 10·k + i is the start bit 0 for i = 0, bit
i - 1 of byte k for i from 1 to 8, and the stop bit 1 for i = 9. -/
def Obligations.BitSequenceIsTheFramesInOrder : Prop :=
  ∀ s : State, s.params.legal = true → s.mem.wf = true → s.txNbytes.toNat ≤ s.params.txDepth →
    ∃ t, exec .uartTxBuild s = .next t ∧ (bitSequence t).length = 10 * s.txNbytes.toNat ∧
      ∀ k i, k < s.txNbytes.toNat → i < 10 →
        (bitSequence t)[10 * k + i]? = some
          (if i = 0 then false else if i = 9 then true else (readEntry s .txByte k).getLsbD (i - 1))

/-! ### The receiver (41_uart_rx.md) -/

/-- UART_RX_DECODE with an oversampling ratio below 1 (R121): empty results, CFG_ERR and DONE, no other flag; every byte outside
RX_BYTE, and everything else, is unchanged. -/
def Obligations.RxRatioBelowOneGivesAnEmptyResult : Prop :=
  ∀ s : State, s.params.legal = true → s.mem.wf = true → s.rxSpb.toNat < 0x10000 →
    ∃ t, exec .uartRxDecode s = .next t ∧
      (∀ k, k < s.params.rxOutDepth → readEntry t .rxByte k = 0#32) ∧
      SameBytesOutside (bufAddr .rxByte 0) (bufAddr .rxByte s.params.rxOutDepth) s.mem t.mem ∧
      t = { s with
        mem := t.mem, rxNbytes := 0#32, rxNbits := 0#32, rxNdrop := 0#32, phase := .idle,
        status := { s.status with done := true, cfgErr := true } }

/-- UART_RX_DECODE (R129, R130, R131) for a legal ratio: the bytes of the valid words in order and 0 beyond them, the three counts,
FRAME_ERR exactly when a word was dropped, SHORT exactly when trailing samples or bits were; every byte outside RX_BYTE, and
everything else but DONE and the phase, is unchanged (R132). -/
def Obligations.RxDecodeWritesTheRecoveredBytes : Prop :=
  ∀ (s : State) (bits : List Bool), s.params.legal = true → s.mem.wf = true → s.rxLen.toNat ≤ s.params.rxDepth →
    0x10000 ≤ s.rxSpb.toNat →
    bits = rxBits s.params.rxTieHigh s.rxSpb.toNat s.rxThresh.toNat
      ((List.range s.rxLen.toNat).map fun j => (readEntry s .rxSample j).toNat) →
    ∃ t, exec .uartRxDecode s = .next t ∧
      (∀ k, k < s.params.rxOutDepth → (readEntry t .rxByte k).toNat =
        ((((List.range (bits.length / 10)).filter (wordValid bits)).map (wordByte bits)).getD k 0#8).toNat) ∧
      t.rxNbytes.toNat = ((List.range (bits.length / 10)).filter (wordValid bits)).length ∧
      t.rxNbits.toNat = bits.length ∧
      t.rxNdrop.toNat = ((List.range (bits.length / 10)).filter fun w => !wordValid bits w).length ∧
      (t.status.frameErr = true ↔ s.status.frameErr = true ∨ 0 < t.rxNdrop.toNat) ∧
      (t.status.short = true ↔ s.status.short = true ∨ bits.length * s.rxSpb.toNat / 0x10000 < s.rxLen.toNat ∨
        bits.length % 10 ≠ 0) ∧
      SameBytesOutside (bufAddr .rxByte 0) (bufAddr .rxByte s.params.rxOutDepth) s.mem t.mem ∧
      t = { s with
        mem := t.mem, rxNbytes := t.rxNbytes, rxNbits := t.rxNbits, rxNdrop := t.rxNdrop, phase := .idle,
        status := { s.status with done := true, frameErr := t.status.frameErr, short := t.status.short } }

/-- The normalisation reference is the maximum over all samples, and 0 for an empty capture (R122). -/
def Obligations.RxReferenceIsTheMaximum : Prop :=
  ∀ xs : List Nat, (∀ x ∈ xs, x ≤ rxMax xs) ∧ (xs ≠ [] → rxMax xs ∈ xs) ∧ rxMax [] = 0

/-- The groups (R124): they abut, start at floor(i·spb), and each holds floor(spb) or ceil(spb) samples, exactly k for an integer
ratio k. -/
def Obligations.RxGroupsPartitionTheSamples : Prop :=
  (∀ S i, groupEnd S i = groupStart S (i + 1) ∧ groupStart S 0 = 0 ∧
    (groupStart S i : ℤ) = ⌊(i : ℚ) * ((S : ℚ) / 2 ^ 16)⌋ ∧
    ((groupEnd S i : ℤ) - groupStart S i = ⌊(S : ℚ) / 2 ^ 16⌋ ∨ (groupEnd S i : ℤ) - groupStart S i = ⌈(S : ℚ) / 2 ^ 16⌉)) ∧
  (∀ k i, groupStart (k * 0x10000) i = k * i ∧ groupEnd (k * 0x10000) i = k * i + k)

/-- The complete groups (R125): group i is counted exactly when end(i) ≤ L; for an integer ratio k their number is L // k. -/
def Obligations.RxCountsExactlyTheCompleteGroups : Prop :=
  (∀ S L i, 0x10000 ≤ S → (i < rxGroupCount S L ↔ (i + 1) * S / 0x10000 ≤ L)) ∧
  (∀ k L, 1 ≤ k → rxGroupCount (k * 0x10000) L = L / k)

/-- The threshold detector (R126, R123): the resolved bit of a complete group is the comparison of the rational sum of the
normalised samples, s_j / M or 0 for M = 0, with spb · t; an exact tie resolves as RX_TIE_HIGH says; and for M > 0 it is the
integer comparison of the group's raw sum times 2^31 with S · T · M. The bits a decode resolves are these, in order, one for each of
the G complete groups (R125). -/
def Obligations.RxBitIsTheRationalThresholdVote : Prop :=
  ∀ (tieHigh : Bool) (S T : Nat) (xs : List Nat) (i : Nat) (v thr : ℚ), groupEnd S i ≤ xs.length →
    v = ∑ j ∈ Finset.Ico (groupStart S i) (groupEnd S i), (if rxMax xs = 0 then 0 else (xs.getD j 0 : ℚ) / rxMax xs) →
    thr = ((S : ℚ) / 2 ^ 16) * ((T : ℚ) / 2 ^ 15) →
    (resolveBit tieHigh S T (rxMax xs) (groupSum S xs i) = true ↔ thr < v ∨ (tieHigh = true ∧ v = thr)) ∧
    (0 < rxMax xs → (resolveBit tieHigh S T (rxMax xs) (groupSum S xs i) = true ↔
      S * T * rxMax xs < groupSum S xs i * 2 ^ 31 ∨ (tieHigh = true ∧ groupSum S xs i * 2 ^ 31 = S * T * rxMax xs))) ∧
    (rxBits tieHigh S T xs).length = rxGroupCount S xs.length ∧
    (i < rxGroupCount S xs.length →
      (rxBits tieHigh S T xs)[i]? = some (resolveBit tieHigh S T (rxMax xs) (groupSum S xs i)))

/-- The data byte of a word (R128): bit i is the resolved bit 10·w + 1 + i, so the first data bit is bit 0; a word is valid exactly
when its start bit is 0 and its stop bit is 1. -/
def Obligations.RxWordIsLsbFirst : Prop :=
  ∀ (bits : List Bool) (w : Nat),
    (∀ i, i < 8 → (wordByte bits w).getLsbD i = bitAt bits (10 * w + 1 + i)) ∧
    (wordValid bits w = true ↔ bitAt bits (10 * w) = false ∧ bitAt bits (10 * w + 9) = true)

/-- RX_NBYTES + RX_NDROP is the number of complete words, and no decode overflows RX_BYTE (R133). -/
def Obligations.RxOutputIsBounded : Prop :=
  ∀ s : State, s.params.legal = true → s.rxLen.toNat ≤ s.params.rxDepth → 0x10000 ≤ s.rxSpb.toNat →
    ∃ t, exec .uartRxDecode s = .next t ∧ t.rxNbits.toNat ≤ s.rxLen.toNat ∧
      t.rxNbytes.toNat + t.rxNdrop.toNat = t.rxNbits.toNat / 10 ∧ t.rxNbits.toNat / 10 ≤ s.params.rxOutDepth

/-- Multiplying every sample by the same positive integer changes no resolved bit (R134). -/
def Obligations.RxIsAmplitudeInvariant : Prop :=
  ∀ (tieHigh : Bool) (S T c : Nat) (xs : List Nat), 0 < c →
    rxBits tieHigh S T (xs.map (c * ·)) = rxBits tieHigh S T xs

/-- The round trip with the transmitter (R135): a capture that repeats each element of the frames of some bytes k times, at any
amplitude h, decodes to exactly those bytes with no flag but DONE, for every threshold below 1 (and above 0 where ties resolve
high); with t = 0 and ties high every bit resolves to 1 and every word is invalid. -/
def Obligations.RxRecoversWhatTheTransmitterFramed : Prop :=
  ∀ (s : State) (bytes : List Byte) (k h : Nat), s.params.legal = true → s.mem.wf = true →
    s.rxLen.toNat ≤ s.params.rxDepth → 1 ≤ k → 1 ≤ h → s.rxSpb.toNat = k * 0x10000 → s.rxThresh.toNat < 0x8000 →
    rxSamplesOp s = (bytes.flatMap fun b => (List.range 10).map ((frameOf b).getLsbD ·)).flatMap
      (fun q => List.replicate k (if q then h else 0)) →
    ∃ t, exec .uartRxDecode s = .next t ∧
      ((s.params.rxTieHigh = true → 0 < s.rxThresh.toNat) →
        t.rxNbytes.toNat = bytes.length ∧ t.rxNdrop = 0#32 ∧ t.status = { s.status with done := true } ∧
        ∀ j, j < s.params.rxOutDepth → (readEntry t .rxByte j).toNat = (bytes.getD j 0#8).toNat) ∧
      (s.params.rxTieHigh = true → s.rxThresh.toNat = 0 →
        rxBits s.params.rxTieHigh (rxSpbOp s) (rxThreshOp s) (rxSamplesOp s) = List.replicate (10 * bytes.length) true ∧
        t.rxNbytes = 0#32 ∧ t.rxNdrop.toNat = bytes.length)

/-- Corners of the threshold (R138): with t = 0 and ties low a group resolves to 1 exactly when it holds a non-zero sample; with t = 1 and
ties low no integer-ratio group resolves to 1, while with ties high a group of all maximum samples does. For a ratio of at least 1
that is no integer, a complete group of ceil(spb) samples, all of them the maximum and not 0, resolves to 1 with t = 1 whichever way
ties go, and with every t for which spb · t is below ceil(spb); and every such ratio has a group of ceil(spb) samples. -/
def Obligations.RxThresholdCorners : Prop :=
  (∀ (S : Nat) (xs : List Nat) (i : Nat), groupEnd S i ≤ xs.length →
    (resolveBit false S 0 (rxMax xs) (groupSum S xs i) = true ↔
      ∃ j, groupStart S i ≤ j ∧ j < groupEnd S i ∧ xs.getD j 0 ≠ 0)) ∧
  (∀ (k : Nat) (xs : List Nat) (i : Nat), resolveBit false (k * 0x10000) 0x8000 (rxMax xs) (groupSum (k * 0x10000) xs i) = false) ∧
  (∀ (k : Nat) (xs : List Nat) (i : Nat), k * i + k ≤ xs.length →
    (∀ j, k * i ≤ j → j < k * i + k → xs.getD j 0 = rxMax xs) → 0 < rxMax xs →
    resolveBit true (k * 0x10000) 0x8000 (rxMax xs) (groupSum (k * 0x10000) xs i) = true) ∧
  (∀ (tieHigh : Bool) (S : Nat) (xs : List Nat) (i : Nat), 0x10000 ≤ S → S % 0x10000 ≠ 0 → groupEnd S i ≤ xs.length →
    (groupEnd S i : ℤ) - groupStart S i = ⌈(S : ℚ) / 2 ^ 16⌉ →
    (∀ j, groupStart S i ≤ j → j < groupEnd S i → xs.getD j 0 = rxMax xs) → 0 < rxMax xs →
    resolveBit tieHigh S 0x8000 (rxMax xs) (groupSum S xs i) = true ∧
    ∀ T : Nat, ((S : ℚ) / 2 ^ 16) * ((T : ℚ) / 2 ^ 15) < ⌈(S : ℚ) / 2 ^ 16⌉ →
      resolveBit tieHigh S T (rxMax xs) (groupSum S xs i) = true) ∧
  (∀ S : Nat, 0x10000 ≤ S → S % 0x10000 ≠ 0 → ∃ i, (groupEnd S i : ℤ) - groupStart S i = ⌈(S : ℚ) / 2 ^ 16⌉)

/-- Short captures: one that gives only 9 resolved bits yields no byte, sets SHORT and does not set FRAME_ERR (R136); one too short for
its first group gives no bit at all and sets SHORT exactly when it is not empty, so an empty one sets nothing but DONE (R139). -/
def Obligations.RxShortCapturesYieldNoByte : Prop :=
  ∀ s : State, s.params.legal = true → s.mem.wf = true → s.rxLen.toNat ≤ s.params.rxDepth → 0x10000 ≤ s.rxSpb.toNat →
    (rxGroupCount s.rxSpb.toNat s.rxLen.toNat = 9 →
      ∃ t, exec .uartRxDecode s = .next t ∧ t.rxNbytes = 0#32 ∧ t.rxNbits = 9#32 ∧
        (∀ k, k < s.params.rxOutDepth → readEntry t .rxByte k = 0#32) ∧
        t.status = { s.status with done := true, short := true }) ∧
    (s.rxLen.toNat < groupEnd s.rxSpb.toNat 0 →
      ∃ t, exec .uartRxDecode s = .next t ∧ t.rxNbits = 0#32 ∧ t.rxNbytes = 0#32 ∧ t.rxNdrop = 0#32 ∧
        (∀ k, k < s.params.rxOutDepth → readEntry t .rxByte k = 0#32) ∧
        t.status = { s.status with done := true, short := s.status.short || decide (0 < s.rxLen.toNat) })

/-- Issuing UART_RX_DECODE again over the same capture gives the same results, and the capture and the configuration are unchanged
(R132). -/
def Obligations.RxDecodeIsRepeatable : Prop :=
  ∀ s : State, s.params.legal = true → s.mem.wf = true → s.rxLen.toNat ≤ s.params.rxDepth →
    ∃ t u, exec .uartRxDecode s = .next t ∧ exec .uartRxDecode t = .next u ∧
      u.rxNbytes = t.rxNbytes ∧ u.rxNbits = t.rxNbits ∧ u.rxNdrop = t.rxNdrop ∧ u.status = t.status ∧
      (∀ k, k < s.params.rxOutDepth → readEntry u .rxByte k = readEntry t .rxByte k) ∧
      (∀ j, j < s.params.rxDepth → readEntry u .rxSample j = readEntry s .rxSample j) ∧
      u.rxLen = s.rxLen ∧ u.rxSpb = s.rxSpb ∧ u.rxThresh = s.rxThresh

/-! ### The SPI sampler (43_spi.md) -/

/-- SPI_READ (R173, R174, R175) from its first event: byte m is built from draws 8m to 8m + 7 in the configured order, entries from n on
are 0, the reading is of bytes 0 and 1 or 0 with SHORT when n < 2. The draws are whatever levels the environment shows. Every byte
outside SPI_BYTE, and everything else but the pins, the history, the environment's levels, DONE and the phase, is unchanged. -/
def Obligations.SpiReadAssemblesTheDrawnBits : Prop :=
  ∀ (s : State) (n : Nat) (byte : Nat → Nat), s.mem.wf = true → s.spiPos = 0 → s.spiBits = [] → n = s.spiByteCount.toNat →
    (∀ m, byte m = if m < n then
      ∑ i ∈ Finset.range 8, (misoAt s (8 * m + i)).toNat * 2 ^ (if s.spiOrder then i else 7 - i) else 0) →
    ∃ t, exec .spiRead s = .next t ∧
      (∀ m, m < 15 → (readEntry t .spiByte m).toNat = byte m) ∧
      (n < 2 → t.spiReading = 0#12 ∧ t.status.short = true) ∧
      (2 ≤ n → t.spiReading.toNat = 16 * byte 0 + byte 1 / 16 ∧ t.status.short = s.status.short) ∧
      SameBytesOutside (bufAddr .spiByte 0) (bufAddr .spiByte 15) s.mem t.mem ∧
      t = { s with
        mem := t.mem, spiReading := t.spiReading, spiSclk := t.spiSclk, spiCsN := t.spiCsN, history := t.history,
        miso := t.miso, misoDrawn := t.misoDrawn, phase := .idle,
        status := { s.status with done := true, short := t.status.short } }

/-- The transaction of an SPI_READ (R171, R172): chip select falls; for each of the 8n bit periods the clock goes to the active level,
then to the idle level, with the draw after the first edge in modes 0 and 1 and after the second in modes 2 and 3; chip select
rises. The clock ends at its idle level MODE[0] if it moved at all. -/
def Obligations.SpiReadPerformsTheTransaction : Prop :=
  ∀ (s : State) (n : Nat) (idle : Bool), s.spiPos = 0 → s.spiBits = [] → n = s.spiByteCount.toNat →
    idle = s.spiMode.getLsbD 0 →
    ∃ t, exec .spiRead s = .next t ∧
      t.history.map PinEvent.signal = s.history.map PinEvent.signal ++ [PinSignal.csN false] ++
        (List.range (8 * n)).flatMap (fun k =>
          if s.spiMode.getLsbD 1 then [PinSignal.sclk (!idle), .sclk idle, .miso k (misoAt s k)]
          else [PinSignal.sclk (!idle), .miso k (misoAt s k), .sclk idle]) ++ [PinSignal.csN true] ∧
      t.spiCsN = true ∧ t.spiSclk = (if n = 0 then s.spiSclk else idle)

/-- Every sequence of levels can be drawn (R176): an SPI_READ before which the environment lists 8n levels draws exactly those, in
order, and leaves the levels beyond them for the next transaction. How the levels are listed and counted is the model's choice
(log 5). -/
def Obligations.SpiDrawsAreWhateverTheEnvironmentShows : Prop :=
  ∀ (s : State) (n : Nat) (levels : List Bool), s.spiPos = 0 → s.spiBits = [] → n = s.spiByteCount.toNat → levels.length = 8 * n →
    ∃ t, exec .spiRead { s with miso := levels ++ s.miso } = .next t ∧ t.miso = s.miso ∧ t.misoDrawn = s.misoDrawn + 8 * n ∧
      (t.history.drop s.history.length).filterMap
        (fun e => match e.signal with | .csN _ => none | .sclk _ => none | .miso k level => some (k, level)) =
        (List.range (8 * n)).zip levels

/-- The times of a transaction's events (R178), in block clock cycles from the fall of chip select, with P = 2·(DIV + 1): in bit
period k the first edge is at P/2 + k·P and the second P/2 later, each sample is taken in the cycle of its edge, and chip select
rises P/2 after the last edge, 8·n·P + P/2 cycles after it fell. -/
def Obligations.SpiTransactionIsTimedByTheDivider : Prop :=
  ∀ (s : State) (n P : Nat), s.spiPos = 0 → s.spiBits = [] → n = s.spiByteCount.toNat → P = 2 * (s.spiClkdiv.toNat + 1) →
    ∃ t, exec .spiRead s = .next t ∧
      t.history.map PinEvent.cycle = s.history.map PinEvent.cycle ++ [0] ++
        (List.range (8 * n)).flatMap (fun k =>
          if s.spiMode.getLsbD 1 then [P / 2 + k * P, P / 2 + k * P + P / 2, P / 2 + k * P + P / 2]
          else [P / 2 + k * P, P / 2 + k * P, P / 2 + k * P + P / 2]) ++ [8 * n * P + P / 2] ∧
      commandCycles .spiRead s = 8 * n * P + P / 2

/-- Performing a pin event of a running SPI_READ before its completion does not change what the completion gives. R22 places every event
of R172 before the completion; that a completion may come while events remain, and then performs those first, is the model's choice
(DESIGN CHOICE, log 8), and this says that it shows in no result. -/
def Obligations.SpiEventsBeforeTheCompletionChangeNothing : Prop :=
  ∀ s : State, exec .spiRead (spiEventStep s) = exec .spiRead s

/-- SPI_CLKDIV affects timing only (R43): two states that differ in it alone give, under every command, states that differ in it and
in the cycles of recorded events alone. -/
def Obligations.ClockDividerAffectsTimingAlone : Prop :=
  ∀ (i : Instr) (s : State) (d : BitVec 16), ∃ t u, exec i s = .next t ∧ exec i { s with spiClkdiv := d } = .next u ∧
    u = { t with spiClkdiv := d, history := u.history } ∧
    u.history.map PinEvent.signal = t.history.map PinEvent.signal

/-- SPI_ASSEMBLE (R174, R177): the reading of SPI_BYTE[0] and SPI_BYTE[1], or 0 with SHORT when BYTECOUNT < 2; all of memory, the pins, the
history and everything else but DONE and the phase is unchanged. -/
def Obligations.SpiAssembleFormsTheReading : Prop :=
  ∀ s : State, ∃ t, exec .spiAssemble s = .next t ∧
    (s.spiByteCount.toNat < 2 → t.spiReading = 0#12 ∧ t.status.short = true) ∧
    (2 ≤ s.spiByteCount.toNat →
      t.spiReading.toNat = 16 * (readEntry s .spiByte 0).toNat + (readEntry s .spiByte 1).toNat / 16 ∧
      t.status.short = s.status.short) ∧
    t = { s with
      spiReading := t.spiReading, phase := .idle,
      status := { s.status with done := true, short := t.status.short } }

/-! ### Invariants -/

/-- The machine's invariant holds after reset. Two of its clauses rest on the model's choices, the others on the values of R25 and R230:
that memory is canonical, on how the buffers are held (DESIGN CHOICE, log 6); and that the parameters are legal at reset, on
`State.reset` taking R7's defaults (DEDUCED, log 14) and a latency that is free but at least 1 (DESIGN CHOICE, log 4). -/
def Obligations.ResetSatisfiesTheInvariant : Prop := Inv State.reset

/-- Every step keeps memory in its canonical form, the model's choice of how the buffers are held (log 6). -/
def Obligations.StepKeepsMemoryCanonical : Prop :=
  ∀ s t : State, s.mem.wf = true → step s = .next t → t.mem.wf = true

/-- Every step keeps the parameters, and RX_LEN and TX_NBYTES within their depths (R36, R40). -/
def Obligations.StepKeepsLengthsLegal : Prop :=
  ∀ s t : State, LengthsLegal s → step s = .next t → t.params = s.params ∧ LengthsLegal t

/-- Every step keeps the receiver's counts bounded and adding up (R37, R38, R133), and the entries of RX_BYTE beyond RX_NBYTES 0
(R46). -/
def Obligations.StepKeepsReceiverResultsConsistent : Prop :=
  ∀ s t : State, s.mem.wf = true → LengthsLegal s → RxCountsBounded s → RxTailZero s → step s = .next t →
    RxCountsBounded t ∧ RxTailZero t

/-- Every step keeps TX_FRAME whole: frames with start bit 0 and stop bit 1 below TX_NBITS / 10, 0 from there on (R48, R155, R157). -/
def Obligations.StepKeepsTransmitFramesWhole : Prop :=
  ∀ s t : State, s.mem.wf = true → LengthsLegal s → TxFramesWhole s → step s = .next t → TxFramesWhole t

/-- Every step keeps memory holding the buffers' entries and nothing else, each within its width (R45 to R49, R66). -/
def Obligations.StepKeepsOnlyEntriesStored : Prop :=
  ∀ s t : State, s.mem.wf = true → s.params.legal = true → OnlyEntriesStored s → step s = .next t → OnlyEntriesStored t

/-- Every step keeps the pins as specified: `spi_cs_n` = 1 and `spi_sclk` = MODE[0] whenever no SPI_READ runs, and during one what its
events so far give (R51, R52). -/
def Obligations.StepKeepsThePinsAsSpecified : Prop :=
  ∀ s t : State, PinsAsSpecified s → step s = .next t → PinsAsSpecified t

/-- While `rst` stays 1 the block stays in its reset state (R230). That what is no state of the block stays as it is too, but for the
schedule and the data that a read shows, is the model's choice (DESIGN CHOICE, log 10). -/
def Obligations.StepHoldsTheBlockInReset : Prop :=
  ∀ s t : State, HeldInReset s → step s = .next t → HeldInReset t ∧
    (s.rst = true → t.rst = true → t = { s with inputs := t.inputs, rdata := t.rdata })
end

