-- ==== Sys2Proof/Laws/Memory.lean ====
section
/-! SUPPORT. What memory operations do: reading what was written, leaving the rest alone, keeping the canonical form. -/

namespace Sys2Proof.Machine

open Sys2Proof

theorem canonicalFrom_mono {lo lo' : Nat} {m : Memory} (h : lo' ≤ lo) (hm : canonicalFrom lo m = true) :
    canonicalFrom lo' m = true := by
  cases m with
  | nil => rfl
  | cons c t =>
    obtain ⟨a, x⟩ := c
    simp only [canonicalFrom, Bool.and_eq_true, decide_eq_true_eq] at hm ⊢
    exact ⟨⟨by omega, hm.1.2⟩, hm.2⟩

/-- Below its bound a canonical memory lists nothing. -/
theorem readByte_below {lo a : Nat} {m : Memory} (hm : canonicalFrom lo m = true) (h : a < lo) : readByte m a = 0#8 := by
  induction m generalizing lo with
  | nil => rfl
  | cons c t ih =>
    obtain ⟨b, x⟩ := c
    simp only [canonicalFrom, Bool.and_eq_true, decide_eq_true_eq] at hm
    simp only [readByte, if_neg (show ¬ b = a by omega)]
    exact ih hm.2 (by omega)

/-- A byte write leaves every other byte alone, whatever the memory. -/
theorem readByte_writeByte_ne {m : Memory} {a c : Nat} {v : Byte} (h : c ≠ a) :
    readByte (writeByte m a v) c = readByte m c := by
  induction m with
  | nil => by_cases hv : v = unlistedByte <;> simp [writeByte, readByte, hv, Ne.symm h]
  | cons p t ih =>
    obtain ⟨b, x⟩ := p
    simp only [writeByte]
    split
    · split <;> simp [readByte, Ne.symm h]
    · split
      · rename_i hab
        subst hab
        split <;> simp [readByte, Ne.symm h]
      · simp only [readByte, ih]

/-- A byte write to a canonical memory is what a read returns. -/
theorem readByte_writeByte_self {lo : Nat} {m : Memory} {a : Nat} {v : Byte} (hm : canonicalFrom lo m = true) :
    readByte (writeByte m a v) a = v := by
  induction m generalizing lo with
  | nil => by_cases hv : v = unlistedByte <;> simp [writeByte, readByte, hv]
  | cons p t ih =>
    obtain ⟨b, x⟩ := p
    simp only [canonicalFrom, Bool.and_eq_true, decide_eq_true_eq] at hm
    simp only [writeByte]
    split
    · rename_i hab
      split
      · rename_i hv
        rw [hv]
        simp only [readByte, if_neg (show ¬ b = a by omega)]
        exact readByte_below hm.2 (by omega)
      · simp [readByte]
    · split
      · rename_i hab
        subst hab
        split
        · rename_i hv
          rw [hv]
          exact readByte_below hm.2 (Nat.lt_succ_self _)
        · simp [readByte]
      · rename_i hne
        simp only [readByte, if_neg (show ¬ b = a from fun h => hne h.symm)]
        exact ih hm.2

theorem canonicalFrom_writeByte {lo : Nat} {m : Memory} {a : Nat} {v : Byte} (hm : canonicalFrom lo m = true) (h : lo ≤ a) :
    canonicalFrom lo (writeByte m a v) = true := by
  induction m generalizing lo with
  | nil => by_cases hv : v = unlistedByte <;> simp [writeByte, canonicalFrom, hv, h]
  | cons p t ih =>
    obtain ⟨b, x⟩ := p
    have hm' := hm
    simp only [canonicalFrom, Bool.and_eq_true, decide_eq_true_eq] at hm
    simp only [writeByte]
    split
    · split
      · exact hm'
      · rename_i hab hv
        simp [canonicalFrom, h, hv, hm.1.2, hm.2, show a + 1 ≤ b by omega]
    · split
      · rename_i hab
        subst hab
        split
        · exact canonicalFrom_mono (by omega) hm.2
        · rename_i hv
          simp [canonicalFrom, h, hv, hm.2]
      · rename_i h1 h2
        simp only [canonicalFrom, Bool.and_eq_true, decide_eq_true_eq]
        exact ⟨⟨hm.1.1, hm.1.2⟩, ih hm.2 (by omega)⟩

/-- Every byte write keeps the canonical form. -/
theorem wf_writeByte {m : Memory} {a : Nat} {v : Byte} (hm : m.wf = true) : Memory.wf (writeByte m a v) = true :=
  canonicalFrom_writeByte hm (Nat.zero_le _)

/-- Every word write keeps the canonical form. -/
theorem wf_writeWord {m : Memory} {a : Nat} {v : Word} (hm : m.wf = true) : Memory.wf (writeWord m a v) = true :=
  wf_writeByte (wf_writeByte (wf_writeByte (wf_writeByte hm)))

/-- A word write leaves every byte outside its four lanes alone. -/
theorem readByte_writeWord_outside {m : Memory} {a c : Nat} {v : Word} (h : c < a ∨ a + 4 ≤ c) :
    readByte (writeWord m a v) c = readByte m c := by
  unfold writeWord
  rw [readByte_writeByte_ne (by omega), readByte_writeByte_ne (by omega), readByte_writeByte_ne (by omega),
    readByte_writeByte_ne (by omega)]

/-- A word is the four lanes it is split into. -/
theorem wordOfLanes_laneOfWord (v : Word) :
    wordOfLanes (laneOfWord v 0) (laneOfWord v 1) (laneOfWord v 2) (laneOfWord v 3) = v := by
  apply BitVec.eq_of_getLsbD_eq
  intro i hi
  simp only [wordOfLanes, laneOfWord, BitVec.getLsbD_append, BitVec.getLsbD_extractLsb']
  split
  · simp_all
  · split
    · rename_i h1 h2
      simp [h2, show 8 + (i - 8) = i by omega]
    · split
      · rename_i h1 h2 h3
        simp [h3, show 16 + (i - 8 - 8) = i by omega]
      · simp [show i - 8 - 8 - 8 < 8 by omega, show 24 + (i - 8 - 8 - 8) = i by omega]

/-- A word write to a canonical memory is what a read returns. -/
theorem readWord_writeWord_self {m : Memory} {a : Nat} {v : Word} (hm : m.wf = true) :
    readWord (writeWord m a v) a = v := by
  have h1 := wf_writeByte (a := a) (v := laneOfWord v 0) hm
  have h2 := wf_writeByte (a := a + 1) (v := laneOfWord v 1) h1
  have h3 := wf_writeByte (a := a + 2) (v := laneOfWord v 2) h2
  have e0 : readByte (writeWord m a v) a = laneOfWord v 0 := by
    unfold writeWord
    rw [readByte_writeByte_ne (by omega), readByte_writeByte_ne (by omega), readByte_writeByte_ne (by omega),
      readByte_writeByte_self hm]
  have e1 : readByte (writeWord m a v) (a + 1) = laneOfWord v 1 := by
    unfold writeWord
    rw [readByte_writeByte_ne (by omega), readByte_writeByte_ne (by omega), readByte_writeByte_self h1]
  have e2 : readByte (writeWord m a v) (a + 2) = laneOfWord v 2 := by
    unfold writeWord
    rw [readByte_writeByte_ne (by omega), readByte_writeByte_self h2]
  have e3 : readByte (writeWord m a v) (a + 3) = laneOfWord v 3 := by
    unfold writeWord
    rw [readByte_writeByte_self h3]
  rw [readWord, e0, e1, e2, e3, wordOfLanes_laneOfWord]

/-- A word write leaves every word that does not overlap it alone. -/
theorem readWord_writeWord_apart {m : Memory} {a c : Nat} {v : Word} (h : c + 4 ≤ a ∨ a + 4 ≤ c) :
    readWord (writeWord m a v) c = readWord m c := by
  unfold readWord
  rw [readByte_writeWord_outside (by omega), readByte_writeWord_outside (by omega), readByte_writeWord_outside (by omega),
    readByte_writeWord_outside (by omega)]

end Sys2Proof.Machine
end

