-- ==== Sys2Proof/Laws/State.lean ====
section
/-! SUPPORT. One lemma per field per named update of the state, each true by rfl, so that no proof unfolds a record update. -/

namespace Sys2Proof.Machine

open Sys2Proof

/-! setInputs -/

@[simp] theorem setInputs_params (rest : List Input) (s : State) : (setInputs rest s).params = s.params := rfl
@[simp] theorem setInputs_phase (rest : List Input) (s : State) : (setInputs rest s).phase = s.phase := rfl
@[simp] theorem setInputs_status (rest : List Input) (s : State) : (setInputs rest s).status = s.status := rfl
@[simp] theorem setInputs_codecValue (rest : List Input) (s : State) : (setInputs rest s).codecValue = s.codecValue := rfl
@[simp] theorem setInputs_codecMax (rest : List Input) (s : State) : (setInputs rest s).codecMax = s.codecMax := rfl
@[simp] theorem setInputs_codecMin (rest : List Input) (s : State) : (setInputs rest s).codecMin = s.codecMin := rfl
@[simp] theorem setInputs_codecTag (rest : List Input) (s : State) : (setInputs rest s).codecTag = s.codecTag := rfl
@[simp] theorem setInputs_codecFrame (rest : List Input) (s : State) : (setInputs rest s).codecFrame = s.codecFrame := rfl
@[simp] theorem setInputs_codecDecRaw (rest : List Input) (s : State) : (setInputs rest s).codecDecRaw = s.codecDecRaw := rfl
@[simp] theorem setInputs_codecDecTag (rest : List Input) (s : State) : (setInputs rest s).codecDecTag = s.codecDecTag := rfl
@[simp] theorem setInputs_rxSpb (rest : List Input) (s : State) : (setInputs rest s).rxSpb = s.rxSpb := rfl
@[simp] theorem setInputs_rxThresh (rest : List Input) (s : State) : (setInputs rest s).rxThresh = s.rxThresh := rfl
@[simp] theorem setInputs_rxLen (rest : List Input) (s : State) : (setInputs rest s).rxLen = s.rxLen := rfl
@[simp] theorem setInputs_rxNbytes (rest : List Input) (s : State) : (setInputs rest s).rxNbytes = s.rxNbytes := rfl
@[simp] theorem setInputs_rxNbits (rest : List Input) (s : State) : (setInputs rest s).rxNbits = s.rxNbits := rfl
@[simp] theorem setInputs_rxNdrop (rest : List Input) (s : State) : (setInputs rest s).rxNdrop = s.rxNdrop := rfl
@[simp] theorem setInputs_txNbytes (rest : List Input) (s : State) : (setInputs rest s).txNbytes = s.txNbytes := rfl
@[simp] theorem setInputs_txNbits (rest : List Input) (s : State) : (setInputs rest s).txNbits = s.txNbits := rfl
@[simp] theorem setInputs_spiMode (rest : List Input) (s : State) : (setInputs rest s).spiMode = s.spiMode := rfl
@[simp] theorem setInputs_spiOrder (rest : List Input) (s : State) : (setInputs rest s).spiOrder = s.spiOrder := rfl
@[simp] theorem setInputs_spiByteCount (rest : List Input) (s : State) : (setInputs rest s).spiByteCount = s.spiByteCount := rfl
@[simp] theorem setInputs_spiClkdiv (rest : List Input) (s : State) : (setInputs rest s).spiClkdiv = s.spiClkdiv := rfl
@[simp] theorem setInputs_spiReading (rest : List Input) (s : State) : (setInputs rest s).spiReading = s.spiReading := rfl
@[simp] theorem setInputs_mem (rest : List Input) (s : State) : (setInputs rest s).mem = s.mem := rfl
@[simp] theorem setInputs_spiSclk (rest : List Input) (s : State) : (setInputs rest s).spiSclk = s.spiSclk := rfl
@[simp] theorem setInputs_spiCsN (rest : List Input) (s : State) : (setInputs rest s).spiCsN = s.spiCsN := rfl
@[simp] theorem setInputs_spiPos (rest : List Input) (s : State) : (setInputs rest s).spiPos = s.spiPos := rfl
@[simp] theorem setInputs_spiBits (rest : List Input) (s : State) : (setInputs rest s).spiBits = s.spiBits := rfl
@[simp] theorem setInputs_rst (rest : List Input) (s : State) : (setInputs rest s).rst = s.rst := rfl
@[simp] theorem setInputs_inputs (rest : List Input) (s : State) : (setInputs rest s).inputs = rest := rfl
@[simp] theorem setInputs_miso (rest : List Input) (s : State) : (setInputs rest s).miso = s.miso := rfl
@[simp] theorem setInputs_misoDrawn (rest : List Input) (s : State) : (setInputs rest s).misoDrawn = s.misoDrawn := rfl
@[simp] theorem setInputs_history (rest : List Input) (s : State) : (setInputs rest s).history = s.history := rfl
@[simp] theorem setInputs_rdata (rest : List Input) (s : State) : (setInputs rest s).rdata = s.rdata := rfl

/-! issue -/

@[simp] theorem issue_params (op : Instr) (s : State) : (issue op s).params = s.params := rfl
@[simp] theorem issue_phase (op : Instr) (s : State) : (issue op s).phase = .busy op := rfl
@[simp] theorem issue_status (op : Instr) (s : State) : (issue op s).status = s.status := rfl
@[simp] theorem issue_codecValue (op : Instr) (s : State) : (issue op s).codecValue = s.codecValue := rfl
@[simp] theorem issue_codecMax (op : Instr) (s : State) : (issue op s).codecMax = s.codecMax := rfl
@[simp] theorem issue_codecMin (op : Instr) (s : State) : (issue op s).codecMin = s.codecMin := rfl
@[simp] theorem issue_codecTag (op : Instr) (s : State) : (issue op s).codecTag = s.codecTag := rfl
@[simp] theorem issue_codecFrame (op : Instr) (s : State) : (issue op s).codecFrame = s.codecFrame := rfl
@[simp] theorem issue_codecDecRaw (op : Instr) (s : State) : (issue op s).codecDecRaw = s.codecDecRaw := rfl
@[simp] theorem issue_codecDecTag (op : Instr) (s : State) : (issue op s).codecDecTag = s.codecDecTag := rfl
@[simp] theorem issue_rxSpb (op : Instr) (s : State) : (issue op s).rxSpb = s.rxSpb := rfl
@[simp] theorem issue_rxThresh (op : Instr) (s : State) : (issue op s).rxThresh = s.rxThresh := rfl
@[simp] theorem issue_rxLen (op : Instr) (s : State) : (issue op s).rxLen = s.rxLen := rfl
@[simp] theorem issue_rxNbytes (op : Instr) (s : State) : (issue op s).rxNbytes = s.rxNbytes := rfl
@[simp] theorem issue_rxNbits (op : Instr) (s : State) : (issue op s).rxNbits = s.rxNbits := rfl
@[simp] theorem issue_rxNdrop (op : Instr) (s : State) : (issue op s).rxNdrop = s.rxNdrop := rfl
@[simp] theorem issue_txNbytes (op : Instr) (s : State) : (issue op s).txNbytes = s.txNbytes := rfl
@[simp] theorem issue_txNbits (op : Instr) (s : State) : (issue op s).txNbits = s.txNbits := rfl
@[simp] theorem issue_spiMode (op : Instr) (s : State) : (issue op s).spiMode = s.spiMode := rfl
@[simp] theorem issue_spiOrder (op : Instr) (s : State) : (issue op s).spiOrder = s.spiOrder := rfl
@[simp] theorem issue_spiByteCount (op : Instr) (s : State) : (issue op s).spiByteCount = s.spiByteCount := rfl
@[simp] theorem issue_spiClkdiv (op : Instr) (s : State) : (issue op s).spiClkdiv = s.spiClkdiv := rfl
@[simp] theorem issue_spiReading (op : Instr) (s : State) : (issue op s).spiReading = s.spiReading := rfl
@[simp] theorem issue_mem (op : Instr) (s : State) : (issue op s).mem = s.mem := rfl
@[simp] theorem issue_spiSclk (op : Instr) (s : State) : (issue op s).spiSclk = s.spiSclk := rfl
@[simp] theorem issue_spiCsN (op : Instr) (s : State) : (issue op s).spiCsN = s.spiCsN := rfl
@[simp] theorem issue_spiPos (op : Instr) (s : State) : (issue op s).spiPos = 0 := rfl
@[simp] theorem issue_spiBits (op : Instr) (s : State) : (issue op s).spiBits = [] := rfl
@[simp] theorem issue_rst (op : Instr) (s : State) : (issue op s).rst = s.rst := rfl
@[simp] theorem issue_inputs (op : Instr) (s : State) : (issue op s).inputs = s.inputs := rfl
@[simp] theorem issue_miso (op : Instr) (s : State) : (issue op s).miso = s.miso := rfl
@[simp] theorem issue_misoDrawn (op : Instr) (s : State) : (issue op s).misoDrawn = s.misoDrawn := rfl
@[simp] theorem issue_history (op : Instr) (s : State) : (issue op s).history = s.history := rfl
@[simp] theorem issue_rdata (op : Instr) (s : State) : (issue op s).rdata = s.rdata := rfl

/-! releaseReset -/

@[simp] theorem releaseReset_params (s : State) : (releaseReset s).params = s.params := rfl
@[simp] theorem releaseReset_phase (s : State) : (releaseReset s).phase = s.phase := rfl
@[simp] theorem releaseReset_status (s : State) : (releaseReset s).status = s.status := rfl
@[simp] theorem releaseReset_codecValue (s : State) : (releaseReset s).codecValue = s.codecValue := rfl
@[simp] theorem releaseReset_codecMax (s : State) : (releaseReset s).codecMax = s.codecMax := rfl
@[simp] theorem releaseReset_codecMin (s : State) : (releaseReset s).codecMin = s.codecMin := rfl
@[simp] theorem releaseReset_codecTag (s : State) : (releaseReset s).codecTag = s.codecTag := rfl
@[simp] theorem releaseReset_codecFrame (s : State) : (releaseReset s).codecFrame = s.codecFrame := rfl
@[simp] theorem releaseReset_codecDecRaw (s : State) : (releaseReset s).codecDecRaw = s.codecDecRaw := rfl
@[simp] theorem releaseReset_codecDecTag (s : State) : (releaseReset s).codecDecTag = s.codecDecTag := rfl
@[simp] theorem releaseReset_rxSpb (s : State) : (releaseReset s).rxSpb = s.rxSpb := rfl
@[simp] theorem releaseReset_rxThresh (s : State) : (releaseReset s).rxThresh = s.rxThresh := rfl
@[simp] theorem releaseReset_rxLen (s : State) : (releaseReset s).rxLen = s.rxLen := rfl
@[simp] theorem releaseReset_rxNbytes (s : State) : (releaseReset s).rxNbytes = s.rxNbytes := rfl
@[simp] theorem releaseReset_rxNbits (s : State) : (releaseReset s).rxNbits = s.rxNbits := rfl
@[simp] theorem releaseReset_rxNdrop (s : State) : (releaseReset s).rxNdrop = s.rxNdrop := rfl
@[simp] theorem releaseReset_txNbytes (s : State) : (releaseReset s).txNbytes = s.txNbytes := rfl
@[simp] theorem releaseReset_txNbits (s : State) : (releaseReset s).txNbits = s.txNbits := rfl
@[simp] theorem releaseReset_spiMode (s : State) : (releaseReset s).spiMode = s.spiMode := rfl
@[simp] theorem releaseReset_spiOrder (s : State) : (releaseReset s).spiOrder = s.spiOrder := rfl
@[simp] theorem releaseReset_spiByteCount (s : State) : (releaseReset s).spiByteCount = s.spiByteCount := rfl
@[simp] theorem releaseReset_spiClkdiv (s : State) : (releaseReset s).spiClkdiv = s.spiClkdiv := rfl
@[simp] theorem releaseReset_spiReading (s : State) : (releaseReset s).spiReading = s.spiReading := rfl
@[simp] theorem releaseReset_mem (s : State) : (releaseReset s).mem = s.mem := rfl
@[simp] theorem releaseReset_spiSclk (s : State) : (releaseReset s).spiSclk = s.spiSclk := rfl
@[simp] theorem releaseReset_spiCsN (s : State) : (releaseReset s).spiCsN = s.spiCsN := rfl
@[simp] theorem releaseReset_spiPos (s : State) : (releaseReset s).spiPos = s.spiPos := rfl
@[simp] theorem releaseReset_spiBits (s : State) : (releaseReset s).spiBits = s.spiBits := rfl
@[simp] theorem releaseReset_rst (s : State) : (releaseReset s).rst = false := rfl
@[simp] theorem releaseReset_inputs (s : State) : (releaseReset s).inputs = s.inputs := rfl
@[simp] theorem releaseReset_miso (s : State) : (releaseReset s).miso = s.miso := rfl
@[simp] theorem releaseReset_misoDrawn (s : State) : (releaseReset s).misoDrawn = s.misoDrawn := rfl
@[simp] theorem releaseReset_history (s : State) : (releaseReset s).history = s.history := rfl
@[simp] theorem releaseReset_rdata (s : State) : (releaseReset s).rdata = s.rdata := rfl

/-! complete -/

@[simp] theorem complete_params (s : State) : (complete s).params = s.params := rfl
@[simp] theorem complete_phase (s : State) : (complete s).phase = .idle := rfl
@[simp] theorem complete_status (s : State) : (complete s).status = { s.status with done := true } := rfl
@[simp] theorem complete_codecValue (s : State) : (complete s).codecValue = s.codecValue := rfl
@[simp] theorem complete_codecMax (s : State) : (complete s).codecMax = s.codecMax := rfl
@[simp] theorem complete_codecMin (s : State) : (complete s).codecMin = s.codecMin := rfl
@[simp] theorem complete_codecTag (s : State) : (complete s).codecTag = s.codecTag := rfl
@[simp] theorem complete_codecFrame (s : State) : (complete s).codecFrame = s.codecFrame := rfl
@[simp] theorem complete_codecDecRaw (s : State) : (complete s).codecDecRaw = s.codecDecRaw := rfl
@[simp] theorem complete_codecDecTag (s : State) : (complete s).codecDecTag = s.codecDecTag := rfl
@[simp] theorem complete_rxSpb (s : State) : (complete s).rxSpb = s.rxSpb := rfl
@[simp] theorem complete_rxThresh (s : State) : (complete s).rxThresh = s.rxThresh := rfl
@[simp] theorem complete_rxLen (s : State) : (complete s).rxLen = s.rxLen := rfl
@[simp] theorem complete_rxNbytes (s : State) : (complete s).rxNbytes = s.rxNbytes := rfl
@[simp] theorem complete_rxNbits (s : State) : (complete s).rxNbits = s.rxNbits := rfl
@[simp] theorem complete_rxNdrop (s : State) : (complete s).rxNdrop = s.rxNdrop := rfl
@[simp] theorem complete_txNbytes (s : State) : (complete s).txNbytes = s.txNbytes := rfl
@[simp] theorem complete_txNbits (s : State) : (complete s).txNbits = s.txNbits := rfl
@[simp] theorem complete_spiMode (s : State) : (complete s).spiMode = s.spiMode := rfl
@[simp] theorem complete_spiOrder (s : State) : (complete s).spiOrder = s.spiOrder := rfl
@[simp] theorem complete_spiByteCount (s : State) : (complete s).spiByteCount = s.spiByteCount := rfl
@[simp] theorem complete_spiClkdiv (s : State) : (complete s).spiClkdiv = s.spiClkdiv := rfl
@[simp] theorem complete_spiReading (s : State) : (complete s).spiReading = s.spiReading := rfl
@[simp] theorem complete_mem (s : State) : (complete s).mem = s.mem := rfl
@[simp] theorem complete_spiSclk (s : State) : (complete s).spiSclk = s.spiSclk := rfl
@[simp] theorem complete_spiCsN (s : State) : (complete s).spiCsN = s.spiCsN := rfl
@[simp] theorem complete_spiPos (s : State) : (complete s).spiPos = s.spiPos := rfl
@[simp] theorem complete_spiBits (s : State) : (complete s).spiBits = s.spiBits := rfl
@[simp] theorem complete_rst (s : State) : (complete s).rst = s.rst := rfl
@[simp] theorem complete_inputs (s : State) : (complete s).inputs = s.inputs := rfl
@[simp] theorem complete_miso (s : State) : (complete s).miso = s.miso := rfl
@[simp] theorem complete_misoDrawn (s : State) : (complete s).misoDrawn = s.misoDrawn := rfl
@[simp] theorem complete_history (s : State) : (complete s).history = s.history := rfl
@[simp] theorem complete_rdata (s : State) : (complete s).rdata = s.rdata := rfl

/-! clearSpiProgress -/

@[simp] theorem clearSpiProgress_params (s : State) : (clearSpiProgress s).params = s.params := rfl
@[simp] theorem clearSpiProgress_phase (s : State) : (clearSpiProgress s).phase = s.phase := rfl
@[simp] theorem clearSpiProgress_status (s : State) : (clearSpiProgress s).status = s.status := rfl
@[simp] theorem clearSpiProgress_codecValue (s : State) : (clearSpiProgress s).codecValue = s.codecValue := rfl
@[simp] theorem clearSpiProgress_codecMax (s : State) : (clearSpiProgress s).codecMax = s.codecMax := rfl
@[simp] theorem clearSpiProgress_codecMin (s : State) : (clearSpiProgress s).codecMin = s.codecMin := rfl
@[simp] theorem clearSpiProgress_codecTag (s : State) : (clearSpiProgress s).codecTag = s.codecTag := rfl
@[simp] theorem clearSpiProgress_codecFrame (s : State) : (clearSpiProgress s).codecFrame = s.codecFrame := rfl
@[simp] theorem clearSpiProgress_codecDecRaw (s : State) : (clearSpiProgress s).codecDecRaw = s.codecDecRaw := rfl
@[simp] theorem clearSpiProgress_codecDecTag (s : State) : (clearSpiProgress s).codecDecTag = s.codecDecTag := rfl
@[simp] theorem clearSpiProgress_rxSpb (s : State) : (clearSpiProgress s).rxSpb = s.rxSpb := rfl
@[simp] theorem clearSpiProgress_rxThresh (s : State) : (clearSpiProgress s).rxThresh = s.rxThresh := rfl
@[simp] theorem clearSpiProgress_rxLen (s : State) : (clearSpiProgress s).rxLen = s.rxLen := rfl
@[simp] theorem clearSpiProgress_rxNbytes (s : State) : (clearSpiProgress s).rxNbytes = s.rxNbytes := rfl
@[simp] theorem clearSpiProgress_rxNbits (s : State) : (clearSpiProgress s).rxNbits = s.rxNbits := rfl
@[simp] theorem clearSpiProgress_rxNdrop (s : State) : (clearSpiProgress s).rxNdrop = s.rxNdrop := rfl
@[simp] theorem clearSpiProgress_txNbytes (s : State) : (clearSpiProgress s).txNbytes = s.txNbytes := rfl
@[simp] theorem clearSpiProgress_txNbits (s : State) : (clearSpiProgress s).txNbits = s.txNbits := rfl
@[simp] theorem clearSpiProgress_spiMode (s : State) : (clearSpiProgress s).spiMode = s.spiMode := rfl
@[simp] theorem clearSpiProgress_spiOrder (s : State) : (clearSpiProgress s).spiOrder = s.spiOrder := rfl
@[simp] theorem clearSpiProgress_spiByteCount (s : State) : (clearSpiProgress s).spiByteCount = s.spiByteCount := rfl
@[simp] theorem clearSpiProgress_spiClkdiv (s : State) : (clearSpiProgress s).spiClkdiv = s.spiClkdiv := rfl
@[simp] theorem clearSpiProgress_spiReading (s : State) : (clearSpiProgress s).spiReading = s.spiReading := rfl
@[simp] theorem clearSpiProgress_mem (s : State) : (clearSpiProgress s).mem = s.mem := rfl
@[simp] theorem clearSpiProgress_spiSclk (s : State) : (clearSpiProgress s).spiSclk = s.spiSclk := rfl
@[simp] theorem clearSpiProgress_spiCsN (s : State) : (clearSpiProgress s).spiCsN = s.spiCsN := rfl
@[simp] theorem clearSpiProgress_spiPos (s : State) : (clearSpiProgress s).spiPos = 0 := rfl
@[simp] theorem clearSpiProgress_spiBits (s : State) : (clearSpiProgress s).spiBits = [] := rfl
@[simp] theorem clearSpiProgress_rst (s : State) : (clearSpiProgress s).rst = s.rst := rfl
@[simp] theorem clearSpiProgress_inputs (s : State) : (clearSpiProgress s).inputs = s.inputs := rfl
@[simp] theorem clearSpiProgress_miso (s : State) : (clearSpiProgress s).miso = s.miso := rfl
@[simp] theorem clearSpiProgress_misoDrawn (s : State) : (clearSpiProgress s).misoDrawn = s.misoDrawn := rfl
@[simp] theorem clearSpiProgress_history (s : State) : (clearSpiProgress s).history = s.history := rfl
@[simp] theorem clearSpiProgress_rdata (s : State) : (clearSpiProgress s).rdata = s.rdata := rfl

/-! setFrameErr -/

@[simp] theorem setFrameErr_params (c : Bool) (s : State) : (setFrameErr c s).params = s.params := rfl
@[simp] theorem setFrameErr_phase (c : Bool) (s : State) : (setFrameErr c s).phase = s.phase := rfl
@[simp] theorem setFrameErr_status (c : Bool) (s : State) : (setFrameErr c s).status = { s.status with frameErr := s.status.frameErr || c } := rfl
@[simp] theorem setFrameErr_codecValue (c : Bool) (s : State) : (setFrameErr c s).codecValue = s.codecValue := rfl
@[simp] theorem setFrameErr_codecMax (c : Bool) (s : State) : (setFrameErr c s).codecMax = s.codecMax := rfl
@[simp] theorem setFrameErr_codecMin (c : Bool) (s : State) : (setFrameErr c s).codecMin = s.codecMin := rfl
@[simp] theorem setFrameErr_codecTag (c : Bool) (s : State) : (setFrameErr c s).codecTag = s.codecTag := rfl
@[simp] theorem setFrameErr_codecFrame (c : Bool) (s : State) : (setFrameErr c s).codecFrame = s.codecFrame := rfl
@[simp] theorem setFrameErr_codecDecRaw (c : Bool) (s : State) : (setFrameErr c s).codecDecRaw = s.codecDecRaw := rfl
@[simp] theorem setFrameErr_codecDecTag (c : Bool) (s : State) : (setFrameErr c s).codecDecTag = s.codecDecTag := rfl
@[simp] theorem setFrameErr_rxSpb (c : Bool) (s : State) : (setFrameErr c s).rxSpb = s.rxSpb := rfl
@[simp] theorem setFrameErr_rxThresh (c : Bool) (s : State) : (setFrameErr c s).rxThresh = s.rxThresh := rfl
@[simp] theorem setFrameErr_rxLen (c : Bool) (s : State) : (setFrameErr c s).rxLen = s.rxLen := rfl
@[simp] theorem setFrameErr_rxNbytes (c : Bool) (s : State) : (setFrameErr c s).rxNbytes = s.rxNbytes := rfl
@[simp] theorem setFrameErr_rxNbits (c : Bool) (s : State) : (setFrameErr c s).rxNbits = s.rxNbits := rfl
@[simp] theorem setFrameErr_rxNdrop (c : Bool) (s : State) : (setFrameErr c s).rxNdrop = s.rxNdrop := rfl
@[simp] theorem setFrameErr_txNbytes (c : Bool) (s : State) : (setFrameErr c s).txNbytes = s.txNbytes := rfl
@[simp] theorem setFrameErr_txNbits (c : Bool) (s : State) : (setFrameErr c s).txNbits = s.txNbits := rfl
@[simp] theorem setFrameErr_spiMode (c : Bool) (s : State) : (setFrameErr c s).spiMode = s.spiMode := rfl
@[simp] theorem setFrameErr_spiOrder (c : Bool) (s : State) : (setFrameErr c s).spiOrder = s.spiOrder := rfl
@[simp] theorem setFrameErr_spiByteCount (c : Bool) (s : State) : (setFrameErr c s).spiByteCount = s.spiByteCount := rfl
@[simp] theorem setFrameErr_spiClkdiv (c : Bool) (s : State) : (setFrameErr c s).spiClkdiv = s.spiClkdiv := rfl
@[simp] theorem setFrameErr_spiReading (c : Bool) (s : State) : (setFrameErr c s).spiReading = s.spiReading := rfl
@[simp] theorem setFrameErr_mem (c : Bool) (s : State) : (setFrameErr c s).mem = s.mem := rfl
@[simp] theorem setFrameErr_spiSclk (c : Bool) (s : State) : (setFrameErr c s).spiSclk = s.spiSclk := rfl
@[simp] theorem setFrameErr_spiCsN (c : Bool) (s : State) : (setFrameErr c s).spiCsN = s.spiCsN := rfl
@[simp] theorem setFrameErr_spiPos (c : Bool) (s : State) : (setFrameErr c s).spiPos = s.spiPos := rfl
@[simp] theorem setFrameErr_spiBits (c : Bool) (s : State) : (setFrameErr c s).spiBits = s.spiBits := rfl
@[simp] theorem setFrameErr_rst (c : Bool) (s : State) : (setFrameErr c s).rst = s.rst := rfl
@[simp] theorem setFrameErr_inputs (c : Bool) (s : State) : (setFrameErr c s).inputs = s.inputs := rfl
@[simp] theorem setFrameErr_miso (c : Bool) (s : State) : (setFrameErr c s).miso = s.miso := rfl
@[simp] theorem setFrameErr_misoDrawn (c : Bool) (s : State) : (setFrameErr c s).misoDrawn = s.misoDrawn := rfl
@[simp] theorem setFrameErr_history (c : Bool) (s : State) : (setFrameErr c s).history = s.history := rfl
@[simp] theorem setFrameErr_rdata (c : Bool) (s : State) : (setFrameErr c s).rdata = s.rdata := rfl

/-! setShort -/

@[simp] theorem setShort_params (c : Bool) (s : State) : (setShort c s).params = s.params := rfl
@[simp] theorem setShort_phase (c : Bool) (s : State) : (setShort c s).phase = s.phase := rfl
@[simp] theorem setShort_status (c : Bool) (s : State) : (setShort c s).status = { s.status with short := s.status.short || c } := rfl
@[simp] theorem setShort_codecValue (c : Bool) (s : State) : (setShort c s).codecValue = s.codecValue := rfl
@[simp] theorem setShort_codecMax (c : Bool) (s : State) : (setShort c s).codecMax = s.codecMax := rfl
@[simp] theorem setShort_codecMin (c : Bool) (s : State) : (setShort c s).codecMin = s.codecMin := rfl
@[simp] theorem setShort_codecTag (c : Bool) (s : State) : (setShort c s).codecTag = s.codecTag := rfl
@[simp] theorem setShort_codecFrame (c : Bool) (s : State) : (setShort c s).codecFrame = s.codecFrame := rfl
@[simp] theorem setShort_codecDecRaw (c : Bool) (s : State) : (setShort c s).codecDecRaw = s.codecDecRaw := rfl
@[simp] theorem setShort_codecDecTag (c : Bool) (s : State) : (setShort c s).codecDecTag = s.codecDecTag := rfl
@[simp] theorem setShort_rxSpb (c : Bool) (s : State) : (setShort c s).rxSpb = s.rxSpb := rfl
@[simp] theorem setShort_rxThresh (c : Bool) (s : State) : (setShort c s).rxThresh = s.rxThresh := rfl
@[simp] theorem setShort_rxLen (c : Bool) (s : State) : (setShort c s).rxLen = s.rxLen := rfl
@[simp] theorem setShort_rxNbytes (c : Bool) (s : State) : (setShort c s).rxNbytes = s.rxNbytes := rfl
@[simp] theorem setShort_rxNbits (c : Bool) (s : State) : (setShort c s).rxNbits = s.rxNbits := rfl
@[simp] theorem setShort_rxNdrop (c : Bool) (s : State) : (setShort c s).rxNdrop = s.rxNdrop := rfl
@[simp] theorem setShort_txNbytes (c : Bool) (s : State) : (setShort c s).txNbytes = s.txNbytes := rfl
@[simp] theorem setShort_txNbits (c : Bool) (s : State) : (setShort c s).txNbits = s.txNbits := rfl
@[simp] theorem setShort_spiMode (c : Bool) (s : State) : (setShort c s).spiMode = s.spiMode := rfl
@[simp] theorem setShort_spiOrder (c : Bool) (s : State) : (setShort c s).spiOrder = s.spiOrder := rfl
@[simp] theorem setShort_spiByteCount (c : Bool) (s : State) : (setShort c s).spiByteCount = s.spiByteCount := rfl
@[simp] theorem setShort_spiClkdiv (c : Bool) (s : State) : (setShort c s).spiClkdiv = s.spiClkdiv := rfl
@[simp] theorem setShort_spiReading (c : Bool) (s : State) : (setShort c s).spiReading = s.spiReading := rfl
@[simp] theorem setShort_mem (c : Bool) (s : State) : (setShort c s).mem = s.mem := rfl
@[simp] theorem setShort_spiSclk (c : Bool) (s : State) : (setShort c s).spiSclk = s.spiSclk := rfl
@[simp] theorem setShort_spiCsN (c : Bool) (s : State) : (setShort c s).spiCsN = s.spiCsN := rfl
@[simp] theorem setShort_spiPos (c : Bool) (s : State) : (setShort c s).spiPos = s.spiPos := rfl
@[simp] theorem setShort_spiBits (c : Bool) (s : State) : (setShort c s).spiBits = s.spiBits := rfl
@[simp] theorem setShort_rst (c : Bool) (s : State) : (setShort c s).rst = s.rst := rfl
@[simp] theorem setShort_inputs (c : Bool) (s : State) : (setShort c s).inputs = s.inputs := rfl
@[simp] theorem setShort_miso (c : Bool) (s : State) : (setShort c s).miso = s.miso := rfl
@[simp] theorem setShort_misoDrawn (c : Bool) (s : State) : (setShort c s).misoDrawn = s.misoDrawn := rfl
@[simp] theorem setShort_history (c : Bool) (s : State) : (setShort c s).history = s.history := rfl
@[simp] theorem setShort_rdata (c : Bool) (s : State) : (setShort c s).rdata = s.rdata := rfl

/-! setCodecErr -/

@[simp] theorem setCodecErr_params (c : Bool) (s : State) : (setCodecErr c s).params = s.params := rfl
@[simp] theorem setCodecErr_phase (c : Bool) (s : State) : (setCodecErr c s).phase = s.phase := rfl
@[simp] theorem setCodecErr_status (c : Bool) (s : State) : (setCodecErr c s).status = { s.status with codecErr := s.status.codecErr || c } := rfl
@[simp] theorem setCodecErr_codecValue (c : Bool) (s : State) : (setCodecErr c s).codecValue = s.codecValue := rfl
@[simp] theorem setCodecErr_codecMax (c : Bool) (s : State) : (setCodecErr c s).codecMax = s.codecMax := rfl
@[simp] theorem setCodecErr_codecMin (c : Bool) (s : State) : (setCodecErr c s).codecMin = s.codecMin := rfl
@[simp] theorem setCodecErr_codecTag (c : Bool) (s : State) : (setCodecErr c s).codecTag = s.codecTag := rfl
@[simp] theorem setCodecErr_codecFrame (c : Bool) (s : State) : (setCodecErr c s).codecFrame = s.codecFrame := rfl
@[simp] theorem setCodecErr_codecDecRaw (c : Bool) (s : State) : (setCodecErr c s).codecDecRaw = s.codecDecRaw := rfl
@[simp] theorem setCodecErr_codecDecTag (c : Bool) (s : State) : (setCodecErr c s).codecDecTag = s.codecDecTag := rfl
@[simp] theorem setCodecErr_rxSpb (c : Bool) (s : State) : (setCodecErr c s).rxSpb = s.rxSpb := rfl
@[simp] theorem setCodecErr_rxThresh (c : Bool) (s : State) : (setCodecErr c s).rxThresh = s.rxThresh := rfl
@[simp] theorem setCodecErr_rxLen (c : Bool) (s : State) : (setCodecErr c s).rxLen = s.rxLen := rfl
@[simp] theorem setCodecErr_rxNbytes (c : Bool) (s : State) : (setCodecErr c s).rxNbytes = s.rxNbytes := rfl
@[simp] theorem setCodecErr_rxNbits (c : Bool) (s : State) : (setCodecErr c s).rxNbits = s.rxNbits := rfl
@[simp] theorem setCodecErr_rxNdrop (c : Bool) (s : State) : (setCodecErr c s).rxNdrop = s.rxNdrop := rfl
@[simp] theorem setCodecErr_txNbytes (c : Bool) (s : State) : (setCodecErr c s).txNbytes = s.txNbytes := rfl
@[simp] theorem setCodecErr_txNbits (c : Bool) (s : State) : (setCodecErr c s).txNbits = s.txNbits := rfl
@[simp] theorem setCodecErr_spiMode (c : Bool) (s : State) : (setCodecErr c s).spiMode = s.spiMode := rfl
@[simp] theorem setCodecErr_spiOrder (c : Bool) (s : State) : (setCodecErr c s).spiOrder = s.spiOrder := rfl
@[simp] theorem setCodecErr_spiByteCount (c : Bool) (s : State) : (setCodecErr c s).spiByteCount = s.spiByteCount := rfl
@[simp] theorem setCodecErr_spiClkdiv (c : Bool) (s : State) : (setCodecErr c s).spiClkdiv = s.spiClkdiv := rfl
@[simp] theorem setCodecErr_spiReading (c : Bool) (s : State) : (setCodecErr c s).spiReading = s.spiReading := rfl
@[simp] theorem setCodecErr_mem (c : Bool) (s : State) : (setCodecErr c s).mem = s.mem := rfl
@[simp] theorem setCodecErr_spiSclk (c : Bool) (s : State) : (setCodecErr c s).spiSclk = s.spiSclk := rfl
@[simp] theorem setCodecErr_spiCsN (c : Bool) (s : State) : (setCodecErr c s).spiCsN = s.spiCsN := rfl
@[simp] theorem setCodecErr_spiPos (c : Bool) (s : State) : (setCodecErr c s).spiPos = s.spiPos := rfl
@[simp] theorem setCodecErr_spiBits (c : Bool) (s : State) : (setCodecErr c s).spiBits = s.spiBits := rfl
@[simp] theorem setCodecErr_rst (c : Bool) (s : State) : (setCodecErr c s).rst = s.rst := rfl
@[simp] theorem setCodecErr_inputs (c : Bool) (s : State) : (setCodecErr c s).inputs = s.inputs := rfl
@[simp] theorem setCodecErr_miso (c : Bool) (s : State) : (setCodecErr c s).miso = s.miso := rfl
@[simp] theorem setCodecErr_misoDrawn (c : Bool) (s : State) : (setCodecErr c s).misoDrawn = s.misoDrawn := rfl
@[simp] theorem setCodecErr_history (c : Bool) (s : State) : (setCodecErr c s).history = s.history := rfl
@[simp] theorem setCodecErr_rdata (c : Bool) (s : State) : (setCodecErr c s).rdata = s.rdata := rfl

/-! setCfgErr -/

@[simp] theorem setCfgErr_params (c : Bool) (s : State) : (setCfgErr c s).params = s.params := rfl
@[simp] theorem setCfgErr_phase (c : Bool) (s : State) : (setCfgErr c s).phase = s.phase := rfl
@[simp] theorem setCfgErr_status (c : Bool) (s : State) : (setCfgErr c s).status = { s.status with cfgErr := s.status.cfgErr || c } := rfl
@[simp] theorem setCfgErr_codecValue (c : Bool) (s : State) : (setCfgErr c s).codecValue = s.codecValue := rfl
@[simp] theorem setCfgErr_codecMax (c : Bool) (s : State) : (setCfgErr c s).codecMax = s.codecMax := rfl
@[simp] theorem setCfgErr_codecMin (c : Bool) (s : State) : (setCfgErr c s).codecMin = s.codecMin := rfl
@[simp] theorem setCfgErr_codecTag (c : Bool) (s : State) : (setCfgErr c s).codecTag = s.codecTag := rfl
@[simp] theorem setCfgErr_codecFrame (c : Bool) (s : State) : (setCfgErr c s).codecFrame = s.codecFrame := rfl
@[simp] theorem setCfgErr_codecDecRaw (c : Bool) (s : State) : (setCfgErr c s).codecDecRaw = s.codecDecRaw := rfl
@[simp] theorem setCfgErr_codecDecTag (c : Bool) (s : State) : (setCfgErr c s).codecDecTag = s.codecDecTag := rfl
@[simp] theorem setCfgErr_rxSpb (c : Bool) (s : State) : (setCfgErr c s).rxSpb = s.rxSpb := rfl
@[simp] theorem setCfgErr_rxThresh (c : Bool) (s : State) : (setCfgErr c s).rxThresh = s.rxThresh := rfl
@[simp] theorem setCfgErr_rxLen (c : Bool) (s : State) : (setCfgErr c s).rxLen = s.rxLen := rfl
@[simp] theorem setCfgErr_rxNbytes (c : Bool) (s : State) : (setCfgErr c s).rxNbytes = s.rxNbytes := rfl
@[simp] theorem setCfgErr_rxNbits (c : Bool) (s : State) : (setCfgErr c s).rxNbits = s.rxNbits := rfl
@[simp] theorem setCfgErr_rxNdrop (c : Bool) (s : State) : (setCfgErr c s).rxNdrop = s.rxNdrop := rfl
@[simp] theorem setCfgErr_txNbytes (c : Bool) (s : State) : (setCfgErr c s).txNbytes = s.txNbytes := rfl
@[simp] theorem setCfgErr_txNbits (c : Bool) (s : State) : (setCfgErr c s).txNbits = s.txNbits := rfl
@[simp] theorem setCfgErr_spiMode (c : Bool) (s : State) : (setCfgErr c s).spiMode = s.spiMode := rfl
@[simp] theorem setCfgErr_spiOrder (c : Bool) (s : State) : (setCfgErr c s).spiOrder = s.spiOrder := rfl
@[simp] theorem setCfgErr_spiByteCount (c : Bool) (s : State) : (setCfgErr c s).spiByteCount = s.spiByteCount := rfl
@[simp] theorem setCfgErr_spiClkdiv (c : Bool) (s : State) : (setCfgErr c s).spiClkdiv = s.spiClkdiv := rfl
@[simp] theorem setCfgErr_spiReading (c : Bool) (s : State) : (setCfgErr c s).spiReading = s.spiReading := rfl
@[simp] theorem setCfgErr_mem (c : Bool) (s : State) : (setCfgErr c s).mem = s.mem := rfl
@[simp] theorem setCfgErr_spiSclk (c : Bool) (s : State) : (setCfgErr c s).spiSclk = s.spiSclk := rfl
@[simp] theorem setCfgErr_spiCsN (c : Bool) (s : State) : (setCfgErr c s).spiCsN = s.spiCsN := rfl
@[simp] theorem setCfgErr_spiPos (c : Bool) (s : State) : (setCfgErr c s).spiPos = s.spiPos := rfl
@[simp] theorem setCfgErr_spiBits (c : Bool) (s : State) : (setCfgErr c s).spiBits = s.spiBits := rfl
@[simp] theorem setCfgErr_rst (c : Bool) (s : State) : (setCfgErr c s).rst = s.rst := rfl
@[simp] theorem setCfgErr_inputs (c : Bool) (s : State) : (setCfgErr c s).inputs = s.inputs := rfl
@[simp] theorem setCfgErr_miso (c : Bool) (s : State) : (setCfgErr c s).miso = s.miso := rfl
@[simp] theorem setCfgErr_misoDrawn (c : Bool) (s : State) : (setCfgErr c s).misoDrawn = s.misoDrawn := rfl
@[simp] theorem setCfgErr_history (c : Bool) (s : State) : (setCfgErr c s).history = s.history := rfl
@[simp] theorem setCfgErr_rdata (c : Bool) (s : State) : (setCfgErr c s).rdata = s.rdata := rfl

/-! setCmdRej -/

@[simp] theorem setCmdRej_params (s : State) : (setCmdRej s).params = s.params := rfl
@[simp] theorem setCmdRej_phase (s : State) : (setCmdRej s).phase = s.phase := rfl
@[simp] theorem setCmdRej_status (s : State) : (setCmdRej s).status = { s.status with cmdRej := true } := rfl
@[simp] theorem setCmdRej_codecValue (s : State) : (setCmdRej s).codecValue = s.codecValue := rfl
@[simp] theorem setCmdRej_codecMax (s : State) : (setCmdRej s).codecMax = s.codecMax := rfl
@[simp] theorem setCmdRej_codecMin (s : State) : (setCmdRej s).codecMin = s.codecMin := rfl
@[simp] theorem setCmdRej_codecTag (s : State) : (setCmdRej s).codecTag = s.codecTag := rfl
@[simp] theorem setCmdRej_codecFrame (s : State) : (setCmdRej s).codecFrame = s.codecFrame := rfl
@[simp] theorem setCmdRej_codecDecRaw (s : State) : (setCmdRej s).codecDecRaw = s.codecDecRaw := rfl
@[simp] theorem setCmdRej_codecDecTag (s : State) : (setCmdRej s).codecDecTag = s.codecDecTag := rfl
@[simp] theorem setCmdRej_rxSpb (s : State) : (setCmdRej s).rxSpb = s.rxSpb := rfl
@[simp] theorem setCmdRej_rxThresh (s : State) : (setCmdRej s).rxThresh = s.rxThresh := rfl
@[simp] theorem setCmdRej_rxLen (s : State) : (setCmdRej s).rxLen = s.rxLen := rfl
@[simp] theorem setCmdRej_rxNbytes (s : State) : (setCmdRej s).rxNbytes = s.rxNbytes := rfl
@[simp] theorem setCmdRej_rxNbits (s : State) : (setCmdRej s).rxNbits = s.rxNbits := rfl
@[simp] theorem setCmdRej_rxNdrop (s : State) : (setCmdRej s).rxNdrop = s.rxNdrop := rfl
@[simp] theorem setCmdRej_txNbytes (s : State) : (setCmdRej s).txNbytes = s.txNbytes := rfl
@[simp] theorem setCmdRej_txNbits (s : State) : (setCmdRej s).txNbits = s.txNbits := rfl
@[simp] theorem setCmdRej_spiMode (s : State) : (setCmdRej s).spiMode = s.spiMode := rfl
@[simp] theorem setCmdRej_spiOrder (s : State) : (setCmdRej s).spiOrder = s.spiOrder := rfl
@[simp] theorem setCmdRej_spiByteCount (s : State) : (setCmdRej s).spiByteCount = s.spiByteCount := rfl
@[simp] theorem setCmdRej_spiClkdiv (s : State) : (setCmdRej s).spiClkdiv = s.spiClkdiv := rfl
@[simp] theorem setCmdRej_spiReading (s : State) : (setCmdRej s).spiReading = s.spiReading := rfl
@[simp] theorem setCmdRej_mem (s : State) : (setCmdRej s).mem = s.mem := rfl
@[simp] theorem setCmdRej_spiSclk (s : State) : (setCmdRej s).spiSclk = s.spiSclk := rfl
@[simp] theorem setCmdRej_spiCsN (s : State) : (setCmdRej s).spiCsN = s.spiCsN := rfl
@[simp] theorem setCmdRej_spiPos (s : State) : (setCmdRej s).spiPos = s.spiPos := rfl
@[simp] theorem setCmdRej_spiBits (s : State) : (setCmdRej s).spiBits = s.spiBits := rfl
@[simp] theorem setCmdRej_rst (s : State) : (setCmdRej s).rst = s.rst := rfl
@[simp] theorem setCmdRej_inputs (s : State) : (setCmdRej s).inputs = s.inputs := rfl
@[simp] theorem setCmdRej_miso (s : State) : (setCmdRej s).miso = s.miso := rfl
@[simp] theorem setCmdRej_misoDrawn (s : State) : (setCmdRej s).misoDrawn = s.misoDrawn := rfl
@[simp] theorem setCmdRej_history (s : State) : (setCmdRej s).history = s.history := rfl
@[simp] theorem setCmdRej_rdata (s : State) : (setCmdRej s).rdata = s.rdata := rfl

/-! writeEntry -/

@[simp] theorem writeEntry_params (s : State) (b : Buf) (i : Nat) (v : Word) : (writeEntry s b i v).params = s.params := rfl
@[simp] theorem writeEntry_phase (s : State) (b : Buf) (i : Nat) (v : Word) : (writeEntry s b i v).phase = s.phase := rfl
@[simp] theorem writeEntry_status (s : State) (b : Buf) (i : Nat) (v : Word) : (writeEntry s b i v).status = s.status := rfl
@[simp] theorem writeEntry_codecValue (s : State) (b : Buf) (i : Nat) (v : Word) : (writeEntry s b i v).codecValue = s.codecValue := rfl
@[simp] theorem writeEntry_codecMax (s : State) (b : Buf) (i : Nat) (v : Word) : (writeEntry s b i v).codecMax = s.codecMax := rfl
@[simp] theorem writeEntry_codecMin (s : State) (b : Buf) (i : Nat) (v : Word) : (writeEntry s b i v).codecMin = s.codecMin := rfl
@[simp] theorem writeEntry_codecTag (s : State) (b : Buf) (i : Nat) (v : Word) : (writeEntry s b i v).codecTag = s.codecTag := rfl
@[simp] theorem writeEntry_codecFrame (s : State) (b : Buf) (i : Nat) (v : Word) : (writeEntry s b i v).codecFrame = s.codecFrame := rfl
@[simp] theorem writeEntry_codecDecRaw (s : State) (b : Buf) (i : Nat) (v : Word) : (writeEntry s b i v).codecDecRaw = s.codecDecRaw := rfl
@[simp] theorem writeEntry_codecDecTag (s : State) (b : Buf) (i : Nat) (v : Word) : (writeEntry s b i v).codecDecTag = s.codecDecTag := rfl
@[simp] theorem writeEntry_rxSpb (s : State) (b : Buf) (i : Nat) (v : Word) : (writeEntry s b i v).rxSpb = s.rxSpb := rfl
@[simp] theorem writeEntry_rxThresh (s : State) (b : Buf) (i : Nat) (v : Word) : (writeEntry s b i v).rxThresh = s.rxThresh := rfl
@[simp] theorem writeEntry_rxLen (s : State) (b : Buf) (i : Nat) (v : Word) : (writeEntry s b i v).rxLen = s.rxLen := rfl
@[simp] theorem writeEntry_rxNbytes (s : State) (b : Buf) (i : Nat) (v : Word) : (writeEntry s b i v).rxNbytes = s.rxNbytes := rfl
@[simp] theorem writeEntry_rxNbits (s : State) (b : Buf) (i : Nat) (v : Word) : (writeEntry s b i v).rxNbits = s.rxNbits := rfl
@[simp] theorem writeEntry_rxNdrop (s : State) (b : Buf) (i : Nat) (v : Word) : (writeEntry s b i v).rxNdrop = s.rxNdrop := rfl
@[simp] theorem writeEntry_txNbytes (s : State) (b : Buf) (i : Nat) (v : Word) : (writeEntry s b i v).txNbytes = s.txNbytes := rfl
@[simp] theorem writeEntry_txNbits (s : State) (b : Buf) (i : Nat) (v : Word) : (writeEntry s b i v).txNbits = s.txNbits := rfl
@[simp] theorem writeEntry_spiMode (s : State) (b : Buf) (i : Nat) (v : Word) : (writeEntry s b i v).spiMode = s.spiMode := rfl
@[simp] theorem writeEntry_spiOrder (s : State) (b : Buf) (i : Nat) (v : Word) : (writeEntry s b i v).spiOrder = s.spiOrder := rfl
@[simp] theorem writeEntry_spiByteCount (s : State) (b : Buf) (i : Nat) (v : Word) : (writeEntry s b i v).spiByteCount = s.spiByteCount := rfl
@[simp] theorem writeEntry_spiClkdiv (s : State) (b : Buf) (i : Nat) (v : Word) : (writeEntry s b i v).spiClkdiv = s.spiClkdiv := rfl
@[simp] theorem writeEntry_spiReading (s : State) (b : Buf) (i : Nat) (v : Word) : (writeEntry s b i v).spiReading = s.spiReading := rfl
@[simp] theorem writeEntry_mem (s : State) (b : Buf) (i : Nat) (v : Word) : (writeEntry s b i v).mem = writeWord s.mem (bufAddr b i) (entryValue (bufWidth s.params b) v) := rfl
@[simp] theorem writeEntry_spiSclk (s : State) (b : Buf) (i : Nat) (v : Word) : (writeEntry s b i v).spiSclk = s.spiSclk := rfl
@[simp] theorem writeEntry_spiCsN (s : State) (b : Buf) (i : Nat) (v : Word) : (writeEntry s b i v).spiCsN = s.spiCsN := rfl
@[simp] theorem writeEntry_spiPos (s : State) (b : Buf) (i : Nat) (v : Word) : (writeEntry s b i v).spiPos = s.spiPos := rfl
@[simp] theorem writeEntry_spiBits (s : State) (b : Buf) (i : Nat) (v : Word) : (writeEntry s b i v).spiBits = s.spiBits := rfl
@[simp] theorem writeEntry_rst (s : State) (b : Buf) (i : Nat) (v : Word) : (writeEntry s b i v).rst = s.rst := rfl
@[simp] theorem writeEntry_inputs (s : State) (b : Buf) (i : Nat) (v : Word) : (writeEntry s b i v).inputs = s.inputs := rfl
@[simp] theorem writeEntry_miso (s : State) (b : Buf) (i : Nat) (v : Word) : (writeEntry s b i v).miso = s.miso := rfl
@[simp] theorem writeEntry_misoDrawn (s : State) (b : Buf) (i : Nat) (v : Word) : (writeEntry s b i v).misoDrawn = s.misoDrawn := rfl
@[simp] theorem writeEntry_history (s : State) (b : Buf) (i : Nat) (v : Word) : (writeEntry s b i v).history = s.history := rfl
@[simp] theorem writeEntry_rdata (s : State) (b : Buf) (i : Nat) (v : Word) : (writeEntry s b i v).rdata = s.rdata := rfl

/-! writeSpiCtrl -/

@[simp] theorem writeSpiCtrl_params (s : State) (v : Word) : (writeSpiCtrl s v).params = s.params := rfl
@[simp] theorem writeSpiCtrl_phase (s : State) (v : Word) : (writeSpiCtrl s v).phase = s.phase := rfl
@[simp] theorem writeSpiCtrl_status (s : State) (v : Word) : (writeSpiCtrl s v).status = s.status := rfl
@[simp] theorem writeSpiCtrl_codecValue (s : State) (v : Word) : (writeSpiCtrl s v).codecValue = s.codecValue := rfl
@[simp] theorem writeSpiCtrl_codecMax (s : State) (v : Word) : (writeSpiCtrl s v).codecMax = s.codecMax := rfl
@[simp] theorem writeSpiCtrl_codecMin (s : State) (v : Word) : (writeSpiCtrl s v).codecMin = s.codecMin := rfl
@[simp] theorem writeSpiCtrl_codecTag (s : State) (v : Word) : (writeSpiCtrl s v).codecTag = s.codecTag := rfl
@[simp] theorem writeSpiCtrl_codecFrame (s : State) (v : Word) : (writeSpiCtrl s v).codecFrame = s.codecFrame := rfl
@[simp] theorem writeSpiCtrl_codecDecRaw (s : State) (v : Word) : (writeSpiCtrl s v).codecDecRaw = s.codecDecRaw := rfl
@[simp] theorem writeSpiCtrl_codecDecTag (s : State) (v : Word) : (writeSpiCtrl s v).codecDecTag = s.codecDecTag := rfl
@[simp] theorem writeSpiCtrl_rxSpb (s : State) (v : Word) : (writeSpiCtrl s v).rxSpb = s.rxSpb := rfl
@[simp] theorem writeSpiCtrl_rxThresh (s : State) (v : Word) : (writeSpiCtrl s v).rxThresh = s.rxThresh := rfl
@[simp] theorem writeSpiCtrl_rxLen (s : State) (v : Word) : (writeSpiCtrl s v).rxLen = s.rxLen := rfl
@[simp] theorem writeSpiCtrl_rxNbytes (s : State) (v : Word) : (writeSpiCtrl s v).rxNbytes = s.rxNbytes := rfl
@[simp] theorem writeSpiCtrl_rxNbits (s : State) (v : Word) : (writeSpiCtrl s v).rxNbits = s.rxNbits := rfl
@[simp] theorem writeSpiCtrl_rxNdrop (s : State) (v : Word) : (writeSpiCtrl s v).rxNdrop = s.rxNdrop := rfl
@[simp] theorem writeSpiCtrl_txNbytes (s : State) (v : Word) : (writeSpiCtrl s v).txNbytes = s.txNbytes := rfl
@[simp] theorem writeSpiCtrl_txNbits (s : State) (v : Word) : (writeSpiCtrl s v).txNbits = s.txNbits := rfl
@[simp] theorem writeSpiCtrl_spiMode (s : State) (v : Word) : (writeSpiCtrl s v).spiMode = v.extractLsb' 0 2 := rfl
@[simp] theorem writeSpiCtrl_spiOrder (s : State) (v : Word) : (writeSpiCtrl s v).spiOrder = v.getLsbD 2 := rfl
@[simp] theorem writeSpiCtrl_spiByteCount (s : State) (v : Word) : (writeSpiCtrl s v).spiByteCount = v.extractLsb' 8 4 := rfl
@[simp] theorem writeSpiCtrl_spiClkdiv (s : State) (v : Word) : (writeSpiCtrl s v).spiClkdiv = s.spiClkdiv := rfl
@[simp] theorem writeSpiCtrl_spiReading (s : State) (v : Word) : (writeSpiCtrl s v).spiReading = s.spiReading := rfl
@[simp] theorem writeSpiCtrl_mem (s : State) (v : Word) : (writeSpiCtrl s v).mem = s.mem := rfl
@[simp] theorem writeSpiCtrl_spiSclk (s : State) (v : Word) : (writeSpiCtrl s v).spiSclk = spiIdleLevel (v.extractLsb' 0 2) := rfl
@[simp] theorem writeSpiCtrl_spiCsN (s : State) (v : Word) : (writeSpiCtrl s v).spiCsN = s.spiCsN := rfl
@[simp] theorem writeSpiCtrl_spiPos (s : State) (v : Word) : (writeSpiCtrl s v).spiPos = s.spiPos := rfl
@[simp] theorem writeSpiCtrl_spiBits (s : State) (v : Word) : (writeSpiCtrl s v).spiBits = s.spiBits := rfl
@[simp] theorem writeSpiCtrl_rst (s : State) (v : Word) : (writeSpiCtrl s v).rst = s.rst := rfl
@[simp] theorem writeSpiCtrl_inputs (s : State) (v : Word) : (writeSpiCtrl s v).inputs = s.inputs := rfl
@[simp] theorem writeSpiCtrl_miso (s : State) (v : Word) : (writeSpiCtrl s v).miso = s.miso := rfl
@[simp] theorem writeSpiCtrl_misoDrawn (s : State) (v : Word) : (writeSpiCtrl s v).misoDrawn = s.misoDrawn := rfl
@[simp] theorem writeSpiCtrl_history (s : State) (v : Word) : (writeSpiCtrl s v).history = s.history := rfl
@[simp] theorem writeSpiCtrl_rdata (s : State) (v : Word) : (writeSpiCtrl s v).rdata = s.rdata := rfl

end Sys2Proof.Machine
end

