-- ==== Sys2Proof/Laws/Buffers.lean ====
section
/-! SUPPORT. What buffer operations do: `writeEntries` and `fillBuffer` said once, and that the buffers lie apart. -/

namespace Sys2Proof.Machine

open Sys2Proof

@[simp] theorem entryValue_toNat (w : Nat) (v : Word) : (entryValue w v).toNat = v.toNat % 2 ^ w := by
  have h : v.toNat % 2 ^ w ≤ v.toNat := Nat.mod_le _ _
  have := v.isLt
  simp only [entryValue, BitVec.toNat_ofNat]
  exact Nat.mod_eq_of_lt (by omega)

@[simp] theorem entryValue_idem (w : Nat) (v : Word) : entryValue w (entryValue w v) = entryValue w v := by
  apply BitVec.eq_of_toNat_eq
  simp

/-- A value that fits the entry is stored whole. -/
theorem entryValue_of_lt {w : Nat} {v : Word} (h : v.toNat < 2 ^ w) : entryValue w v = v := by
  apply BitVec.eq_of_toNat_eq
  simp [Nat.mod_eq_of_lt h]

/-- An entry's value fits its width. -/
theorem readEntry_lt (s : State) (b : Buf) (i : Nat) : (readEntry s b i).toNat < 2 ^ bufWidth s.params b := by
  simp only [readEntry, entryValue_toNat]
  exact Nat.mod_lt _ (Nat.two_pow_pos _)

/-- `writeEntries` changes memory alone. -/
theorem writeEntries_eq (s : State) (b : Buf) (i : Nat) (vs : List Word) :
    writeEntries s b i vs = { s with mem := (writeEntries s b i vs).mem } := by
  induction vs generalizing s i with
  | nil => rfl
  | cons v vs ih =>
    have := ih (writeEntry s b i v) (i + 1)
    simp only [writeEntries]
    rw [this]
    rfl

/-- `fillBuffer` changes memory alone. -/
theorem fillBuffer_eq (s : State) (b : Buf) (f : Nat → Word) :
    fillBuffer s b f = { s with mem := (fillBuffer s b f).mem } :=
  writeEntries_eq s b 0 _

@[simp] theorem writeEntries_params (s : State) (b : Buf) (i : Nat) (vs : List Word) :
    (writeEntries s b i vs).params = s.params := by rw [writeEntries_eq]

@[simp] theorem fillBuffer_params (s : State) (b : Buf) (f : Nat → Word) : (fillBuffer s b f).params = s.params := by
  rw [fillBuffer_eq]

@[simp] theorem fillBuffer_phase (s : State) (b : Buf) (f : Nat → Word) : (fillBuffer s b f).phase = s.phase := by
  rw [fillBuffer_eq]

@[simp] theorem fillBuffer_status (s : State) (b : Buf) (f : Nat → Word) : (fillBuffer s b f).status = s.status := by
  rw [fillBuffer_eq]

@[simp] theorem fillBuffer_codecValue (s : State) (b : Buf) (f : Nat → Word) : (fillBuffer s b f).codecValue = s.codecValue := by
  rw [fillBuffer_eq]

@[simp] theorem fillBuffer_codecMax (s : State) (b : Buf) (f : Nat → Word) : (fillBuffer s b f).codecMax = s.codecMax := by
  rw [fillBuffer_eq]

@[simp] theorem fillBuffer_codecMin (s : State) (b : Buf) (f : Nat → Word) : (fillBuffer s b f).codecMin = s.codecMin := by
  rw [fillBuffer_eq]

@[simp] theorem fillBuffer_codecTag (s : State) (b : Buf) (f : Nat → Word) : (fillBuffer s b f).codecTag = s.codecTag := by
  rw [fillBuffer_eq]

@[simp] theorem fillBuffer_codecFrame (s : State) (b : Buf) (f : Nat → Word) : (fillBuffer s b f).codecFrame = s.codecFrame := by
  rw [fillBuffer_eq]

@[simp] theorem fillBuffer_codecDecRaw (s : State) (b : Buf) (f : Nat → Word) : (fillBuffer s b f).codecDecRaw = s.codecDecRaw := by
  rw [fillBuffer_eq]

@[simp] theorem fillBuffer_codecDecTag (s : State) (b : Buf) (f : Nat → Word) : (fillBuffer s b f).codecDecTag = s.codecDecTag := by
  rw [fillBuffer_eq]

@[simp] theorem fillBuffer_rxSpb (s : State) (b : Buf) (f : Nat → Word) : (fillBuffer s b f).rxSpb = s.rxSpb := by
  rw [fillBuffer_eq]

@[simp] theorem fillBuffer_rxThresh (s : State) (b : Buf) (f : Nat → Word) : (fillBuffer s b f).rxThresh = s.rxThresh := by
  rw [fillBuffer_eq]

@[simp] theorem fillBuffer_rxLen (s : State) (b : Buf) (f : Nat → Word) : (fillBuffer s b f).rxLen = s.rxLen := by
  rw [fillBuffer_eq]

@[simp] theorem fillBuffer_rxNbytes (s : State) (b : Buf) (f : Nat → Word) : (fillBuffer s b f).rxNbytes = s.rxNbytes := by
  rw [fillBuffer_eq]

@[simp] theorem fillBuffer_rxNbits (s : State) (b : Buf) (f : Nat → Word) : (fillBuffer s b f).rxNbits = s.rxNbits := by
  rw [fillBuffer_eq]

@[simp] theorem fillBuffer_rxNdrop (s : State) (b : Buf) (f : Nat → Word) : (fillBuffer s b f).rxNdrop = s.rxNdrop := by
  rw [fillBuffer_eq]

@[simp] theorem fillBuffer_txNbytes (s : State) (b : Buf) (f : Nat → Word) : (fillBuffer s b f).txNbytes = s.txNbytes := by
  rw [fillBuffer_eq]

@[simp] theorem fillBuffer_txNbits (s : State) (b : Buf) (f : Nat → Word) : (fillBuffer s b f).txNbits = s.txNbits := by
  rw [fillBuffer_eq]

@[simp] theorem fillBuffer_spiMode (s : State) (b : Buf) (f : Nat → Word) : (fillBuffer s b f).spiMode = s.spiMode := by
  rw [fillBuffer_eq]

@[simp] theorem fillBuffer_spiOrder (s : State) (b : Buf) (f : Nat → Word) : (fillBuffer s b f).spiOrder = s.spiOrder := by
  rw [fillBuffer_eq]

@[simp] theorem fillBuffer_spiByteCount (s : State) (b : Buf) (f : Nat → Word) : (fillBuffer s b f).spiByteCount = s.spiByteCount := by
  rw [fillBuffer_eq]

@[simp] theorem fillBuffer_spiClkdiv (s : State) (b : Buf) (f : Nat → Word) : (fillBuffer s b f).spiClkdiv = s.spiClkdiv := by
  rw [fillBuffer_eq]

@[simp] theorem fillBuffer_spiReading (s : State) (b : Buf) (f : Nat → Word) : (fillBuffer s b f).spiReading = s.spiReading := by
  rw [fillBuffer_eq]

@[simp] theorem fillBuffer_spiSclk (s : State) (b : Buf) (f : Nat → Word) : (fillBuffer s b f).spiSclk = s.spiSclk := by
  rw [fillBuffer_eq]

@[simp] theorem fillBuffer_spiCsN (s : State) (b : Buf) (f : Nat → Word) : (fillBuffer s b f).spiCsN = s.spiCsN := by
  rw [fillBuffer_eq]

@[simp] theorem fillBuffer_spiPos (s : State) (b : Buf) (f : Nat → Word) : (fillBuffer s b f).spiPos = s.spiPos := by
  rw [fillBuffer_eq]

@[simp] theorem fillBuffer_spiBits (s : State) (b : Buf) (f : Nat → Word) : (fillBuffer s b f).spiBits = s.spiBits := by
  rw [fillBuffer_eq]

@[simp] theorem fillBuffer_rst (s : State) (b : Buf) (f : Nat → Word) : (fillBuffer s b f).rst = s.rst := by
  rw [fillBuffer_eq]

@[simp] theorem fillBuffer_inputs (s : State) (b : Buf) (f : Nat → Word) : (fillBuffer s b f).inputs = s.inputs := by
  rw [fillBuffer_eq]

@[simp] theorem fillBuffer_miso (s : State) (b : Buf) (f : Nat → Word) : (fillBuffer s b f).miso = s.miso := by
  rw [fillBuffer_eq]

@[simp] theorem fillBuffer_misoDrawn (s : State) (b : Buf) (f : Nat → Word) : (fillBuffer s b f).misoDrawn = s.misoDrawn := by
  rw [fillBuffer_eq]

@[simp] theorem fillBuffer_history (s : State) (b : Buf) (f : Nat → Word) : (fillBuffer s b f).history = s.history := by
  rw [fillBuffer_eq]

@[simp] theorem fillBuffer_rdata (s : State) (b : Buf) (f : Nat → Word) : (fillBuffer s b f).rdata = s.rdata := by
  rw [fillBuffer_eq]

theorem wf_writeEntries {s : State} {b : Buf} {i : Nat} {vs : List Word} (h : s.mem.wf = true) :
    (writeEntries s b i vs).mem.wf = true := by
  induction vs generalizing s i with
  | nil => exact h
  | cons v vs ih => exact ih (wf_writeWord h)

theorem wf_fillBuffer {s : State} {b : Buf} {f : Nat → Word} (h : s.mem.wf = true) : (fillBuffer s b f).mem.wf = true :=
  wf_writeEntries h

/-- Bytes outside the entries written are left alone. -/
theorem readByte_writeEntries_outside {s : State} {b : Buf} {i : Nat} {vs : List Word} {a : Nat}
    (h : a < bufAddr b i ∨ bufAddr b (i + vs.length) ≤ a) : readByte (writeEntries s b i vs).mem a = readByte s.mem a := by
  induction vs generalizing s i with
  | nil => rfl
  | cons v vs ih =>
    simp only [writeEntries, List.length_cons] at h ⊢
    rw [ih (by simp only [bufAddr] at h ⊢; omega)]
    exact readByte_writeWord_outside (by simp only [bufAddr] at h ⊢; omega)

/-- The word of each entry after `writeEntries`. -/
theorem readWord_writeEntries {s : State} {b : Buf} {i : Nat} {vs : List Word} {k : Nat} (hw : s.mem.wf = true) :
    readWord (writeEntries s b i vs).mem (bufAddr b k) =
      if h : i ≤ k ∧ k - i < vs.length then entryValue (bufWidth s.params b) vs[k - i]
      else readWord s.mem (bufAddr b k) := by
  induction vs generalizing s i with
  | nil => simp [writeEntries]
  | cons v vs ih =>
    simp only [writeEntries]
    rw [ih (wf_writeWord hw)]
    by_cases hk : k = i
    · subst hk
      simp only [writeEntry_mem, List.length_cons]
      rw [dif_neg (by omega), dif_pos (by omega), readWord_writeWord_self hw]
      simp
    · by_cases hr : i + 1 ≤ k ∧ k - (i + 1) < vs.length
      · rw [dif_pos hr, dif_pos (by simp only [List.length_cons]; omega)]
        simp only [writeEntry_params]
        congr 1
        have : k - i = k - (i + 1) + 1 := by omega
        simp [this]
      · rw [dif_neg hr, dif_neg (by simp only [List.length_cons]; omega)]
        simp only [writeEntry_mem]
        exact readWord_writeWord_apart (by simp only [bufAddr]; omega)

/-- Each entry of a filled buffer reads what the function gives, cut to the entry's width. -/
theorem readWord_fillBuffer {s : State} {b : Buf} {f : Nat → Word} {k : Nat} (hw : s.mem.wf = true)
    (hk : k < bufDepth s.params b) :
    readWord (fillBuffer s b f).mem (bufAddr b k) = entryValue (bufWidth s.params b) (f k) := by
  unfold fillBuffer
  rw [readWord_writeEntries hw, dif_pos (by simpa using hk)]
  simp

theorem readEntry_fillBuffer {s : State} {b : Buf} {f : Nat → Word} {k : Nat} (hw : s.mem.wf = true)
    (hk : k < bufDepth s.params b) : readEntry (fillBuffer s b f) b k = entryValue (bufWidth s.params b) (f k) := by
  simp only [readEntry, fillBuffer_params]
  rw [readWord_fillBuffer hw hk, entryValue_idem]

/-- Bytes outside a filled buffer are left alone. -/
theorem readByte_fillBuffer_outside {s : State} {b : Buf} {f : Nat → Word} {a : Nat}
    (h : a < bufBase b ∨ bufBase b + 4 * bufDepth s.params b ≤ a) :
    readByte (fillBuffer s b f).mem a = readByte s.mem a := by
  unfold fillBuffer
  apply readByte_writeEntries_outside
  simpa [bufAddr] using h

theorem readWord_congr {m m' : Memory} {a : Nat} (h : ∀ c, a ≤ c → c < a + 4 → readByte m' c = readByte m c) :
    readWord m' a = readWord m a := by
  unfold readWord
  rw [h a (by omega) (by omega), h (a + 1) (by omega) (by omega), h (a + 2) (by omega) (by omega),
    h (a + 3) (by omega) (by omega)]

/-- Under legal parameters no buffer reaches the next one's window (20_memory.md R66). -/
theorem bufs_apart {p : Params} (hp : p.legal = true) {b c : Buf} (hbc : b ≠ c) :
    bufBase b + 4 * bufDepth p b ≤ bufBase c ∨ bufBase c + 4 * bufDepth p c ≤ bufBase b := by
  simp only [Params.legal, Bool.and_eq_true, decide_eq_true_eq] at hp
  cases b <;> cases c <;> first
    | exact absurd rfl hbc
    | (simp only [bufBase, bufDepth, Params.rxOutDepth, Config.spiDepth]; omega)

/-- Filling one buffer leaves the entries of every other alone. -/
theorem readWord_fillBuffer_other {s : State} {b c : Buf} {f : Nat → Word} {k : Nat} (hp : s.params.legal = true)
    (hbc : b ≠ c) (hk : k < bufDepth s.params c) :
    readWord (fillBuffer s b f).mem (bufAddr c k) = readWord s.mem (bufAddr c k) := by
  apply readWord_congr
  intro a h1 h2
  apply readByte_fillBuffer_outside
  have := bufs_apart hp hbc
  simp only [bufAddr] at h1 h2
  omega

theorem readEntry_fillBuffer_other {s : State} {b c : Buf} {f : Nat → Word} {k : Nat} (hp : s.params.legal = true)
    (hbc : b ≠ c) (hk : k < bufDepth s.params c) : readEntry (fillBuffer s b f) c k = readEntry s c k := by
  simp only [readEntry, fillBuffer_params]
  rw [readWord_fillBuffer_other hp hbc hk]

end Sys2Proof.Machine
end

