-- ==== Sys2Proof/Laws/Bus.lean ====
section
/-! SUPPORT. The address map said once: where each register and entry is found, and what a found location says of its offset. -/

namespace Sys2Proof.Machine

open Sys2Proof

theorem regOffset_lt (r : Reg) : regOffset r < 0x100 := by cases r <;> decide

theorem regOffset_aligned (r : Reg) : regOffset r % 4 = 0 := by cases r <;> rfl

theorem regOffset_injective {r r' : Reg} (h : regOffset r = regOffset r') : r = r' := by
  cases r <;> cases r' <;> first | rfl | (exact absurd h (by decide))

theorem mem_allRegs (r : Reg) : r ∈ allRegs := by cases r <;> decide

theorem find_regOffset (r : Reg) : allRegs.find? (fun r' => decide (regOffset r' = regOffset r)) = some r := by
  cases r <;> rfl

/-- A register is found at its offset. -/
theorem locate_regOffset (p : Params) (r : Reg) : locate p (regOffset r) = .reg r := by
  unfold locate
  rw [if_pos (regOffset_lt r), find_regOffset]

theorem locate_of_rxSample {p : Params} {off : Nat} (h1 : 0x1000 ≤ off) (h2 : off < 0x2000) :
    locate p off = entryAt p .rxSample off := by
  rw [locate, if_neg (show ¬ off < 0x100 by omega), if_neg (show ¬ off < 0x1000 by omega), if_pos h2]

theorem locate_of_rxByte {p : Params} {off : Nat} (h1 : 0x2000 ≤ off) (h2 : off < 0x3000) :
    locate p off = entryAt p .rxByte off := by
  rw [locate, if_neg (show ¬ off < 0x100 by omega), if_neg (show ¬ off < 0x1000 by omega),
    if_neg (show ¬ off < 0x2000 by omega), if_pos h2]

theorem locate_of_txByte {p : Params} {off : Nat} (h1 : 0x3000 ≤ off) (h2 : off < 0x3400) :
    locate p off = entryAt p .txByte off := by
  rw [locate, if_neg (show ¬ off < 0x100 by omega), if_neg (show ¬ off < 0x1000 by omega),
    if_neg (show ¬ off < 0x2000 by omega), if_neg (show ¬ off < 0x3000 by omega), if_pos h2]

theorem locate_of_txFrame {p : Params} {off : Nat} (h1 : 0x3400 ≤ off) (h2 : off < 0x3800) :
    locate p off = entryAt p .txFrame off := by
  rw [locate, if_neg (show ¬ off < 0x100 by omega), if_neg (show ¬ off < 0x1000 by omega),
    if_neg (show ¬ off < 0x2000 by omega), if_neg (show ¬ off < 0x3000 by omega), if_neg (show ¬ off < 0x3400 by omega),
    if_pos h2]

theorem locate_of_spiByte {p : Params} {off : Nat} (h1 : 0x4000 ≤ off) (h2 : off < 0x4040) :
    locate p off = entryAt p .spiByte off := by
  rw [locate, if_neg (show ¬ off < 0x100 by omega), if_neg (show ¬ off < 0x1000 by omega),
    if_neg (show ¬ off < 0x2000 by omega), if_neg (show ¬ off < 0x3000 by omega), if_neg (show ¬ off < 0x3400 by omega),
    if_neg (show ¬ off < 0x3800 by omega), if_neg (show ¬ off < 0x4000 by omega), if_pos h2]

/-- An entry below its buffer's depth is found at its offset. -/
theorem locate_bufAddr {p : Params} (hp : p.legal = true) {b : Buf} {i : Nat} (hi : i < bufDepth p b) :
    locate p (bufAddr b i) = .entry b i := by
  simp only [Params.legal, Bool.and_eq_true, decide_eq_true_eq] at hp
  have hat : entryAt p b (bufAddr b i) = .entry b i := by
    rw [entryAt, show (bufAddr b i - bufBase b) / 4 = i by simp only [bufAddr]; omega, if_pos hi]
  rw [← hat]
  cases b <;> simp only [bufDepth, Params.rxOutDepth, Config.spiDepth] at hi
  · exact locate_of_rxSample (by simp only [bufAddr, bufBase]; omega) (by simp only [bufAddr, bufBase]; omega)
  · exact locate_of_rxByte (by simp only [bufAddr, bufBase]; omega) (by simp only [bufAddr, bufBase]; omega)
  · exact locate_of_txByte (by simp only [bufAddr, bufBase]; omega) (by simp only [bufAddr, bufBase]; omega)
  · exact locate_of_txFrame (by simp only [bufAddr, bufBase]; omega) (by simp only [bufAddr, bufBase]; omega)
  · exact locate_of_spiByte (by simp only [bufAddr, bufBase]; omega) (by simp only [bufAddr, bufBase]; omega)

/-- What a found entry says of its offset. -/
theorem entryAt_eq {p : Params} {b : Buf} {off : Nat} {loc : Location} (h : entryAt p b off = loc) :
    loc = .unmapped ∨ ∃ i, loc = .entry b i ∧ i < bufDepth p b ∧ i = (off - bufBase b) / 4 := by
  unfold entryAt at h
  split at h
  · exact .inr ⟨_, h.symm, by assumption, rfl⟩
  · exact .inl h.symm

/-- What a location found at an aligned offset says of it. -/
theorem locate_eq {p : Params} {off : Nat} {loc : Location} (ha : off % 4 = 0) (h : locate p off = loc) :
    loc = .unmapped ∨ (∃ r, loc = .reg r ∧ off = regOffset r) ∨
      ∃ b i, loc = .entry b i ∧ i < bufDepth p b ∧ off = bufAddr b i := by
  have key : ∀ {b : Buf}, bufBase b ≤ off → bufBase b % 4 = 0 → entryAt p b off = loc →
      loc = .unmapped ∨ (∃ r, loc = .reg r ∧ off = regOffset r) ∨
        ∃ b i, loc = .entry b i ∧ i < bufDepth p b ∧ off = bufAddr b i := by
    intro b hb h4 he
    rcases entryAt_eq he with hu | ⟨i, hl, hi, hd⟩
    · exact .inl hu
    · exact .inr (.inr ⟨b, i, hl, hi, by simp only [bufAddr]; omega⟩)
  unfold locate at h
  split at h
  · split at h
    · rename_i r hf
      have := List.find?_some hf
      exact .inr (.inl ⟨r, h.symm, (of_decide_eq_true this).symm⟩)
    · exact .inl h.symm
  · split at h
    · exact .inl h.symm
    · split at h
      · exact key (b := .rxSample) (by simp only [bufBase]; omega) rfl h
      · split at h
        · exact key (b := .rxByte) (by simp only [bufBase]; omega) rfl h
        · split at h
          · exact key (b := .txByte) (by simp only [bufBase]; omega) rfl h
          · split at h
            · exact key (b := .txFrame) (by simp only [bufBase]; omega) rfl h
            · split at h
              · exact .inl h.symm
              · split at h
                · exact key (b := .spiByte) (by simp only [bufBase]; omega) rfl h
                · exact .inl h.symm

theorem locationOffset_aligned (p : Params) (a : Nat) : locationOffset p a % 4 = 0 := by
  unfold locationOffset
  omega

/-- An address up to three above an aligned offset of the window selects that offset. -/
theorem locationOffset_of {p : Params} {a off : Nat} (h4 : off % 4 = 0) (h : off < 0x10000) (h1 : p.base + off ≤ a)
    (h2 : a < p.base + off + 4) : locationOffset p a = off := by
  unfold locationOffset
  omega

theorem inWindow_iff {p : Params} {a : Nat} : inWindow p a = true ↔ p.base ≤ a ∧ a < p.base + 0x10000 := by
  simp [inWindow]

/-- Under legal parameters every entry's offset is within the window, and aligned. -/
theorem bufAddr_lt {p : Params} (hp : p.legal = true) {b : Buf} {i : Nat} (hi : i < bufDepth p b) :
    0x1000 ≤ bufAddr b i ∧ bufAddr b i + 4 ≤ 0x4040 ∧ bufAddr b i % 4 = 0 := by
  simp only [Params.legal, Bool.and_eq_true, decide_eq_true_eq] at hp
  cases b <;>
    simp only [bufDepth, Params.rxOutDepth, Config.spiDepth] at hi <;>
    simp only [bufAddr, bufBase] <;> omega

/-- A host write while IDLE at a register's address is the register's write. -/
theorem hostWrite_reg {s : State} {r : Reg} {a : Nat} {v : Word} (hr : s.rst = false) (hi : s.phase = .idle)
    (h1 : s.params.base + regOffset r ≤ a) (h2 : a < s.params.base + regOffset r + 4) :
    hostWrite s a v = writeReg s v r := by
  have hb := regOffset_lt r
  have hw : inWindow s.params a = true := by rw [inWindow_iff]; omega
  have hl := locationOffset_of (regOffset_aligned r) (by omega) h1 h2
  unfold hostWrite
  simp only [hw, hr, hi, hl, locate_regOffset, Bool.not_false, Bool.and_self, if_true]
  rfl

/-- A host write while IDLE at an entry's address is the entry's write, or nothing where the buffer is RO. -/
theorem hostWrite_entry {s : State} {b : Buf} {i a : Nat} {v : Word} (hp : s.params.legal = true) (hr : s.rst = false)
    (hi : s.phase = .idle) (hd : i < bufDepth s.params b) (h1 : s.params.base + bufAddr b i ≤ a)
    (h2 : a < s.params.base + bufAddr b i + 4) :
    hostWrite s a v = if bufWritable b then writeEntry s b i v else s := by
  have hb := bufAddr_lt hp hd
  have hw : inWindow s.params a = true := by rw [inWindow_iff]; omega
  have hl := locationOffset_of hb.2.2 (by omega) h1 h2
  unfold hostWrite
  simp only [hw, hr, hi, hl, locate_bufAddr hp hd, Bool.not_false, Bool.and_self, if_true]
  rfl

/-- A host write while BUSY inside the window: STATUS is cleared as written, anything else is dropped. -/
theorem hostWrite_busy_eq {s : State} {a : Nat} {v : Word} {op : Instr} (hr : s.rst = false) (hi : s.phase = .busy op)
    (hw : inWindow s.params a = true) :
    hostWrite s a v = if (a - s.params.base) / 4 = 1 then { s with status := clearStatus v s.status } else setCmdRej s := by
  have hin := inWindow_iff.mp hw
  unfold hostWrite
  simp only [hw, hr, hi, Bool.not_false, Bool.and_self, if_true, writeBusy]
  by_cases h : (a - s.params.base) / 4 = 1
  · have hl : locationOffset s.params a = regOffset .status :=
      locationOffset_of rfl (by decide) (by simp only [regOffset]; omega) (by simp only [regOffset]; omega)
    rw [hl, locate_regOffset, if_pos h, if_pos rfl]
  · rw [if_neg h, if_neg]
    intro hl
    rcases locate_eq (locationOffset_aligned s.params a) rfl with h' | ⟨r, h', ho⟩ | ⟨b, i, h', _, _⟩
    · rw [h'] at hl; cases hl
    · rw [h'] at hl
      cases hl
      unfold locationOffset at ho
      simp only [regOffset] at ho
      omega
    · rw [h'] at hl; cases hl

/-- A host read inside the window returns the location's value. -/
theorem hostRead_in {s : State} {a : Nat} (hr : s.rst = false) (hw : inWindow s.params a = true) :
    hostRead s a = { s with rdata := locationWord s (locate s.params (locationOffset s.params a)) } := by
  unfold hostRead
  simp [hw, hr]

/-- What a host write while IDLE can change: a register's write, a writable entry's write, or nothing. -/
theorem hostWrite_idle {s : State} {a : Nat} {v : Word} (hi : s.phase = .idle) :
    hostWrite s a v = s ∨
      (s.rst = false ∧ inWindow s.params a = true ∧
        ((∃ r, locationOffset s.params a = regOffset r ∧ hostWrite s a v = writeReg s v r) ∨
          ∃ b i, i < bufDepth s.params b ∧ bufWritable b = true ∧ locationOffset s.params a = bufAddr b i ∧
            hostWrite s a v = writeEntry s b i v)) := by
  unfold hostWrite
  split
  · rename_i hw
    simp only [Bool.and_eq_true, Bool.not_eq_true'] at hw
    simp only [hi]
    rcases locate_eq (locationOffset_aligned s.params a) rfl with hl | ⟨r, hl, ho⟩ | ⟨b, i, hl, hd, ho⟩
    · left
      rw [hl]
      rfl
    · right
      refine ⟨hw.2, hw.1, .inl ⟨r, ho, ?_⟩⟩
      rw [hl]
      rfl
    · rw [hl]
      simp only [writeIdle]
      split
      · exact .inr ⟨hw.2, hw.1, .inr ⟨b, i, hd, by assumption, ho, rfl⟩⟩
      · exact .inl rfl
  · exact .inl rfl

/-- What a host write while BUSY can change: STATUS alone. -/
theorem hostWrite_busy {s : State} {a : Nat} {v : Word} {op : Instr} (hi : s.phase = .busy op) :
    hostWrite s a v = s ∨
      (s.rst = false ∧ inWindow s.params a = true ∧
        ((locationOffset s.params a = regOffset .status ∧
            hostWrite s a v = { s with status := clearStatus v s.status }) ∨
          hostWrite s a v = setCmdRej s)) := by
  unfold hostWrite
  split
  · rename_i hw
    simp only [Bool.and_eq_true, Bool.not_eq_true'] at hw
    simp only [hi, writeBusy]
    refine .inr ⟨hw.2, hw.1, ?_⟩
    split
    · rename_i hl
      refine .inl ⟨?_, rfl⟩
      rcases locate_eq (locationOffset_aligned s.params a) rfl with h | ⟨r, h, ho⟩ | ⟨b, i, h, _, _⟩
      · rw [h] at hl; cases hl
      · rw [h] at hl; cases hl; exact ho
      · rw [h] at hl; cases hl
    · exact .inr rfl
  · exact .inl rfl

/-- A host read changes the read port alone. -/
theorem hostRead_eq (s : State) (a : Nat) : hostRead s a = { s with rdata := (hostRead s a).rdata } := by
  unfold hostRead
  split <;> rfl

end Sys2Proof.Machine
end

