-- ==== Sys2Proof/Laws/Codec.lean ====
section
/-! SUPPORT. The fields of an encoded frame, and when a codec range is degenerate. -/

namespace Sys2Proof.Machine

open Sys2Proof

theorem append_tag (tag : BitVec 2) (raw : BitVec 6) : (tag ++ raw : BitVec 8).extractLsb' 6 2 = tag := by
  revert tag raw
  decide

theorem append_raw (tag : BitVec 2) (raw : BitVec 6) : (tag ++ raw : BitVec 8).extractLsb' 0 6 = raw := by
  revert tag raw
  decide

/-- Bits 7..6 of a frame are its tag (40_codec.md R101). -/
theorem codecFrameOf_tag (tag : BitVec 2) (raw : Int) : (codecFrameOf tag raw).extractLsb' 6 2 = tag :=
  append_tag tag _

/-- Bits 5..0 of a frame are its code modulo 64 (40_codec.md R101). -/
theorem codecFrameOf_raw (tag : BitVec 2) (raw : Int) : (codecFrameOf tag raw).extractLsb' 0 6 = BitVec.ofInt 6 raw :=
  append_raw tag _

theorem codecRangeDegenerate_iff {s : State} : codecRangeDegenerate s = true ↔ s.codecMax.toInt ≤ s.codecMin.toInt :=
  decide_eq_true_iff

theorem codecRangeDegenerate_eq_false_iff {s : State} :
    codecRangeDegenerate s = false ↔ s.codecMin.toInt < s.codecMax.toInt :=
  decide_eq_false_iff_not.trans Int.not_le

end Sys2Proof.Machine
end

