-- ==== Sys2Proof/Laws/PerInstr.lean ====
section
/-! SUPPORT. Families of statements made per instruction (LAWS.json): one lemma per constructor of Instr. -/

namespace Sys2Proof.Laws.EncodingShape

open Sys2Proof

/-- The instruction is well formed, its word has RSV = 0 and an assigned OP, and no other instruction has its OP (R80, R81). -/
def Statement (i : Instr) : Prop :=
  i.wf = true ∧ rsvIsZero (encode i) = true ∧ opIsAssigned (encode i) = true ∧ opcodeMap (opcodeOf i) = some i

theorem codecEnc : Statement .codecEnc := by unfold Statement; decide

theorem codecDec : Statement .codecDec := by unfold Statement; decide

theorem uartRxDecode : Statement .uartRxDecode := by unfold Statement; decide

theorem uartTxBuild : Statement .uartTxBuild := by unfold Statement; decide

theorem spiRead : Statement .spiRead := by unfold Statement; decide

theorem spiAssemble : Statement .spiAssemble := by unfold Statement; decide

end Sys2Proof.Laws.EncodingShape
end

