-- ==== Sys2Proof/Laws/Rx.lean ====
section
/-! SUPPORT. The receiver's shared functions: lengths, monotonicity, and what writing its results does. -/

namespace Sys2Proof.Machine

open Sys2Proof

@[simp] theorem rxBits_length (tieHigh : Bool) (S T : Nat) (xs : List Nat) :
    (rxBits tieHigh S T xs).length = rxGroupCount S xs.length := by
  simp [rxBits]

@[simp] theorem rxSamplesOp_length (s : State) : (rxSamplesOp s).length = rxLenOp s := by
  simp [rxSamplesOp]

theorem rxGroupCount_le (S L : Nat) : rxGroupCount S L ≤ L := by
  have := List.countP_le_length (p := fun i => decide (groupEnd S i ≤ L)) (l := List.range L)
  simpa [rxGroupCount] using this

theorem groupEnd_eq_groupStart (S i : Nat) : groupEnd S i = groupStart S (i + 1) := rfl

theorem groupStart_mono {S i j : Nat} (h : i ≤ j) : groupStart S i ≤ groupStart S j :=
  Nat.div_le_div_right (Nat.mul_le_mul_right S h)

/-- For a ratio of at least 1, group i ends beyond sample i. -/
theorem lt_groupEnd {S : Nat} (h : 0x10000 ≤ S) (i : Nat) : i < groupEnd S i := by
  unfold groupEnd
  rw [Nat.lt_iff_add_one_le, Nat.le_div_iff_mul_le (by decide)]
  exact Nat.mul_le_mul_left (i + 1) h

theorem rxRatioBelowOne_iff {s : State} : rxRatioBelowOne s = true ↔ s.rxSpb.toNat < 0x10000 :=
  decide_eq_true_iff

theorem rxRatioBelowOne_eq_false_iff {s : State} : rxRatioBelowOne s = false ↔ 0x10000 ≤ s.rxSpb.toNat :=
  decide_eq_false_iff_not.trans Nat.not_lt

theorem rxTailDiscarded_iff {S L G : Nat} : rxTailDiscarded S L G = true ↔ G * S / 0x10000 < L ∨ G % 10 ≠ 0 := by
  rw [rxTailDiscarded, Bool.or_eq_true, decide_eq_true_iff, Bool.not_eq_true', decide_eq_false_iff_not]
  rfl

/-- Every complete word is valid or dropped (R133). -/
theorem rxOut_length_add_dropped (bits : List Bool) : (rxOut bits).length + rxDropped bits = bits.length / 10 := by
  have h := List.length_eq_countP_add_countP (wordValid bits) (l := List.range (wordCount bits))
  simp only [List.length_range, wordCount] at h
  simp only [rxOut, rxDropped, List.length_map, wordCount, ← List.countP_eq_length_filter]
  refine Eq.trans ?_ h.symm
  congr 1
  apply List.countP_congr
  intro w _
  simp

/-- Writing a decode's results changes RX_BYTE and the three counts alone. -/
theorem writeRxResults_eq (out : List Byte) (nbits ndrop : Nat) (s : State) :
    writeRxResults out nbits ndrop s =
      { s with
        mem := (writeRxResults out nbits ndrop s).mem
        rxNbytes := BitVec.ofNat 32 out.length
        rxNbits := BitVec.ofNat 32 nbits
        rxNdrop := BitVec.ofNat 32 ndrop } := by
  simp only [writeRxResults]
  rw [fillBuffer_eq]

@[simp] theorem writeRxResults_params (out : List Byte) (nbits ndrop : Nat) (s : State) :
    (writeRxResults out nbits ndrop s).params = s.params := by rw [writeRxResults_eq]

@[simp] theorem writeRxResults_phase (out : List Byte) (nbits ndrop : Nat) (s : State) :
    (writeRxResults out nbits ndrop s).phase = s.phase := by rw [writeRxResults_eq]

@[simp] theorem writeRxResults_status (out : List Byte) (nbits ndrop : Nat) (s : State) :
    (writeRxResults out nbits ndrop s).status = s.status := by rw [writeRxResults_eq]

@[simp] theorem writeRxResults_codecValue (out : List Byte) (nbits ndrop : Nat) (s : State) :
    (writeRxResults out nbits ndrop s).codecValue = s.codecValue := by rw [writeRxResults_eq]

@[simp] theorem writeRxResults_codecMax (out : List Byte) (nbits ndrop : Nat) (s : State) :
    (writeRxResults out nbits ndrop s).codecMax = s.codecMax := by rw [writeRxResults_eq]

@[simp] theorem writeRxResults_codecMin (out : List Byte) (nbits ndrop : Nat) (s : State) :
    (writeRxResults out nbits ndrop s).codecMin = s.codecMin := by rw [writeRxResults_eq]

@[simp] theorem writeRxResults_codecTag (out : List Byte) (nbits ndrop : Nat) (s : State) :
    (writeRxResults out nbits ndrop s).codecTag = s.codecTag := by rw [writeRxResults_eq]

@[simp] theorem writeRxResults_codecFrame (out : List Byte) (nbits ndrop : Nat) (s : State) :
    (writeRxResults out nbits ndrop s).codecFrame = s.codecFrame := by rw [writeRxResults_eq]

@[simp] theorem writeRxResults_codecDecRaw (out : List Byte) (nbits ndrop : Nat) (s : State) :
    (writeRxResults out nbits ndrop s).codecDecRaw = s.codecDecRaw := by rw [writeRxResults_eq]

@[simp] theorem writeRxResults_codecDecTag (out : List Byte) (nbits ndrop : Nat) (s : State) :
    (writeRxResults out nbits ndrop s).codecDecTag = s.codecDecTag := by rw [writeRxResults_eq]

@[simp] theorem writeRxResults_rxSpb (out : List Byte) (nbits ndrop : Nat) (s : State) :
    (writeRxResults out nbits ndrop s).rxSpb = s.rxSpb := by rw [writeRxResults_eq]

@[simp] theorem writeRxResults_rxThresh (out : List Byte) (nbits ndrop : Nat) (s : State) :
    (writeRxResults out nbits ndrop s).rxThresh = s.rxThresh := by rw [writeRxResults_eq]

@[simp] theorem writeRxResults_rxLen (out : List Byte) (nbits ndrop : Nat) (s : State) :
    (writeRxResults out nbits ndrop s).rxLen = s.rxLen := by rw [writeRxResults_eq]

@[simp] theorem writeRxResults_txNbytes (out : List Byte) (nbits ndrop : Nat) (s : State) :
    (writeRxResults out nbits ndrop s).txNbytes = s.txNbytes := by rw [writeRxResults_eq]

@[simp] theorem writeRxResults_txNbits (out : List Byte) (nbits ndrop : Nat) (s : State) :
    (writeRxResults out nbits ndrop s).txNbits = s.txNbits := by rw [writeRxResults_eq]

@[simp] theorem writeRxResults_spiMode (out : List Byte) (nbits ndrop : Nat) (s : State) :
    (writeRxResults out nbits ndrop s).spiMode = s.spiMode := by rw [writeRxResults_eq]

@[simp] theorem writeRxResults_spiOrder (out : List Byte) (nbits ndrop : Nat) (s : State) :
    (writeRxResults out nbits ndrop s).spiOrder = s.spiOrder := by rw [writeRxResults_eq]

@[simp] theorem writeRxResults_spiByteCount (out : List Byte) (nbits ndrop : Nat) (s : State) :
    (writeRxResults out nbits ndrop s).spiByteCount = s.spiByteCount := by rw [writeRxResults_eq]

@[simp] theorem writeRxResults_spiClkdiv (out : List Byte) (nbits ndrop : Nat) (s : State) :
    (writeRxResults out nbits ndrop s).spiClkdiv = s.spiClkdiv := by rw [writeRxResults_eq]

@[simp] theorem writeRxResults_spiReading (out : List Byte) (nbits ndrop : Nat) (s : State) :
    (writeRxResults out nbits ndrop s).spiReading = s.spiReading := by rw [writeRxResults_eq]

@[simp] theorem writeRxResults_spiSclk (out : List Byte) (nbits ndrop : Nat) (s : State) :
    (writeRxResults out nbits ndrop s).spiSclk = s.spiSclk := by rw [writeRxResults_eq]

@[simp] theorem writeRxResults_spiCsN (out : List Byte) (nbits ndrop : Nat) (s : State) :
    (writeRxResults out nbits ndrop s).spiCsN = s.spiCsN := by rw [writeRxResults_eq]

@[simp] theorem writeRxResults_spiPos (out : List Byte) (nbits ndrop : Nat) (s : State) :
    (writeRxResults out nbits ndrop s).spiPos = s.spiPos := by rw [writeRxResults_eq]

@[simp] theorem writeRxResults_spiBits (out : List Byte) (nbits ndrop : Nat) (s : State) :
    (writeRxResults out nbits ndrop s).spiBits = s.spiBits := by rw [writeRxResults_eq]

@[simp] theorem writeRxResults_rst (out : List Byte) (nbits ndrop : Nat) (s : State) :
    (writeRxResults out nbits ndrop s).rst = s.rst := by rw [writeRxResults_eq]

@[simp] theorem writeRxResults_inputs (out : List Byte) (nbits ndrop : Nat) (s : State) :
    (writeRxResults out nbits ndrop s).inputs = s.inputs := by rw [writeRxResults_eq]

@[simp] theorem writeRxResults_miso (out : List Byte) (nbits ndrop : Nat) (s : State) :
    (writeRxResults out nbits ndrop s).miso = s.miso := by rw [writeRxResults_eq]

@[simp] theorem writeRxResults_misoDrawn (out : List Byte) (nbits ndrop : Nat) (s : State) :
    (writeRxResults out nbits ndrop s).misoDrawn = s.misoDrawn := by rw [writeRxResults_eq]

@[simp] theorem writeRxResults_history (out : List Byte) (nbits ndrop : Nat) (s : State) :
    (writeRxResults out nbits ndrop s).history = s.history := by rw [writeRxResults_eq]

@[simp] theorem writeRxResults_rdata (out : List Byte) (nbits ndrop : Nat) (s : State) :
    (writeRxResults out nbits ndrop s).rdata = s.rdata := by rw [writeRxResults_eq]

@[simp] theorem writeRxResults_rxNbytes (out : List Byte) (nbits ndrop : Nat) (s : State) :
    (writeRxResults out nbits ndrop s).rxNbytes = BitVec.ofNat 32 out.length := rfl

@[simp] theorem writeRxResults_rxNbits (out : List Byte) (nbits ndrop : Nat) (s : State) :
    (writeRxResults out nbits ndrop s).rxNbits = BitVec.ofNat 32 nbits := rfl

@[simp] theorem writeRxResults_rxNdrop (out : List Byte) (nbits ndrop : Nat) (s : State) :
    (writeRxResults out nbits ndrop s).rxNdrop = BitVec.ofNat 32 ndrop := rfl

theorem writeRxResults_mem (out : List Byte) (nbits ndrop : Nat) (s : State) :
    (writeRxResults out nbits ndrop s).mem = (fillBuffer s .rxByte (rxEntryOf out)).mem := rfl

/-- RX_BYTE after writing a decode's results. -/
theorem readEntry_writeRxResults {out : List Byte} {nbits ndrop k : Nat} {s : State} (hw : s.mem.wf = true)
    (hk : k < s.params.rxOutDepth) :
    readEntry (writeRxResults out nbits ndrop s) .rxByte k = (out.getD k 0#8).setWidth 32 := by
  have h : readEntry (writeRxResults out nbits ndrop s) .rxByte k = readEntry (fillBuffer s .rxByte (rxEntryOf out)) .rxByte k :=
    rfl
  rw [h, readEntry_fillBuffer hw hk]
  apply entryValue_of_lt
  rw [rxEntryOf, BitVec.toNat_setWidth]
  have := (out.getD k 0#8).isLt
  simp only [bufWidth]
  omega

end Sys2Proof.Machine
end

