-- ==== Sys2Proof/Laws/Spi.lean ====
section
/-! SUPPORT. What performing a list of SPI events does, said once, and the shape of a transaction. -/

namespace Sys2Proof.Machine

open Sys2Proof

/-- The history entries of a list of events, for a run of MISO levels, from draw `k` as bit `index`. -/
def spiTrace (level : Nat → Bool) (index k : Nat) : List (Nat × SpiOp) → List PinEvent
  | [] => []
  | (c, .csN l) :: t => ⟨c, .csN l⟩ :: spiTrace level index k t
  | (c, .sclk l) :: t => ⟨c, .sclk l⟩ :: spiTrace level index k t
  | (c, .draw) :: t => ⟨c, .miso index (level k)⟩ :: spiTrace level (index + 1) (k + 1) t

theorem spiFrameShort_iff {s : State} : spiFrameShort s = true ↔ s.spiByteCount.toNat < 2 :=
  decide_eq_true_iff

theorem spiFrameShort_eq_false_iff {s : State} : spiFrameShort s = false ↔ 2 ≤ s.spiByteCount.toNat :=
  decide_eq_false_iff_not.trans Nat.not_lt

theorem misoAt_drop (s : State) (j k : Nat) :
    misoAt { s with miso := s.miso.drop j, misoDrawn := s.misoDrawn + j } k = misoAt s (j + k) := by
  simp only [misoAt, List.getD_eq_getElem?_getD, List.getElem?_drop, Nat.add_assoc]

theorem spiTrace_shift {f g : Nat → Bool} {j : Nat} (h : ∀ k, f k = g (j + k)) (index k : Nat) (es : List (Nat × SpiOp)) :
    spiTrace f index k es = spiTrace g index (j + k) es := by
  induction es generalizing index k with
  | nil => rfl
  | cons e es ih =>
    obtain ⟨c, op⟩ := e
    cases op <;> simp only [spiTrace, ih, h, Nat.add_assoc]

/-- Performing a list of events: the pins move as the events say, the draws take the next MISO levels, every event is recorded. -/
theorem foldl_performSpiOp (es : List (Nat × SpiOp)) (s : State) :
    es.foldl performSpiOp s =
      { s with
        spiCsN := (pinsAfter (s.spiCsN, s.spiSclk) es).1
        spiSclk := (pinsAfter (s.spiCsN, s.spiSclk) es).2
        spiPos := s.spiPos + es.length
        spiBits := s.spiBits ++ (List.range (drawCount es)).map (misoAt s)
        miso := s.miso.drop (drawCount es)
        misoDrawn := s.misoDrawn + drawCount es
        history := s.history ++ spiTrace (misoAt s) s.spiBits.length 0 es } := by
  induction es generalizing s with
  | nil => simp [pinsAfter, drawCount, spiTrace]
  | cons e es ih =>
    obtain ⟨c, op⟩ := e
    rw [List.foldl_cons, ih]
    cases op with
    | csN l =>
      have hd : drawCount ((c, SpiOp.csN l) :: es) = drawCount es := by simp [drawCount]
      simp only [hd, pinsAfter, spiTrace, performSpiOp, List.length_cons, State.mk.injEq, true_and, and_true,
        List.append_assoc, List.cons_append, List.nil_append]
      refine ⟨by omega, rfl, rfl⟩
    | sclk l =>
      have hd : drawCount ((c, SpiOp.sclk l) :: es) = drawCount es := by simp [drawCount]
      simp only [hd, pinsAfter, spiTrace, performSpiOp, List.length_cons, State.mk.injEq, true_and, and_true,
        List.append_assoc, List.cons_append, List.nil_append]
      refine ⟨by omega, rfl, rfl⟩
    | draw =>
      have hd : drawCount ((c, SpiOp.draw) :: es) = drawCount es + 1 := by simp [drawCount]
      have hm : ∀ k, misoAt (performSpiOp s (c, SpiOp.draw)) k = misoAt s (1 + k) := by
        intro k
        have := misoAt_drop s 1 k
        simpa [performSpiOp, misoAt] using this
      have ht : ∀ index k, spiTrace (misoAt (performSpiOp s (c, SpiOp.draw))) index k es =
          spiTrace (misoAt s) index (1 + k) es := fun index k => spiTrace_shift hm index k es
      have hb : (performSpiOp s (c, SpiOp.draw)).spiBits.length = s.spiBits.length + 1 := by
        simp [performSpiOp]
      have hr : (List.range (drawCount es + 1)).map (misoAt s) =
          misoAt s 0 :: (List.range (drawCount es)).map (misoAt (performSpiOp s (c, SpiOp.draw))) := by
        rw [List.range_succ_eq_map, List.map_cons, List.map_map]
        congr 1
        apply List.map_congr_left
        intro k _
        rw [hm]
        simp [Nat.add_comm]
      have hs : performSpiOp s (c, SpiOp.draw) = { s with
          spiBits := s.spiBits ++ [misoAt s 0], miso := s.miso.tail, misoDrawn := s.misoDrawn + 1,
          spiPos := s.spiPos + 1, history := s.history ++ [⟨c, .miso s.spiBits.length (misoAt s 0)⟩] } := rfl
      rw [hd, hr, hb, ht]
      simp only [hs, pinsAfter, spiTrace, List.length_cons, State.mk.injEq, true_and, and_true, List.append_assoc,
        List.cons_append, List.nil_append, List.drop_tail, Nat.add_zero, Nat.zero_add]
      exact ⟨by omega, by omega⟩

theorem drawCount_append (es fs : List (Nat × SpiOp)) : drawCount (es ++ fs) = drawCount es + drawCount fs := by
  simp [drawCount]

theorem drawCount_spiBitOps (mode : BitVec 2) (half k : Nat) : drawCount (spiBitOps mode half k) = 1 := by
  unfold spiBitOps
  split <;> simp [drawCount]

theorem drawCount_bits (mode : BitVec 2) (half n : Nat) :
    drawCount ((List.range n).flatMap (spiBitOps mode half)) = n := by
  induction n with
  | zero => rfl
  | succ n ih =>
    rw [List.range_succ, List.flatMap_append, drawCount_append, ih]
    simp [drawCount_spiBitOps]

/-- A transaction of n bytes makes 8n draws. -/
theorem drawCount_spiProgram (mode : BitVec 2) (half n : Nat) : drawCount (spiProgram mode half n) = 8 * n := by
  unfold spiProgram
  have h1 : ∀ c l es, drawCount ((c, SpiOp.csN l) :: es) = drawCount es := fun c l es => by simp [drawCount]
  rw [h1, drawCount_append, drawCount_bits, h1]
  rfl

theorem pinsAfter_append (pins : Bool × Bool) (es fs : List (Nat × SpiOp)) :
    pinsAfter pins (es ++ fs) = pinsAfter (pinsAfter pins es) fs := by
  induction es generalizing pins with
  | nil => rfl
  | cons e es ih =>
    obtain ⟨c, op⟩ := e
    cases op <;> exact ih _

theorem pinsAfter_spiBitOps (mode : BitVec 2) (half k : Nat) (pins : Bool × Bool) :
    pinsAfter pins (spiBitOps mode half k) = (pins.1, spiIdleLevel mode) := by
  unfold spiBitOps
  split <;> rfl

theorem pinsAfter_bits (mode : BitVec 2) (half n : Nat) (pins : Bool × Bool) :
    pinsAfter pins ((List.range n).flatMap (spiBitOps mode half)) =
      (pins.1, if n = 0 then pins.2 else spiIdleLevel mode) := by
  induction n with
  | zero => rfl
  | succ n ih =>
    rw [List.range_succ, List.flatMap_append, pinsAfter_append, ih]
    simp [pinsAfter_spiBitOps]

/-- A transaction ends with chip select 1 and the clock at its idle level, if it moved. -/
theorem pinsAfter_spiProgram (mode : BitVec 2) (half n : Nat) (pins : Bool × Bool) :
    pinsAfter pins (spiProgram mode half n) = (true, if n = 0 then pins.2 else spiIdleLevel mode) := by
  unfold spiProgram
  simp only [pinsAfter]
  rw [pinsAfter_append, pinsAfter_bits]
  simp [pinsAfter]

/-- Performing an event leaves the configuration, and so the transaction, as it is. -/
theorem spiRemaining_performSpiOp {s : State} {e : Nat × SpiOp} {es : List (Nat × SpiOp)} (h : spiRemaining s = e :: es) :
    spiRemaining (performSpiOp s e) = es := by
  have hp : spiProgramOf (performSpiOp s e) = spiProgramOf s := by
    obtain ⟨c, op⟩ := e
    cases op <;> rfl
  have hq : (performSpiOp s e).spiPos = s.spiPos + 1 := by
    obtain ⟨c, op⟩ := e
    cases op <;> rfl
  unfold spiRemaining at h ⊢
  rw [hp, hq, ← List.drop_drop, h]
  rfl

/-- What the rest of a transaction does. -/
theorem spiFinish_eq (s : State) :
    spiFinish s =
      { s with
        spiCsN := (pinsAfter (s.spiCsN, s.spiSclk) (spiRemaining s)).1
        spiSclk := (pinsAfter (s.spiCsN, s.spiSclk) (spiRemaining s)).2
        spiPos := s.spiPos + (spiRemaining s).length
        spiBits := s.spiBits ++ (List.range (drawCount (spiRemaining s))).map (misoAt s)
        miso := s.miso.drop (drawCount (spiRemaining s))
        misoDrawn := s.misoDrawn + drawCount (spiRemaining s)
        history := s.history ++ spiTrace (misoAt s) s.spiBits.length 0 (spiRemaining s) } :=
  foldl_performSpiOp _ s

@[simp] theorem spiFinish_params (s : State) : (spiFinish s).params = s.params := by
  rw [spiFinish_eq]

@[simp] theorem spiFinish_phase (s : State) : (spiFinish s).phase = s.phase := by
  rw [spiFinish_eq]

@[simp] theorem spiFinish_status (s : State) : (spiFinish s).status = s.status := by
  rw [spiFinish_eq]

@[simp] theorem spiFinish_codecValue (s : State) : (spiFinish s).codecValue = s.codecValue := by
  rw [spiFinish_eq]

@[simp] theorem spiFinish_codecMax (s : State) : (spiFinish s).codecMax = s.codecMax := by
  rw [spiFinish_eq]

@[simp] theorem spiFinish_codecMin (s : State) : (spiFinish s).codecMin = s.codecMin := by
  rw [spiFinish_eq]

@[simp] theorem spiFinish_codecTag (s : State) : (spiFinish s).codecTag = s.codecTag := by
  rw [spiFinish_eq]

@[simp] theorem spiFinish_codecFrame (s : State) : (spiFinish s).codecFrame = s.codecFrame := by
  rw [spiFinish_eq]

@[simp] theorem spiFinish_codecDecRaw (s : State) : (spiFinish s).codecDecRaw = s.codecDecRaw := by
  rw [spiFinish_eq]

@[simp] theorem spiFinish_codecDecTag (s : State) : (spiFinish s).codecDecTag = s.codecDecTag := by
  rw [spiFinish_eq]

@[simp] theorem spiFinish_rxSpb (s : State) : (spiFinish s).rxSpb = s.rxSpb := by
  rw [spiFinish_eq]

@[simp] theorem spiFinish_rxThresh (s : State) : (spiFinish s).rxThresh = s.rxThresh := by
  rw [spiFinish_eq]

@[simp] theorem spiFinish_rxLen (s : State) : (spiFinish s).rxLen = s.rxLen := by
  rw [spiFinish_eq]

@[simp] theorem spiFinish_rxNbytes (s : State) : (spiFinish s).rxNbytes = s.rxNbytes := by
  rw [spiFinish_eq]

@[simp] theorem spiFinish_rxNbits (s : State) : (spiFinish s).rxNbits = s.rxNbits := by
  rw [spiFinish_eq]

@[simp] theorem spiFinish_rxNdrop (s : State) : (spiFinish s).rxNdrop = s.rxNdrop := by
  rw [spiFinish_eq]

@[simp] theorem spiFinish_txNbytes (s : State) : (spiFinish s).txNbytes = s.txNbytes := by
  rw [spiFinish_eq]

@[simp] theorem spiFinish_txNbits (s : State) : (spiFinish s).txNbits = s.txNbits := by
  rw [spiFinish_eq]

@[simp] theorem spiFinish_spiMode (s : State) : (spiFinish s).spiMode = s.spiMode := by
  rw [spiFinish_eq]

@[simp] theorem spiFinish_spiOrder (s : State) : (spiFinish s).spiOrder = s.spiOrder := by
  rw [spiFinish_eq]

@[simp] theorem spiFinish_spiByteCount (s : State) : (spiFinish s).spiByteCount = s.spiByteCount := by
  rw [spiFinish_eq]

@[simp] theorem spiFinish_spiClkdiv (s : State) : (spiFinish s).spiClkdiv = s.spiClkdiv := by
  rw [spiFinish_eq]

@[simp] theorem spiFinish_spiReading (s : State) : (spiFinish s).spiReading = s.spiReading := by
  rw [spiFinish_eq]

@[simp] theorem spiFinish_mem (s : State) : (spiFinish s).mem = s.mem := by
  rw [spiFinish_eq]

@[simp] theorem spiFinish_rst (s : State) : (spiFinish s).rst = s.rst := by
  rw [spiFinish_eq]

@[simp] theorem spiFinish_inputs (s : State) : (spiFinish s).inputs = s.inputs := by
  rw [spiFinish_eq]

@[simp] theorem spiFinish_rdata (s : State) : (spiFinish s).rdata = s.rdata := by
  rw [spiFinish_eq]

@[simp] theorem assemble_params (s : State) : (assemble s).params = s.params := rfl

@[simp] theorem assemble_phase (s : State) : (assemble s).phase = s.phase := rfl

@[simp] theorem assemble_codecValue (s : State) : (assemble s).codecValue = s.codecValue := rfl

@[simp] theorem assemble_codecMax (s : State) : (assemble s).codecMax = s.codecMax := rfl

@[simp] theorem assemble_codecMin (s : State) : (assemble s).codecMin = s.codecMin := rfl

@[simp] theorem assemble_codecTag (s : State) : (assemble s).codecTag = s.codecTag := rfl

@[simp] theorem assemble_codecFrame (s : State) : (assemble s).codecFrame = s.codecFrame := rfl

@[simp] theorem assemble_codecDecRaw (s : State) : (assemble s).codecDecRaw = s.codecDecRaw := rfl

@[simp] theorem assemble_codecDecTag (s : State) : (assemble s).codecDecTag = s.codecDecTag := rfl

@[simp] theorem assemble_rxSpb (s : State) : (assemble s).rxSpb = s.rxSpb := rfl

@[simp] theorem assemble_rxThresh (s : State) : (assemble s).rxThresh = s.rxThresh := rfl

@[simp] theorem assemble_rxLen (s : State) : (assemble s).rxLen = s.rxLen := rfl

@[simp] theorem assemble_rxNbytes (s : State) : (assemble s).rxNbytes = s.rxNbytes := rfl

@[simp] theorem assemble_rxNbits (s : State) : (assemble s).rxNbits = s.rxNbits := rfl

@[simp] theorem assemble_rxNdrop (s : State) : (assemble s).rxNdrop = s.rxNdrop := rfl

@[simp] theorem assemble_txNbytes (s : State) : (assemble s).txNbytes = s.txNbytes := rfl

@[simp] theorem assemble_txNbits (s : State) : (assemble s).txNbits = s.txNbits := rfl

@[simp] theorem assemble_spiMode (s : State) : (assemble s).spiMode = s.spiMode := rfl

@[simp] theorem assemble_spiOrder (s : State) : (assemble s).spiOrder = s.spiOrder := rfl

@[simp] theorem assemble_spiByteCount (s : State) : (assemble s).spiByteCount = s.spiByteCount := rfl

@[simp] theorem assemble_spiClkdiv (s : State) : (assemble s).spiClkdiv = s.spiClkdiv := rfl

@[simp] theorem assemble_mem (s : State) : (assemble s).mem = s.mem := rfl

@[simp] theorem assemble_spiSclk (s : State) : (assemble s).spiSclk = s.spiSclk := rfl

@[simp] theorem assemble_spiCsN (s : State) : (assemble s).spiCsN = s.spiCsN := rfl

@[simp] theorem assemble_spiPos (s : State) : (assemble s).spiPos = s.spiPos := rfl

@[simp] theorem assemble_spiBits (s : State) : (assemble s).spiBits = s.spiBits := rfl

@[simp] theorem assemble_rst (s : State) : (assemble s).rst = s.rst := rfl

@[simp] theorem assemble_inputs (s : State) : (assemble s).inputs = s.inputs := rfl

@[simp] theorem assemble_miso (s : State) : (assemble s).miso = s.miso := rfl

@[simp] theorem assemble_misoDrawn (s : State) : (assemble s).misoDrawn = s.misoDrawn := rfl

@[simp] theorem assemble_history (s : State) : (assemble s).history = s.history := rfl

@[simp] theorem assemble_rdata (s : State) : (assemble s).rdata = s.rdata := rfl

end Sys2Proof.Machine
end

