-- ==== Sys2Proof/Laws/Step.lean ====
section
/-! SUPPORT. What one step can be, said once, and what each meaning answers. -/

namespace Sys2Proof.Machine

open Sys2Proof

/-- Every meaning answers a next state, which a completion ends: DONE set, the phase IDLE. -/
theorem exec_completes (i : Instr) (s : State) : ∃ u, exec i s = .next (complete u) := by
  cases i
  · exact ⟨_, rfl⟩
  · exact ⟨_, rfl⟩
  · unfold exec execUartRxDecode
    dsimp only
    split
    · exact ⟨_, rfl⟩
    · exact ⟨_, rfl⟩
  · exact ⟨_, rfl⟩
  · exact ⟨_, rfl⟩
  · exact ⟨_, rfl⟩

/-- What no command touches: the parameters, the schedule, the reset input, the operand registers, the last read's data; and the
phase after it is IDLE. -/
theorem exec_frame {i : Instr} {s t : State} (h : exec i s = .next t) :
    t.phase = .idle ∧
      t = { s with
        phase := t.phase, status := t.status, codecFrame := t.codecFrame, codecDecRaw := t.codecDecRaw,
        codecDecTag := t.codecDecTag, rxNbytes := t.rxNbytes, rxNbits := t.rxNbits, rxNdrop := t.rxNdrop,
        txNbits := t.txNbits, spiReading := t.spiReading, mem := t.mem, spiSclk := t.spiSclk, spiCsN := t.spiCsN,
        spiPos := t.spiPos, spiBits := t.spiBits, miso := t.miso, misoDrawn := t.misoDrawn, history := t.history } := by
  cases i
  · injection h with h; subst h; exact ⟨rfl, rfl⟩
  · injection h with h; subst h; exact ⟨rfl, rfl⟩
  · unfold exec execUartRxDecode at h
    dsimp only at h
    split at h <;> (injection h with h; subst h; refine ⟨rfl, ?_⟩; apply State.ext <;> simp)
  · unfold exec execUartTxBuild at h
    injection h with h; subst h; refine ⟨rfl, ?_⟩; apply State.ext <;> simp
  · unfold exec execSpiRead at h
    injection h with h; subst h; refine ⟨rfl, ?_⟩; apply State.ext <;> simp
  · injection h with h; subst h; exact ⟨rfl, rfl⟩

/-- What each command does to memory. -/
theorem exec_mem {i : Instr} {s t : State} (h : exec i s = .next t) :
    t.mem = s.mem ∨ (i = .uartRxDecode ∧ ∃ out, t.mem = (fillBuffer s .rxByte (rxEntryOf out)).mem) ∨
      (i = .uartTxBuild ∧ t.mem = (fillBuffer s .txFrame (txEntryOf s)).mem) ∨
      (i = .spiRead ∧ t.mem = (fillBuffer (spiFinish s) .spiByte (spiEntryOf s (spiFinish s).spiBits)).mem) := by
  cases i
  · injection h with h; subst h; exact .inl rfl
  · injection h with h; subst h; exact .inl rfl
  · refine .inr (.inl ⟨rfl, ?_⟩)
    unfold exec execUartRxDecode at h
    dsimp only at h
    split at h <;>
      (injection h with h; subst h
       simp only [complete_mem, setShort_mem, setFrameErr_mem, setCfgErr_mem]
       exact ⟨_, writeRxResults_mem ..⟩)
  · refine .inr (.inr (.inl ⟨rfl, ?_⟩))
    unfold exec execUartTxBuild at h
    injection h with h; subst h
    simp only [complete_mem]
  · refine .inr (.inr (.inr ⟨rfl, ?_⟩))
    unfold exec execSpiRead at h
    injection h with h; subst h
    simp only [complete_mem, clearSpiProgress_mem, assemble_mem]
  · injection h with h; subst h; exact .inl rfl

/-- A pin event scheduled performs the next event of a running SPI_READ, or nothing. -/
theorem spiEventStep_cases (s : State) :
    spiEventStep s = s ∨
      (s.phase = .busy .spiRead ∧ ∃ e es, spiRemaining s = e :: es ∧ spiEventStep s = performSpiOp s e) := by
  unfold spiEventStep
  split
  · exact .inr ⟨by assumption, _, _, by assumption, rfl⟩
  · exact .inl rfl

theorem step_nil {s : State} (h : s.inputs = []) : step s = engineStep s := by
  unfold step; rw [h]

theorem step_complete {s : State} {rest : List Input} (h : s.inputs = .complete :: rest) :
    step s = engineStep (setInputs rest s) := by
  unfold step; rw [h]

theorem step_spiEvent {s : State} {rest : List Input} (h : s.inputs = .spiEvent :: rest) :
    step s = .next (spiEventStep (setInputs rest s)) := by
  unfold step; rw [h]

theorem step_read {s : State} {a : Nat} {rest : List Input} (h : s.inputs = .read a :: rest) :
    step s = .next (hostRead (setInputs rest s) a) := by
  unfold step; rw [h]

theorem step_write {s : State} {a : Nat} {v : Word} {rest : List Input} (h : s.inputs = .write a v :: rest) :
    step s = .next (hostWrite (setInputs rest s) a v) := by
  unfold step; rw [h]

theorem step_rst_high {s : State} {rest : List Input} (h : s.inputs = .rst true :: rest) :
    step s = .next (assertReset (setInputs rest s)) := by
  unfold step; rw [h]

theorem step_rst_low {s : State} {rest : List Input} (h : s.inputs = .rst false :: rest) :
    step s = .next (releaseReset (setInputs rest s)) := by
  unfold step; rw [h]

theorem engineStep_idle {s : State} (h : s.phase = .idle) : engineStep s = .next s := by
  unfold engineStep; rw [h]

theorem engineStep_busy {s : State} {op : Instr} (h : s.phase = .busy op) : engineStep s = exec op s := by
  unfold engineStep; rw [h]

/-- The cases of a step: if it answers a next state, then the next input was taken, or the engine moved. -/
theorem step_cases {s t : State} (h : step s = .next t) :
    (∃ rest, s.inputs = .rst true :: rest ∧ t = assertReset (setInputs rest s)) ∨
    (∃ rest, s.inputs = .rst false :: rest ∧ t = releaseReset (setInputs rest s)) ∨
    (∃ a rest, s.inputs = .read a :: rest ∧ t = hostRead (setInputs rest s) a) ∨
    (∃ a v rest, s.inputs = .write a v :: rest ∧ t = hostWrite (setInputs rest s) a v) ∨
    (∃ rest, s.inputs = .spiEvent :: rest ∧ t = spiEventStep (setInputs rest s)) ∨
    (∃ rest, (s.inputs = .complete :: rest ∨ (s.inputs = [] ∧ rest = [])) ∧
      ((s.phase = .idle ∧ t = setInputs rest s) ∨
        ∃ op, s.phase = .busy op ∧ exec op (setInputs rest s) = .next t)) := by
  have engine : ∀ {rest : List Input}, engineStep (setInputs rest s) = .next t →
      (s.phase = .idle ∧ t = setInputs rest s) ∨ ∃ op, s.phase = .busy op ∧ exec op (setInputs rest s) = .next t := by
    intro rest he
    cases hp : s.phase with
    | idle =>
      rw [engineStep_idle (by exact hp)] at he
      injection he with he
      exact .inl ⟨rfl, he.symm⟩
    | busy op =>
      rw [engineStep_busy (op := op) (by exact hp)] at he
      exact .inr ⟨op, rfl, he⟩
  cases hin : s.inputs with
  | nil =>
    rw [step_nil hin, show s = setInputs [] s by rw [← hin]; rfl] at h
    exact .inr (.inr (.inr (.inr (.inr ⟨[], .inr ⟨rfl, rfl⟩, engine h⟩))))
  | cons i rest =>
    cases i with
    | read a =>
      rw [step_read hin] at h
      injection h with h
      exact .inr (.inr (.inl ⟨a, rest, rfl, h.symm⟩))
    | write a v =>
      rw [step_write hin] at h
      injection h with h
      exact .inr (.inr (.inr (.inl ⟨a, v, rest, rfl, h.symm⟩)))
    | spiEvent =>
      rw [step_spiEvent hin] at h
      injection h with h
      exact .inr (.inr (.inr (.inr (.inl ⟨rest, rfl, h.symm⟩))))
    | complete =>
      rw [step_complete hin] at h
      exact .inr (.inr (.inr (.inr (.inr ⟨rest, .inl rfl, engine h⟩))))
    | rst level =>
      cases level with
      | true =>
        rw [step_rst_high hin] at h
        injection h with h
        exact .inl ⟨rest, rfl, h.symm⟩
      | false =>
        rw [step_rst_low hin] at h
        injection h with h
        exact .inr (.inl ⟨rest, rfl, h.symm⟩)

/-- A host write while IDLE at a register's address. -/
theorem step_write_reg {s : State} {r : Reg} {a : Nat} {v : Word} {rest : List Input} (h : s.inputs = .write a v :: rest)
    (hr : s.rst = false) (hp : s.phase = .idle) (h1 : s.params.base + regOffset r ≤ a)
    (h2 : a < s.params.base + regOffset r + 4) : step s = .next (writeReg (setInputs rest s) v r) := by
  rw [step_write h]
  exact congrArg _ (hostWrite_reg (s := setInputs rest s) hr hp h1 h2)

/-- A host write while IDLE at an entry's address. -/
theorem step_write_entry {s : State} {b : Buf} {i a : Nat} {v : Word} {rest : List Input}
    (h : s.inputs = .write a v :: rest) (hl : s.params.legal = true) (hr : s.rst = false) (hp : s.phase = .idle)
    (hd : i < bufDepth s.params b) (h1 : s.params.base + bufAddr b i ≤ a) (h2 : a < s.params.base + bufAddr b i + 4) :
    step s = .next (if bufWritable b then writeEntry (setInputs rest s) b i v else setInputs rest s) := by
  rw [step_write h]
  exact congrArg _ (hostWrite_entry (s := setInputs rest s) hl hr hp hd h1 h2)

/-- A host write while BUSY inside the window. -/
theorem step_write_busy {s : State} {a : Nat} {v : Word} {op : Instr} {rest : List Input}
    (h : s.inputs = .write a v :: rest) (hr : s.rst = false) (hp : s.phase = .busy op) (h1 : s.params.base ≤ a)
    (h2 : a < s.params.base + 0x10000) :
    step s = .next (if (a - s.params.base) / 4 = 1
      then { setInputs rest s with status := clearStatus v s.status } else setCmdRej (setInputs rest s)) := by
  rw [step_write h]
  exact congrArg _ (hostWrite_busy_eq (s := setInputs rest s) hr hp (inWindow_iff.mpr ⟨h1, h2⟩))

/-- A host read inside the window. -/
theorem step_read_in {s : State} {a : Nat} {rest : List Input} (h : s.inputs = .read a :: rest) (hr : s.rst = false)
    (h1 : s.params.base ≤ a) (h2 : a < s.params.base + 0x10000) :
    step s = .next { setInputs rest s with
      rdata := locationWord (setInputs rest s) (locate s.params (locationOffset s.params a)) } := by
  rw [step_read h]
  exact congrArg _ (hostRead_in (s := setInputs rest s) hr (inWindow_iff.mpr ⟨h1, h2⟩))

end Sys2Proof.Machine
end

