-- ==== Sys2Proof/Tests/Slice0.lean ====
section
/-! SUPPORT. Tests: ill-formed words and parameters refused, command words written out from 30_encoding.md R80 and R81, a few one-step
vectors of 95_test_vectors.md, and for every statement with hypotheses a state that meets them. -/

namespace Sys2Proof.Tests

open Sys2Proof Sys2Proof.Machine

set_option maxRecDepth 100000

/-! ### Well-formedness: each check refuses an ill-formed term -/

theorem test_rsv_bit_4_is_refused : legalWord 0x00000011#32 = false ∧ decode 0x00000011#32 = .error .reservedNonzero := by decide

theorem test_rsv_bit_31_is_refused : legalWord 0x80000001#32 = false ∧ decode 0x80000001#32 = .error .reservedNonzero := by
  decide

theorem test_opcode_0_is_refused : legalWord 0x00000000#32 = false ∧ decode 0x00000000#32 = .error (.unassignedOpcode 0x0#4) := by
  decide

theorem test_opcode_7_is_refused : legalWord 0x00000007#32 = false ∧ decode 0x00000007#32 = .error (.unassignedOpcode 0x7#4) := by
  decide

theorem test_opcode_15_is_refused : legalWord 0x0000000F#32 = false ∧ decode 0x0000000F#32 = .error (.unassignedOpcode 0xF#4) := by
  decide

theorem test_three_bytes_are_refused : decodeBytes [0x01#8, 0x00#8, 0x00#8] = .error .notOneWord := by decide

/-- Small legal parameters. -/
def smallParams : Params where
  basePage := 3
  rxDepth := 40
  txDepth := 2
  sampleW := 9
  rxTieHigh := false
  cmdLatency := 1
  fClk := 1

theorem test_params_legal : smallParams.legal = true := by decide
theorem test_params_rxDepth_9_is_refused : Params.legal { smallParams with rxDepth := 9 } = false := by decide
theorem test_params_rxDepth_1025_is_refused : Params.legal { smallParams with rxDepth := 1025 } = false := by decide
theorem test_params_txDepth_0_is_refused : Params.legal { smallParams with txDepth := 0 } = false := by decide
theorem test_params_txDepth_257_is_refused : Params.legal { smallParams with txDepth := 257 } = false := by decide
theorem test_params_sampleW_0_is_refused : Params.legal { smallParams with sampleW := 0 } = false := by decide
theorem test_params_sampleW_17_is_refused : Params.legal { smallParams with sampleW := 17 } = false := by decide
theorem test_params_cmdLatency_0_is_refused : Params.legal { smallParams with cmdLatency := 0 } = false := by decide

/-! ### Decoding: every command's word written out, RSV above OP (R80, R81) -/

theorem test_decode_codecEnc : decode 0b00000000000000000000000000000001#32 = .ok .codecEnc := by decide
theorem test_decode_codecDec : decode 0b00000000000000000000000000000010#32 = .ok .codecDec := by decide
theorem test_decode_uartRxDecode : decode 0b00000000000000000000000000000011#32 = .ok .uartRxDecode := by decide
theorem test_decode_uartTxBuild : decode 0b00000000000000000000000000000100#32 = .ok .uartTxBuild := by decide
theorem test_decode_spiRead : decode 0b00000000000000000000000000000101#32 = .ok .spiRead := by decide
theorem test_decode_spiAssemble : decode 0b00000000000000000000000000000110#32 = .ok .spiAssemble := by decide

/-- Lane 0 is the low byte (20_memory.md R61). -/
theorem test_decode_lane_0_is_low : decodeBytes [0x06#8, 0x00#8, 0x00#8, 0x00#8] = .ok .spiAssemble ∧
    decodeBytes [0x00#8, 0x00#8, 0x00#8, 0x06#8] = .error .reservedNonzero := by decide

theorem test_table_word : decodeTableWord 32 5 = some .spiRead ∧ decodeTableWord 32 0x100000005 = some .spiRead ∧
    decodeTableWord 33 0x100000005 = none ∧ decodeTableWord 32 7 = none := by decide

/-! ### Helpers -/

/-- The reset state under small parameters. -/
def small : State := { State.reset with params := smallParams }

/-- `small` in a phase, with one input scheduled. -/
def withInput (p : Phase) (i : Input) : State := { small with phase := p, inputs := [i] }

/-- `small` with some RX_SAMPLE entries, RX_LEN set to their number, and a ratio. -/
def capture (spb : BitVec 32) (xs : List Word) : State :=
  { writeEntries small .rxSample 0 xs with rxLen := BitVec.ofNat 32 xs.length, rxSpb := spb }

/-- Whether an outcome is a next state of which a test holds. -/
def nextIs (o : Host.Outcome State Fault Refusal) (p : State → Bool) : Bool :=
  match o with
  | .next t => p t
  | .fault _ => false
  | .refused _ => false

/-! ### One step of each command (vectors of 95_test_vectors.md, named in each docstring) -/

/-- V8: negative operands. -/
theorem test_codecEnc_negative :
    nextIs (exec .codecEnc { small with codecValue := -5#32, codecMax := 10#32, codecMin := -10#32, codecTag := 3#2 })
      (fun t => t.codecFrame == 0xCF#8 && statusWord t == 0x02#32) = true := by decide

/-- V7: MAX < MIN gives 0, not the tag. -/
theorem test_codecEnc_degenerate :
    nextIs (exec .codecEnc { small with codecValue := 5#32, codecMax := 3#32, codecMin := 9#32, codecTag := 1#2 })
      (fun t => t.codecFrame == 0x00#8 && statusWord t == 0x12#32) = true := by decide

/-- D5. -/
theorem test_codecDec : nextIs (exec .codecDec { small with codecFrame := 0xA4#8 })
    (fun t => regWord t .codecDec == 0x00000224#32 && statusWord t == 0x02#32) = true := by decide

/-- T3. -/
theorem test_uartTxBuild :
    nextIs (exec .uartTxBuild { writeEntries small .txByte 0 [0x48#32, 0x69#32] with txNbytes := 2#32 })
      (fun t => readEntry t .txFrame 0 == 0x290#32 && readEntry t .txFrame 1 == 0x2D2#32 && t.txNbits == 20#32) = true := by
  decide

/-- X11: ratio 2.5, the frame of 0xC3 and a tail of two samples. -/
theorem test_uartRxDecode_non_integer_ratio :
    nextIs (exec .uartRxDecode (capture 0x28000#32
        [0, 0, 1, 1, 1, 1, 1, 0, 0, 0, 0, 0, 0, 0, 0, 0, 0, 1, 1, 1, 1, 1, 1, 1, 1, 1, 1]))
      (fun t => readEntry t .rxByte 0 == 0xC3#32 && t.rxNbits == 11#32 && statusWord t == 0x0A#32) = true := by decide

/-- X7 and X8: an exact tie resolves as RX_TIE_HIGH says. -/
theorem test_uartRxDecode_tie :
    let s := capture 0x40000#32
      [0, 0, 0, 0, 1, 1, 0, 0, 0, 0, 0, 0, 0, 0, 0, 0, 0, 0, 0, 0, 0, 0, 0, 0, 0, 0, 0, 0, 0, 0, 0, 0, 0, 0, 0, 0, 1, 1, 1, 1]
    nextIs (exec .uartRxDecode s) (fun t => readEntry t .rxByte 0 == 0x00#32 && t.rxNbytes == 1#32) = true ∧
    nextIs (exec .uartRxDecode { s with params := { smallParams with rxTieHigh := true } })
      (fun t => readEntry t .rxByte 0 == 0x01#32 && t.rxNbytes == 1#32) = true := by decide

/-- Q3: mode 3, LSB-first. -/
theorem test_spiRead_mode_3 :
    nextIs (exec .spiRead { small with
        spiMode := 3#2, spiOrder := true, spiSclk := true,
        miso := [false, false, true, true, false, true, false, true, true, true, true, true, false, false, false, false] })
      (fun t => readEntry t .spiByte 0 == 0xAC#32 && readEntry t .spiByte 1 == 0x0F#32 && t.spiReading == 0xAC0#12 &&
        (t.history.take 4).map PinEvent.signal == [.csN false, .sclk false, .sclk true, .miso 0 false] && t.spiSclk) = true := by
  decide

/-- Q4: one byte, mode 1, MSB-first. -/
theorem test_spiRead_short :
    nextIs (exec .spiRead { small with
        spiMode := 1#2, spiSclk := true, spiByteCount := 1#4,
        miso := [true, true, true, true, false, false, false, false] })
      (fun t => readEntry t .spiByte 0 == 0xF0#32 && t.spiReading == 0x000#12 && statusWord t == 0x0A#32) = true := by decide

/-- A1. -/
theorem test_spiAssemble : nextIs (exec .spiAssemble (writeEntries small .spiByte 0 [0xAB#32, 0xCD#32]))
    (fun t => t.spiReading == 0xABC#12 && statusWord t == 0x02#32) = true := by decide

/-- A2. -/
theorem test_spiAssemble_short :
    nextIs (exec .spiAssemble { writeEntries small .spiByte 0 [0xAB#32, 0xCD#32] with spiByteCount := 1#4 })
      (fun t => t.spiReading == 0x000#12 && statusWord t == 0x0A#32) = true := by decide

/-! ### Bus accesses (95_test_vectors.md 2.6; BASE is 0x30000 here) -/

/-- B3. -/
theorem test_illegal_word_is_rejected : nextIs (step (withInput .idle (.write 0x30000 0x00000011#32)))
    (fun t => statusWord t == 0x80#32) = true := by decide

/-- B5. -/
theorem test_busy_write_is_dropped : nextIs (step (withInput (.busy .uartTxBuild) (.write 0x30050 5#32)))
    (fun t => statusWord t == 0x81#32 && t.txNbytes == 0#32) = true := by decide

/-- B8, with RX_DEPTH = 40. -/
theorem test_rxLen_is_clamped : nextIs (step (withInput .idle (.write 0x30038 0xFFFFFFFF#32)))
    (fun t => t.rxLen == 40#32) = true := by decide

/-- B11: the low two address bits are ignored. -/
theorem test_low_address_bits_are_ignored : nextIs (step (withInput .idle (.write 0x33002 0x1234#32)))
    (fun t => readEntry t .txByte 0 == 0x34#32) = true := by decide

/-- B13. -/
theorem test_unmapped_write_is_ignored : nextIs (step (withInput .idle (.write 0x3403C 0x55#32)))
    (fun t => t.mem == [] && statusWord t == 0#32) = true := by decide

/-! ### Witnesses: for each statement with hypotheses, states and operands that meet them, at the boundaries of each clause -/

/-- A step of a state ends in the next state given. -/
def stepsTo (s : State) (p : State → Bool) : Bool := nextIs (step s) p

theorem exists_next_of_stepsTo {s : State} {p : State → Bool} (h : stepsTo s p = true) : ∃ t, step s = .next t ∧ p t = true := by
  unfold stepsTo nextIs at h
  split at h
  · exact ⟨_, by assumption, h⟩
  · cases h
  · cases h

theorem witness_CommandWordsDecodeAsTabled : Instr.wf .codecEnc = true ∧ Instr.wf .spiAssemble = true := by decide

theorem witness_DecodeAcceptsExactlyTheLegalWords :
    decode 1#32 = .ok .codecEnc ∧ decode 6#32 = .ok .spiAssemble ∧
    ((6#32 : Word).extractLsb' 4 28 = 0#28 ∧ 1 ≤ ((6#32 : Word).extractLsb' 0 4).toNat ∧
      ((6#32 : Word).extractLsb' 0 4).toNat ≤ 6) := by decide

theorem witness_StepRunsTheIssuedCommand :
    ({ small with phase := .busy .codecEnc } : State).phase = .busy .codecEnc ∧ small.inputs = [] ∧
    (withInput (.busy .spiRead) .complete).inputs = [.complete] ∧
    (Instr.wf .codecDec = true ∧ small.phase = .idle ∧ small.rst = false ∧
      regAddr smallParams .cmd = 0x30000 ∧ encode .codecDec = 0x00000002#32) := by decide

theorem witness_EngineCompletesWhenBusyAndHoldsWhenIdle :
    ({ small with phase := .busy .spiRead } : State).inputs = [] ∧ small.phase = .idle ∧ small.inputs = [] ∧
    (withInput .idle .complete).inputs = [.complete] ∧ (withInput .idle .spiEvent).inputs = [.spiEvent] := by decide

theorem witness_OnlyALegalCommandWriteLeavesIdle :
    (withInput .idle (.write 0x30000 1#32)).phase = .idle ∧
    stepsTo (withInput .idle (.write 0x30000 1#32)) (fun t => t.phase == .busy .codecEnc) = true ∧
    stepsTo (withInput .idle (.write 0x30003 6#32)) (fun t => t.phase == .busy .spiAssemble) = true := by decide

theorem witness_CommandWriteIssuesOrRejects :
    (withInput .idle (.write 0x30000 6#32)).phase = .idle ∧ (withInput (.busy .codecEnc) (.write 0x30003 1#32)).rst = false ∧
    smallParams.base ≤ 0x30000 ∧ 0x30003 < smallParams.base + 4 ∧
    ((6#32 : Word).extractLsb' 4 28 = 0#28 ∧ 1 ≤ ((6#32 : Word).extractLsb' 0 4).toNat ∧
      ((6#32 : Word).extractLsb' 0 4).toNat ≤ 6) ∧
    ¬ ((7#32 : Word).extractLsb' 4 28 = 0#28 ∧ 1 ≤ ((7#32 : Word).extractLsb' 0 4).toNat ∧
      ((7#32 : Word).extractLsb' 0 4).toNat ≤ 6) ∧
    ¬ ((0#32 : Word).extractLsb' 4 28 = 0#28 ∧ 1 ≤ ((0#32 : Word).extractLsb' 0 4).toNat ∧
      ((0#32 : Word).extractLsb' 0 4).toNat ≤ 6) := by decide

theorem witness_BusyWritesAreDropped :
    (withInput (.busy .codecEnc) (.write 0x30004 0x80#32)).rst = false ∧
    (withInput (.busy .codecEnc) (.write 0x30004 0x80#32)).phase = .busy .codecEnc ∧
    smallParams.base ≤ 0x30000 ∧ 0x3FFFF < smallParams.base + 0x10000 ∧
    (0x30004 - smallParams.base) / 4 = 1 ∧ (0x30007 - smallParams.base) / 4 = 1 ∧
    (0x30000 - smallParams.base) / 4 ≠ 1 ∧ (0x30003 - smallParams.base) / 4 ≠ 1 ∧
    (0x30008 - smallParams.base) / 4 ≠ 1 ∧ (0x3FFFF - smallParams.base) / 4 ≠ 1 := by decide

theorem witness_OperandsAndResultsHoldWhileBusy :
    stepsTo (withInput (.busy .codecEnc) (.write 0x30010 5#32)) (fun t => t.phase == .busy .codecEnc) = true ∧
    stepsTo (withInput (.busy .spiRead) .spiEvent) (fun t => t.phase == .busy .spiRead && !t.spiCsN) = true := by decide

theorem witness_ResultsChangeOnlyAtTheirCompletion : small.params.legal = true ∧
    stepsTo { small with phase := .busy .codecDec, codecFrame := 0x5F#8 }
      (fun t => !t.rst && t.codecDecRaw != small.codecDecRaw) = true ∧
    stepsTo { capture 0x10000#32 [1, 1] with phase := .busy .uartRxDecode }
      (fun t => !t.rst && t.rxNbits != small.rxNbits) = true ∧
    stepsTo { small with phase := .busy .uartTxBuild, txNbytes := 1#32 }
      (fun t => !t.rst && t.txNbits != small.txNbits && readEntry t .txFrame 0 != readEntry small .txFrame 0) = true ∧
    stepsTo { writeEntries small .spiByte 0 [0xAB#32] with phase := .busy .spiAssemble }
      (fun t => !t.rst && t.spiReading != small.spiReading) = true := by decide

theorem witness_StickyFlagsAreClearedOnlyByTheHostOrReset :
    stepsTo (withInput .idle (.rst true)) (fun t => !t.status.done) = true ∧
    stepsTo { withInput .idle (.write 0x30004 2#32) with status := { Status.clear with done := true, short := true } }
      (fun t => !t.status.done && t.status.short) = true ∧
    stepsTo { small with phase := .busy .codecEnc, status := { Status.clear with short := true } }
      (fun t => t.status.short) = true := by decide

theorem witness_ReadReturnsTheLocationAndChangesNothing :
    (withInput .idle (.read 0x30068)).inputs = [.read 0x30068] ∧ small.rst = false ∧ small.params.legal = true ∧
    (smallParams.base ≤ 0x30000 ∧ 0x3FFFF < smallParams.base + 0x10000) ∧
    (regOffset .cmd ≤ 0x30000 - smallParams.base ∧ 0x30003 - smallParams.base < regOffset .cmd + 4) ∧
    (regOffset .spiReading ≤ 0x30068 - smallParams.base ∧ 0x3006B - smallParams.base < regOffset .spiReading + 4) ∧
    (39 < bufDepth smallParams .rxSample ∧ bufAddr .rxSample 39 ≤ 0x3109C - smallParams.base ∧
      0x3109F - smallParams.base < bufAddr .rxSample 39 + 4) ∧
    (14 < bufDepth smallParams .spiByte ∧ bufAddr .spiByte 14 ≤ 0x34038 - smallParams.base ∧
      0x3403B - smallParams.base < bufAddr .spiByte 14 + 4) := by decide

/-- Offset 0x403C, just beyond SPI_BYTE, and 0x006C, just beyond the registers, are in no row of the map (20_memory.md R66). -/
theorem witness_unmapped_offsets :
    (∀ r, ¬ (regOffset r ≤ 0x403C ∧ 0x403C < regOffset r + 4)) ∧ ¬ IsEntryLane smallParams 0x403C ∧
    (∀ r, ¬ (regOffset r ≤ 0x006C ∧ 0x006C < regOffset r + 4)) ∧ ¬ IsEntryLane smallParams 0x006C := by
  refine ⟨fun r => ?_, ?_, fun r => ?_, ?_⟩
  · cases r <;> decide
  · rintro ⟨b, i, h⟩
    cases b <;> simp only [bufDepth, Params.rxOutDepth, smallParams, Config.spiDepth, bufAddr, bufBase] at h <;> omega
  · cases r <;> decide
  · rintro ⟨b, i, h⟩
    cases b <;> simp only [bufAddr, bufBase] at h <;> omega

theorem witness_OnlyTheWindowIsDecodedAndLowBitsAreIgnored :
    (0x2FFFF < smallParams.base ∧ (withInput .idle (.read 0x2FFFF)).inputs = [.read 0x2FFFF]) ∧
    (smallParams.base + 0x10000 ≤ 0x40000 ∧ (withInput .idle (.write 0x40000 1#32)).inputs = [.write 0x40000 1#32]) ∧
    (3 < 4 ∧ 4 * 0x3FFF < 0x10000) := by decide

theorem witness_RegisterWritesReadBackMasked :
    (withInput .idle (.write (regAddr smallParams .spiCtrl) 0xFFFFFFFF#32)).phase = .idle ∧ small.rst = false ∧
    (Reg.spiCtrl, (0xF07#32 : Word)) ∈ [(Reg.codecValue, (0xFFFFFFFF#32 : Word)), (.codecMax, 0xFFFFFFFF#32),
      (.codecMin, 0xFFFFFFFF#32), (.codecTag, 0x3#32), (.codecFrame, 0xFF#32), (.rxSpb, 0xFFFFFFFF#32), (.rxThresh, 0xFFFF#32),
      (.spiCtrl, 0xF07#32), (.spiClkdiv, 0xFFFF#32)] := by decide

theorem witness_LengthWritesAreClampedToTheDepth :
    small.phase = .idle ∧ small.rst = false ∧
    (withInput .idle (.write (regAddr smallParams .rxLen) 41#32)).inputs = [.write (regAddr smallParams .rxLen) 41#32] ∧
    (withInput .idle (.write (regAddr smallParams .txNbytes) 2#32)).inputs = [.write (regAddr smallParams .txNbytes) 2#32] := by
  decide

theorem witness_StatusWriteClearsTheOnesWritten :
    (withInput (.busy .spiRead) (.write (regAddr smallParams .status) 0xFE#32)).rst = false ∧
    (withInput .idle (.write (regAddr smallParams .status) 0xFE#32)).inputs = [.write (regAddr smallParams .status) 0xFE#32] := by
  decide

theorem witness_WritesToReadOnlyAndUnmappedAreIgnored :
    small.phase = .idle ∧ small.rst = false ∧ small.params.legal = true ∧
    Reg.spiReading ∈ [Reg.codecDec, .rxNbytes, .rxNbits, .rxNdrop, .txNbits, .spiReading] ∧
    (Buf.rxByte ∈ [Buf.rxByte, .txFrame] ∧ 3 < bufDepth smallParams .rxByte) ∧
    (Buf.txFrame ∈ [Buf.rxByte, .txFrame] ∧ 1 < bufDepth smallParams .txFrame) ∧ 0x403C < 0x10000 := by decide

theorem witness_BufferWriteStoresTheLowBits :
    small.phase = .idle ∧ small.rst = false ∧ small.params.legal = true ∧ small.mem.wf = true ∧
    (Buf.rxSample ∈ [Buf.rxSample, .txByte, .spiByte] ∧ 39 < bufDepth smallParams .rxSample) ∧
    (Buf.spiByte ∈ [Buf.rxSample, .txByte, .spiByte] ∧ 14 < bufDepth smallParams .spiByte) ∧
    (withInput .idle (.write (entryAddr smallParams .rxSample 39) 0x3FF#32)).inputs =
      [.write (entryAddr smallParams .rxSample 39) 0x3FF#32] := by decide

/-- `small` with a RUN of UART_TX_BUILD scheduled, two polls seeing BUSY = 1. -/
def running : State := { small with inputs := programInputs smallParams [.run .uartTxBuild 2] }

theorem witness_RunWaitsForTheCompletion : running.phase = .idle ∧ running.rst = false ∧
    running.inputs = programInputs running.params [.run .uartTxBuild 2] ∧ running.inputs.length = 5 := by decide

theorem witness_ResetEdgeResetsTheBlock :
    (withInput (.busy .spiRead) (.rst true)).inputs = [.rst true] ∧
    (assertReset (withInput .idle (.read 0x30000))).rst = true ∧ smallParams.base ≤ 0x30000 ∧
    0x3FFFF < smallParams.base + 0x10000 ∧ (assertReset (withInput .idle (.read 0x30000))).inputs = [.read 0x30000] := by decide

theorem witness_CommandsAreDefinedRightAfterReset : small = releaseReset (assertReset small) := by decide

theorem witness_CodecEncPacksTagAndScaledMagnitude :
    (7#32 : BitVec 32).toInt ≤ (7#32 : BitVec 32).toInt ∧ (0x80000000#32 : BitVec 32).toInt < (0x7FFFFFFF#32 : BitVec 32).toInt ∧
    (0#32 : BitVec 32).toInt < (1#32 : BitVec 32).toInt := by decide

theorem witness_CodecRawReachesItsExtremesExactly : (0 : Int) < 1 ∧ (100 : Int) = min (max 200 0) 100 ∧
    (0 : Int) = min (max (-1) 0) 100 := by decide

theorem witness_CodecEncIsScaleInvariant : (0 : Int) < 65536 ∧
    (0x00030000#32 : BitVec 32).toInt = 65536 * (3#32 : BitVec 32).toInt ∧
    (0xFFFF0000#32 : BitVec 32).toInt = 65536 * (-1#32 : BitVec 32).toInt := by decide

theorem witness_CodecRawIsWithinOneStepBelow : (0 : Int) < 100 ∧ (0 : Int) ≤ 73 ∧ (73 : Int) ≤ 100 := by decide

theorem witness_CodecDecodeInvertsEncode :
    ({ small with codecMax := 1#32 } : State).codecMin.toInt < ({ small with codecMax := 1#32 } : State).codecMax.toInt := by
  decide

theorem witness_TxBuildFramesThePayload : small.params.legal = true ∧ small.mem.wf = true ∧
    small.txNbytes.toNat ≤ small.params.txDepth ∧
    ({ small with txNbytes := 2#32 } : State).txNbytes.toNat ≤ small.params.txDepth := by decide

theorem witness_BitSequenceIsTheFramesInOrder : small.params.legal = true ∧ small.mem.wf = true ∧
    ({ small with txNbytes := 2#32 } : State).txNbytes.toNat ≤ small.params.txDepth ∧ 1 < (2#32 : BitVec 32).toNat ∧ 9 < 10 := by
  decide

theorem witness_RxRatioBelowOneGivesAnEmptyResult : small.params.legal = true ∧ small.mem.wf = true ∧
    ({ small with rxSpb := 0xFFFF#32 } : State).rxSpb.toNat < 0x10000 := by decide

/-- Ten samples at ratio 1: the frame of 0x01. -/
def tenBits : State := capture 0x10000#32 [0, 1, 0, 0, 0, 0, 0, 0, 0, 1]

theorem witness_RxDecodeWritesTheRecoveredBytes : tenBits.params.legal = true ∧ tenBits.mem.wf = true ∧
    tenBits.rxLen.toNat ≤ tenBits.params.rxDepth ∧ 0x10000 ≤ tenBits.rxSpb.toNat ∧
    [false, true, false, false, false, false, false, false, false, true] =
      rxBits tenBits.params.rxTieHigh tenBits.rxSpb.toNat tenBits.rxThresh.toNat
        ((List.range tenBits.rxLen.toNat).map fun j => (readEntry tenBits .rxSample j).toNat) := by decide

theorem witness_RxReferenceIsTheMaximum : (3 : Nat) ∈ [2, 3] ∧ [2, 3] ≠ ([] : List Nat) := by decide

theorem witness_RxCountsExactlyTheCompleteGroups : 0x10000 ≤ 0x28000 ∧ 9 < rxGroupCount 0x28000 25 ∧
    (9 + 1) * 0x28000 / 0x10000 ≤ 25 ∧ 1 ≤ 1 := by decide

/-- The last complete group of a capture, and an all-zero capture. -/
theorem witness_RxBitIsTheRationalThresholdVote : groupEnd 0x28000 1 ≤ [0, 0, 3, 3, 3].length ∧ 0 < rxMax [0, 0, 3, 3, 3] ∧
    1 < rxGroupCount 0x28000 [0, 0, 3, 3, 3].length ∧ rxGroupCount 0x28000 [0, 0, 3, 3, 3].length = 2 ∧
    rxMax [0, 0, 0, 0, 0] = 0 := by decide

theorem witness_RxOutputIsBounded : tenBits.params.legal = true ∧ tenBits.rxLen.toNat ≤ tenBits.params.rxDepth ∧
    0x10000 ≤ tenBits.rxSpb.toNat := by decide

theorem witness_RxIsAmplitudeInvariant : 0 < 200 := by decide

/-- The frame of 0x02 at ratio 2 and level 3, with a threshold just below 1. -/
def loopback : State :=
  { capture 0x20000#32 [0, 0, 0, 0, 3, 3, 0, 0, 0, 0, 0, 0, 0, 0, 0, 0, 0, 0, 3, 3] with rxThresh := 0x7FFF#16 }

theorem witness_RxRecoversWhatTheTransmitterFramed : loopback.params.legal = true ∧ loopback.mem.wf = true ∧
    loopback.rxLen.toNat ≤ loopback.params.rxDepth ∧ 1 ≤ 2 ∧ 1 ≤ 3 ∧ loopback.rxSpb.toNat = 2 * 0x10000 ∧
    loopback.rxThresh.toNat < 0x8000 ∧
    rxSamplesOp loopback = ([0x02#8].flatMap fun b => (List.range 10).map ((frameOf b).getLsbD ·)).flatMap
      (fun q => List.replicate 2 (if q then 3 else 0)) ∧
    (loopback.params.rxTieHigh = true → 0 < loopback.rxThresh.toNat) := by decide

/-- The other corner of the same statement: threshold 0 where ties resolve high. -/
theorem witness_RxRecoversWhatTheTransmitterFramed_threshold_0 :
    let s := { loopback with rxThresh := 0#16, params := { smallParams with rxTieHigh := true } }
    s.params.legal = true ∧ s.params.rxTieHigh = true ∧ s.rxThresh.toNat = 0 ∧
    rxSamplesOp s = ([0x02#8].flatMap fun b => (List.range 10).map ((frameOf b).getLsbD ·)).flatMap
      (fun q => List.replicate 2 (if q then 3 else 0)) := by decide

theorem witness_RxThresholdCorners : groupEnd 0x20000 1 ≤ [0, 0, 0, 1].length ∧ 2 * 1 + 2 ≤ [0, 0, 5, 5].length ∧
    (∀ j, 2 * 1 ≤ j → j < 2 * 1 + 2 → [0, 0, 5, 5].getD j 0 = rxMax [0, 0, 5, 5]) ∧ 0 < rxMax [0, 0, 5, 5] := by
  refine ⟨by decide, by decide, ?_, by decide⟩
  intro j h1 h2
  have : j = 2 ∨ j = 3 := by omega
  rcases this with rfl | rfl <;> decide

/-- The clauses for a ratio that is no integer: group 1 at 2.5 samples a bit holds 3 = ceil(2.5) samples, all the maximum; of the
thresholds from 1 on, 1 and 1 + 2^-15 keep 2.5 · t below 3. -/
theorem witness_RxThresholdCorners_non_integer_ratio : 0x10000 ≤ 0x28000 ∧ 0x28000 % 0x10000 ≠ 0 ∧
    groupEnd 0x28000 1 ≤ [0, 0, 5, 5, 5].length ∧
    (groupEnd 0x28000 1 : ℤ) - groupStart 0x28000 1 = ⌈((0x28000 : Nat) : ℚ) / 2 ^ 16⌉ ∧
    (∀ j, groupStart 0x28000 1 ≤ j → j < groupEnd 0x28000 1 → [0, 0, 5, 5, 5].getD j 0 = rxMax [0, 0, 5, 5, 5]) ∧
    0 < rxMax [0, 0, 5, 5, 5] ∧
    (((0x28000 : Nat) : ℚ) / 2 ^ 16) * (((0x8001 : Nat) : ℚ) / 2 ^ 15) < ⌈((0x28000 : Nat) : ℚ) / 2 ^ 16⌉ := by
  have hc : ⌈((0x28000 : Nat) : ℚ) / 2 ^ 16⌉ = 3 := by norm_num [Int.ceil_eq_iff]
  have hs : groupStart 0x28000 1 = 2 := by decide
  have he : groupEnd 0x28000 1 = 5 := by decide
  refine ⟨by decide, by decide, by decide, by rw [hc, hs, he]; rfl, ?_, by decide, by rw [hc]; norm_num⟩
  intro j h1 h2
  have : j = 2 ∨ j = 3 ∨ j = 4 := by omega
  rcases this with rfl | rfl | rfl <;> decide

theorem witness_RxShortCapturesYieldNoByte :
    (capture 0x10000#32 [0, 1, 0, 1, 0, 1, 0, 1, 0]).params.legal = true ∧
    (capture 0x10000#32 [0, 1, 0, 1, 0, 1, 0, 1, 0]).mem.wf = true ∧
    (capture 0x10000#32 [0, 1, 0, 1, 0, 1, 0, 1, 0]).rxLen.toNat ≤ smallParams.rxDepth ∧
    rxGroupCount 0x10000 9 = 9 ∧
    (capture 0x10000#32 []).rxLen.toNat < groupEnd 0x10000 0 ∧
    (capture 0x40000#32 [1, 1, 1]).rxLen.toNat < groupEnd 0x40000 0 := by decide

theorem witness_RxDecodeIsRepeatable : tenBits.params.legal = true ∧ tenBits.mem.wf = true ∧
    tenBits.rxLen.toNat ≤ tenBits.params.rxDepth := by decide

/-- Byte counts at both sides of the boundary 2. -/
theorem witness_SpiReadAssemblesTheDrawnBits :
    small.mem.wf = true ∧ small.spiPos = 0 ∧ small.spiBits = [] ∧ 2 = small.spiByteCount.toNat ∧
    1 = ({ small with spiByteCount := 1#4 } : State).spiByteCount.toNat ∧ 1 < 2 ∧ 2 ≤ 2 := by decide

theorem witness_SpiReadPerformsTheTransaction : small.spiPos = 0 ∧ small.spiBits = [] ∧ 2 = small.spiByteCount.toNat ∧
    false = small.spiMode.getLsbD 0 := by decide

theorem witness_SpiDrawsAreWhateverTheEnvironmentShows : small.spiPos = 0 ∧ small.spiBits = [] ∧ 2 = small.spiByteCount.toNat ∧
    (List.replicate 16 true).length = 8 * 2 := by decide

theorem witness_SpiTransactionIsTimedByTheDivider : small.spiPos = 0 ∧ small.spiBits = [] ∧ 2 = small.spiByteCount.toNat ∧
    2 = 2 * (small.spiClkdiv.toNat + 1) := by decide

theorem witness_SpiAssembleFormsTheReading :
    ({ small with spiByteCount := 1#4 } : State).spiByteCount.toNat < 2 ∧ 2 ≤ small.spiByteCount.toNat := by decide

/-- `small` meets every premise of the step invariants, in both reset levels. -/
theorem witness_small_invariants : small.mem.wf = true ∧ LengthsLegal small ∧ RxCountsBounded small ∧ RxTailZero small ∧
    TxFramesWhole small ∧ OnlyEntriesStored small ∧ PinsAsSpecified small ∧ HeldInReset small ∧
    HeldInReset (assertReset small) := by
  have hw : ∀ a, readWord small.mem a = 0#32 := fun a => (by decide : wordOfLanes 0#8 0#8 0#8 0#8 = 0#32)
  have hz : ∀ b i, readEntry small b i = 0#32 := fun b i => by
    unfold readEntry
    rw [hw]
    simp [entryValue]
  refine ⟨rfl, ⟨by decide, by decide, by decide⟩, ⟨by decide, by decide, by decide⟩, fun k _ _ => hz _ _,
    ⟨rfl, Nat.zero_le _, fun k _ => ?_⟩, ⟨fun _ _ => rfl, fun b i _ => ?_⟩, ⟨rfl, by decide, rfl, rfl⟩,
    fun h => Bool.noConfusion h, fun _ => rfl⟩
  · rw [if_neg (by simp [small, State.reset])]
    exact hz _ _
  · rw [hw]
    exact Nat.two_pow_pos _

/-- Each step invariant's last premise: a step that answers a next state, which writes memory, a length, a result, a frame, the
pins, or nothing under reset. -/
theorem witness_steps_answer_next :
    stepsTo (withInput .idle (.write 0x33000 0xA5#32)) (fun t => t.mem != []) = true ∧
    stepsTo (withInput .idle (.write 0x30038 40#32)) (fun t => t.rxLen == 40#32) = true ∧
    stepsTo { tenBits with phase := .busy .uartRxDecode } (fun t => t.rxNbytes == 1#32) = true ∧
    stepsTo { small with phase := .busy .uartTxBuild, txNbytes := 1#32 } (fun t => t.txNbits == 10#32) = true ∧
    stepsTo (withInput (.busy .spiRead) .spiEvent) (fun t => !t.spiCsN) = true ∧
    stepsTo (assertReset (withInput .idle (.write 0x30010 1#32))) (fun t => t.rst && t.codecValue == 0#32) = true := by decide

end Sys2Proof.Tests
end

-- ==== Reset and empty memory ====
section
/-! What an empty memory reads as, the invariant's clauses that follow from it, and O53. -/

namespace Sys2Proof.Machine

open Sys2Proof

/-- Each of the four lanes is an unlisted byte. -/
@[simp] theorem readWord_nil (a : Nat) : readWord [] a = 0#32 := by
  have lanes : wordOfLanes unlistedByte unlistedByte unlistedByte unlistedByte = 0#32 := by decide
  exact lanes

/-- The reset contents of the buffers, R45 to R49. -/
theorem readEntry_of_mem_nil {s : State} (hm : s.mem = []) (b : Buf) (i : Nat) : readEntry s b i = 0#32 := by
  rw [readEntry, hm, readWord_nil]
  exact entryValue_of_lt (Nat.two_pow_pos _)

theorem rxTailZero_of_mem_nil {s : State} (hm : s.mem = []) : RxTailZero s :=
  fun k _ _ => readEntry_of_mem_nil hm .rxByte k

/-- With TX_NBITS 0 no entry of TX_FRAME is a frame, so each has to read 0. -/
theorem txFramesWhole_of_mem_nil {s : State} (hm : s.mem = []) (hn : s.txNbits = 0#32) : TxFramesWhole s := by
  have hz : s.txNbits.toNat = 0 := by rw [hn]; rfl
  refine ⟨by omega, by omega, fun k _ => ?_⟩
  rw [if_neg (by omega)]
  exact readEntry_of_mem_nil hm .txFrame k

theorem onlyEntriesStored_of_mem_nil {s : State} (hm : s.mem = []) : OnlyEntriesStored s := by
  constructor
  · intro a _
    rw [hm, readByte]
  · intro b i _
    rw [hm, readWord_nil]
    exact Nat.two_pow_pos _

/-- R7's defaults are legal, whatever the free values are: the free latency is one more than a natural number. -/
theorem config_params_legal : Config.params.legal = true := by
  simp [Params.legal, Config.params]

theorem reset_lengthsLegal : LengthsLegal State.reset :=
  ⟨config_params_legal, Nat.zero_le _, Nat.zero_le _⟩

theorem reset_rxCountsBounded : RxCountsBounded State.reset :=
  ⟨Nat.zero_le _, Nat.zero_le _, rfl⟩

/-- The phase is IDLE and MODE is 0, so the pins rest at `spi_cs_n` = 1 and `spi_sclk` = 0. -/
theorem reset_pinsAsSpecified : PinsAsSpecified State.reset := by
  have idle : State.reset.phase ≠ .busy .spiRead := Phase.noConfusion
  rw [PinsAsSpecified, if_neg idle]
  exact ⟨rfl, rfl, rfl, rfl⟩

/-- `State.reset` has `rst` released (log 13), so the clause about a held reset asks nothing of it. -/
theorem reset_heldInReset : HeldInReset State.reset := fun held => Bool.noConfusion held

/-- Settles O53: it holds, clause by clause. -/
theorem resetSatisfiesTheInvariant : Obligations.ResetSatisfiesTheInvariant where
  memory := rfl
  lengths := reset_lengthsLegal
  rxCounts := reset_rxCountsBounded
  rxTail := rxTailZero_of_mem_nil rfl
  txFrames := txFramesWhole_of_mem_nil rfl rfl
  stored := onlyEntriesStored_of_mem_nil rfl
  pins := reset_pinsAsSpecified
  reset := reset_heldInReset

end Sys2Proof.Machine
end

-- ==== The moves of a step ====
section
/-! What one step can do, said once with the input it takes (60_exceptions.md R207), and what register writes leave alone. Every
invariant below is a case analysis over `Move`. -/

namespace Sys2Proof.Machine

open Sys2Proof

/-- One step of `s`, the input it takes already off the schedule: the input (none when nothing is scheduled) and the next state. -/
inductive Move (s : State) : Option Input → State → Prop where
  /-- `rst` is sampled at 1. -/
  | reset : Move s (some (.rst true)) (assertReset s)
  /-- `rst` is sampled at 0. -/
  | release : Move s (some (.rst false)) (releaseReset s)
  /-- Whatever a host read returns, it changes the read port alone. -/
  | read (a : Nat) (data : Word) : Move s (some (.read a)) { s with rdata := data }
  /-- The input is ignored or passed over. -/
  | hold (i : Option Input) : Move s i s
  /-- A host write while IDLE at a register's address. -/
  | writeReg (a : Nat) (v : Word) (r : Reg) (released : s.rst = false) (idle : s.phase = .idle)
      (low : s.params.base + regOffset r ≤ a) (high : a < s.params.base + regOffset r + 4) :
      Move s (some (.write a v)) (writeReg s v r)
  /-- A host write while IDLE to an entry of an RW buffer. -/
  | writeEntry (a : Nat) (v : Word) (b : Buf) (k : Nat) (idle : s.phase = .idle) (writable : bufWritable b = true)
      (below : k < bufDepth s.params b) : Move s (some (.write a v)) (writeEntry s b k v)
  /-- A host write of STATUS while BUSY. -/
  | clearFlags (a : Nat) (v : Word) (op : Instr) (released : s.rst = false) (busy : s.phase = .busy op)
      (low : s.params.base + regOffset .status ≤ a) (high : a < s.params.base + regOffset .status + 4) :
      Move s (some (.write a v)) { s with status := clearStatus v s.status }
  /-- Any other host write while BUSY. -/
  | reject (a : Nat) (v : Word) (op : Instr) (busy : s.phase = .busy op) : Move s (some (.write a v)) (setCmdRej s)
  /-- The next pin event or draw of a running SPI_READ. -/
  | spiEvent (e : Nat × SpiOp) (es : List (Nat × SpiOp)) (busy : s.phase = .busy .spiRead) (next : spiRemaining s = e :: es) :
      Move s (some .spiEvent) (performSpiOp s e)
  /-- The completion of the issued command. -/
  | complete (i : Option Input) (op : Instr) (t : State) (busy : s.phase = .busy op) (run : exec op s = .next t) : Move s i t

/-- An address of the window that selects an offset is one of the four from it (20_memory.md R60). -/
theorem address_of_locationOffset {p : Params} {a off : Nat} (hw : inWindow p a = true) (ho : locationOffset p a = off) :
    p.base + off ≤ a ∧ a < p.base + off + 4 := by
  have hin := inWindow_iff.mp hw
  unfold locationOffset at ho
  omega

theorem move_of_hostWrite (s : State) (a : Nat) (v : Word) : Move s (some (.write a v)) (hostWrite s a v) := by
  cases hp : s.phase with
  | idle =>
    rcases hostWrite_idle (a := a) (v := v) hp with h | ⟨hr, hw, ⟨r, ho, h⟩ | ⟨b, k, hk, hb, -, h⟩⟩
    · rw [h]
      exact .hold _
    · obtain ⟨low, high⟩ := address_of_locationOffset hw ho
      rw [h]
      exact .writeReg a v r hr hp low high
    · rw [h]
      exact .writeEntry a v b k hp hb hk
  | busy op =>
    rcases hostWrite_busy (a := a) (v := v) hp with h | ⟨hr, hw, ⟨ho, h⟩ | h⟩
    · rw [h]
      exact .hold _
    · obtain ⟨low, high⟩ := address_of_locationOffset hw ho
      rw [h]
      exact .clearFlags a v op hr hp low high
    · rw [h]
      exact .reject a v op hp

theorem move_of_spiEventStep (s : State) : Move s (some .spiEvent) (spiEventStep s) := by
  rcases spiEventStep_cases s with h | ⟨hp, e, es, hn, h⟩
  · rw [h]
    exact .hold _
  · rw [h]
    exact .spiEvent e es hp hn

/-- Every step takes what stands first in the schedule, if anything does, and is a move from the state without it. -/
theorem step_move {s t : State} (h : step s = .next t) :
    ∃ i rest, s.inputs = i.toList ++ rest ∧ Move (setInputs rest s) i t := by
  rcases step_cases h with ⟨rest, hin, rfl⟩ | ⟨rest, hin, rfl⟩ | ⟨a, rest, hin, rfl⟩ | ⟨a, v, rest, hin, rfl⟩ |
    ⟨rest, hin, rfl⟩ | ⟨rest, hin, ht⟩
  · exact ⟨some (.rst true), rest, hin, .reset⟩
  · exact ⟨some (.rst false), rest, hin, .release⟩
  · refine ⟨some (.read a), rest, hin, ?_⟩
    rw [hostRead_eq]
    exact .read a _
  · exact ⟨some (.write a v), rest, hin, move_of_hostWrite _ a v⟩
  · exact ⟨some .spiEvent, rest, hin, move_of_spiEventStep _⟩
  · have key : ∀ i, Move (setInputs rest s) i t := by
      intro i
      rcases ht with ⟨-, rfl⟩ | ⟨op, hp, he⟩
      · exact .hold i
      · exact .complete i op t hp he
    rcases hin with hin | ⟨hin, rfl⟩
    · exact ⟨some .complete, rest, hin, key _⟩
    · exact ⟨none, [], hin, key _⟩

/-! ### What the operations leave alone -/

/-- A register write leaves results, memory, `spi_cs_n` and all that is no register alone. -/
theorem writeReg_eq (s : State) (v : Word) (r : Reg) :
    writeReg s v r =
      { s with
        phase := (writeReg s v r).phase, status := (writeReg s v r).status, codecValue := (writeReg s v r).codecValue
        codecMax := (writeReg s v r).codecMax, codecMin := (writeReg s v r).codecMin, codecTag := (writeReg s v r).codecTag
        codecFrame := (writeReg s v r).codecFrame, rxSpb := (writeReg s v r).rxSpb, rxThresh := (writeReg s v r).rxThresh
        rxLen := (writeReg s v r).rxLen, txNbytes := (writeReg s v r).txNbytes, spiMode := (writeReg s v r).spiMode
        spiOrder := (writeReg s v r).spiOrder, spiByteCount := (writeReg s v r).spiByteCount
        spiClkdiv := (writeReg s v r).spiClkdiv, spiSclk := (writeReg s v r).spiSclk, spiPos := (writeReg s v r).spiPos
        spiBits := (writeReg s v r).spiBits } := by
  cases r with
  | cmd =>
    simp only [writeReg, writeCommand]
    split <;> rfl
  | _ => rfl

@[simp] theorem writeReg_params (s : State) (v : Word) (r : Reg) : (writeReg s v r).params = s.params := by
  rw [writeReg_eq]

@[simp] theorem writeReg_codecDecRaw (s : State) (v : Word) (r : Reg) : (writeReg s v r).codecDecRaw = s.codecDecRaw := by
  rw [writeReg_eq]

@[simp] theorem writeReg_codecDecTag (s : State) (v : Word) (r : Reg) : (writeReg s v r).codecDecTag = s.codecDecTag := by
  rw [writeReg_eq]

@[simp] theorem writeReg_rxNbytes (s : State) (v : Word) (r : Reg) : (writeReg s v r).rxNbytes = s.rxNbytes := by
  rw [writeReg_eq]

@[simp] theorem writeReg_rxNbits (s : State) (v : Word) (r : Reg) : (writeReg s v r).rxNbits = s.rxNbits := by
  rw [writeReg_eq]

@[simp] theorem writeReg_rxNdrop (s : State) (v : Word) (r : Reg) : (writeReg s v r).rxNdrop = s.rxNdrop := by
  rw [writeReg_eq]

@[simp] theorem writeReg_txNbits (s : State) (v : Word) (r : Reg) : (writeReg s v r).txNbits = s.txNbits := by
  rw [writeReg_eq]

@[simp] theorem writeReg_spiReading (s : State) (v : Word) (r : Reg) : (writeReg s v r).spiReading = s.spiReading := by
  rw [writeReg_eq]

@[simp] theorem writeReg_mem (s : State) (v : Word) (r : Reg) : (writeReg s v r).mem = s.mem := by
  rw [writeReg_eq]

/-- A pin event or draw moves the pins, the transaction's progress, the levels drawn and the history alone. -/
theorem performSpiOp_eq (s : State) (e : Nat × SpiOp) :
    performSpiOp s e =
      { s with
        spiSclk := (performSpiOp s e).spiSclk, spiCsN := (performSpiOp s e).spiCsN, spiPos := (performSpiOp s e).spiPos
        spiBits := (performSpiOp s e).spiBits, miso := (performSpiOp s e).miso
        misoDrawn := (performSpiOp s e).misoDrawn, history := (performSpiOp s e).history } := by
  obtain ⟨c, op⟩ := e
  cases op <;> rfl

theorem exec_params {op : Instr} {s t : State} (h : exec op s = .next t) : t.params = s.params :=
  (congrArg State.params (exec_frame h).2 :)

theorem exec_rxLen {op : Instr} {s t : State} (h : exec op s = .next t) : t.rxLen = s.rxLen :=
  (congrArg State.rxLen (exec_frame h).2 :)

theorem exec_txNbytes {op : Instr} {s t : State} (h : exec op s = .next t) : t.txNbytes = s.txNbytes :=
  (congrArg State.txNbytes (exec_frame h).2 :)

theorem exec_inputs {op : Instr} {s t : State} (h : exec op s = .next t) : t.inputs = s.inputs :=
  (congrArg State.inputs (exec_frame h).2 :)

/-- No step changes the parameters. -/
theorem Move.params {s t : State} {i : Option Input} (h : Move s i t) : t.params = s.params := by
  cases h with
  | writeReg a v r => exact writeReg_params s v r
  | spiEvent e es => rw [performSpiOp_eq]
  | complete _ op _ _ run => exact exec_params run
  | _ => rfl

end Sys2Proof.Machine
end

-- ==== Lengths within their depths ====
section
/-! RX_LEN and TX_NBYTES are clamped as they are written (10_state.md R36, R40), and nothing else writes them. -/

namespace Sys2Proof.Machine

open Sys2Proof

/-- What a WARL length stores: `min(u32(v), depth)`, whatever the depth. -/
theorem toNat_clampedLength (v : Word) (depth : Nat) : (BitVec.ofNat 32 (min v.toNat depth)).toNat = min v.toNat depth := by
  rw [BitVec.toNat_ofNat, Nat.mod_eq_of_lt]
  exact lt_of_le_of_lt (Nat.min_le_left _ _) v.isLt

theorem lengthsLegal_congr {s t : State} (hp : t.params = s.params) (hr : t.rxLen = s.rxLen) (ht : t.txNbytes = s.txNbytes)
    (h : LengthsLegal s) : LengthsLegal t := by
  unfold LengthsLegal
  rwa [hp, hr, ht]

theorem lengthsLegal_writeReg {s : State} (v : Word) (r : Reg) (h : LengthsLegal s) : LengthsLegal (writeReg s v r) := by
  obtain ⟨hp, hr, ht⟩ := h
  cases r with
  | rxLen => exact ⟨hp, (toNat_clampedLength v _).trans_le (Nat.min_le_right _ _), ht⟩
  | txNbytes => exact ⟨hp, hr, (toNat_clampedLength v _).trans_le (Nat.min_le_right _ _)⟩
  | cmd =>
    simp only [writeReg, writeCommand]
    split <;> exact ⟨hp, hr, ht⟩
  | _ => exact ⟨hp, hr, ht⟩

theorem Move.lengthsLegal {s t : State} {i : Option Input} (m : Move s i t) (h : LengthsLegal s) : LengthsLegal t := by
  cases m with
  | reset => exact ⟨h.1, Nat.zero_le _, Nat.zero_le _⟩
  | writeReg a v r => exact lengthsLegal_writeReg v r h
  | spiEvent e es =>
    rw [performSpiOp_eq]
    exact h
  | complete _ op _ _ run => exact lengthsLegal_congr (exec_params run) (exec_rxLen run) (exec_txNbytes run) h
  | _ => exact h

/-- Settles O55: it holds; only a register write can change a length, and it stores the clamped value. -/
theorem stepKeepsLengthsLegal : Obligations.StepKeepsLengthsLegal := by
  intro s t h hs
  obtain ⟨i, rest, -, m⟩ := step_move hs
  exact ⟨m.params, m.lengthsLegal h⟩

end Sys2Proof.Machine
end

-- ==== Results change at completions alone ====
section
/-! What each command may change, and from it that a result moves only at a completion that writes it or at reset (10_state.md R33,
R37 to R39, R41, R44, R46, R48). The invariants of the receiver and the transmitter rest on this. -/

namespace Sys2Proof.Machine

open Sys2Proof

/-- `s` with what the completion of a command may change taken from `t`: STATUS, the phase and the command's own results. -/
def withChangesOf (op : Instr) (t s : State) : State :=
  match op with
  | .codecEnc => { s with phase := t.phase, status := t.status, codecFrame := t.codecFrame }
  | .codecDec => { s with phase := t.phase, status := t.status, codecDecRaw := t.codecDecRaw, codecDecTag := t.codecDecTag }
  | .uartRxDecode =>
    { s with
      phase := t.phase, status := t.status, mem := t.mem, rxNbytes := t.rxNbytes, rxNbits := t.rxNbits
      rxNdrop := t.rxNdrop }
  | .uartTxBuild => { s with phase := t.phase, status := t.status, mem := t.mem, txNbits := t.txNbits }
  | .spiRead =>
    { s with
      phase := t.phase, status := t.status, mem := t.mem, spiReading := t.spiReading, spiSclk := t.spiSclk
      spiCsN := t.spiCsN, spiPos := t.spiPos, spiBits := t.spiBits, miso := t.miso, misoDrawn := t.misoDrawn
      history := t.history }
  | .spiAssemble => { s with phase := t.phase, status := t.status, spiReading := t.spiReading }

theorem exec_changes {op : Instr} {s t : State} (h : exec op s = .next t) : t = withChangesOf op t s := by
  cases op with
  | uartRxDecode =>
    simp only [exec, execUartRxDecode] at h
    split at h <;> (injection h with h; subst h; apply State.ext <;> simp [withChangesOf])
  | uartTxBuild =>
    simp only [exec, execUartTxBuild] at h
    injection h with h; subst h; apply State.ext <;> simp [withChangesOf]
  | spiRead =>
    simp only [exec, execSpiRead] at h
    injection h with h; subst h; apply State.ext <;> simp [withChangesOf]
  | _ => injection h with h; subst h; rfl

/-- The buffer that a command's completion fills. -/
def resultBuf : Instr → Option Buf
  | .uartRxDecode => some .rxByte
  | .uartTxBuild => some .txFrame
  | .spiRead => some .spiByte
  | .codecEnc => none
  | .codecDec => none
  | .spiAssemble => none

theorem readEntry_congr {s t : State} (hp : t.params = s.params) {b : Buf} {k : Nat}
    (hm : readWord t.mem (bufAddr b k) = readWord s.mem (bufAddr b k)) : readEntry t b k = readEntry s b k := by
  rw [readEntry, readEntry, hp, hm]

/-- A completion leaves every entry of the buffers that it does not fill alone. -/
theorem exec_readEntry {op : Instr} {s t : State} {b : Buf} {k : Nat} (hp : s.params.legal = true) (h : exec op s = .next t)
    (hb : resultBuf op ≠ some b) (hk : k < bufDepth s.params b) : readEntry t b k = readEntry s b k := by
  apply readEntry_congr (exec_params h)
  rcases exec_mem h with hm | ⟨rfl, out, hm⟩ | ⟨rfl, hm⟩ | ⟨rfl, hm⟩
  · rw [hm]
  · rw [hm, readWord_fillBuffer_other hp (fun e => hb (congrArg some e)) hk]
  · rw [hm, readWord_fillBuffer_other hp (fun e => hb (congrArg some e)) hk]
  · rw [hm, readWord_fillBuffer_other (by simpa using hp) (fun e => hb (congrArg some e)) (by simpa using hk), spiFinish_mem]

/-- A write of an entry leaves every word of another buffer alone. -/
theorem readWord_writeEntry_other {s : State} {b c : Buf} {i k : Nat} {v : Word} (hp : s.params.legal = true) (hbc : b ≠ c)
    (hi : i < bufDepth s.params b) (hk : k < bufDepth s.params c) :
    readWord (writeEntry s b i v).mem (bufAddr c k) = readWord s.mem (bufAddr c k) := by
  have apart := bufs_apart hp hbc
  rw [writeEntry_mem, readWord_writeWord_apart]
  simp only [bufAddr]
  omega

theorem readEntry_writeEntry_other {s : State} {b c : Buf} {i k : Nat} {v : Word} (hp : s.params.legal = true) (hbc : b ≠ c)
    (hi : i < bufDepth s.params b) (hk : k < bufDepth s.params c) :
    readEntry (writeEntry s b i v) c k = readEntry s c k :=
  readEntry_congr (writeEntry_params s b i v) (readWord_writeEntry_other hp hbc hi hk)

/-- The receiver's results are the same in both states: its counts and RX_BYTE. -/
def RxResultsKept (s t : State) : Prop :=
  t.rxNbytes = s.rxNbytes ∧ t.rxNbits = s.rxNbits ∧ t.rxNdrop = s.rxNdrop ∧
    ∀ k, k < s.params.rxOutDepth → readEntry t .rxByte k = readEntry s .rxByte k

/-- The transmitter's results are the same in both states: TX_NBITS and TX_FRAME. -/
def TxResultsKept (s t : State) : Prop :=
  t.txNbits = s.txNbits ∧ ∀ k, k < s.params.txDepth → readEntry t .txFrame k = readEntry s .txFrame k

/-- Every result that the host cannot write is the same in both states. -/
structure ResultsKept (s t : State) : Prop where
  decoded : t.codecDecRaw = s.codecDecRaw ∧ t.codecDecTag = s.codecDecTag
  received : RxResultsKept s t
  framed : TxResultsKept s t
  reading : t.spiReading = s.spiReading

/-- Where memory is kept, so are the entries of both RO buffers. -/
theorem resultsKept_of_mem {s t : State} (hp : t.params = s.params) (hm : t.mem = s.mem)
    (hdec : t.codecDecRaw = s.codecDecRaw ∧ t.codecDecTag = s.codecDecTag)
    (hrx : t.rxNbytes = s.rxNbytes ∧ t.rxNbits = s.rxNbits ∧ t.rxNdrop = s.rxNdrop) (htx : t.txNbits = s.txNbits)
    (hspi : t.spiReading = s.spiReading) : ResultsKept s t := by
  have entries : ∀ b k, readEntry t b k = readEntry s b k := fun b k => readEntry_congr hp (by rw [hm])
  obtain ⟨hbytes, hbits, hdrop⟩ := hrx
  exact ⟨hdec, ⟨hbytes, hbits, hdrop, fun k _ => entries _ k⟩, ⟨htx, fun k _ => entries _ k⟩, hspi⟩

theorem resultsKept_writeReg (s : State) (v : Word) (r : Reg) : ResultsKept s (writeReg s v r) := by
  apply resultsKept_of_mem <;> simp

/-- RX_BYTE and TX_FRAME are RO, so an entry that the host writes is in neither. -/
theorem resultsKept_writeEntry {s : State} {b : Buf} {i : Nat} {v : Word} (hp : s.params.legal = true)
    (hb : bufWritable b = true) (hi : i < bufDepth s.params b) : ResultsKept s (writeEntry s b i v) := by
  have hrx : b ≠ .rxByte := by rintro rfl; cases hb
  have htx : b ≠ .txFrame := by rintro rfl; cases hb
  exact ⟨⟨rfl, rfl⟩, ⟨rfl, rfl, rfl, fun _ hk => readEntry_writeEntry_other hp hrx hi hk⟩,
    ⟨rfl, fun _ hk => readEntry_writeEntry_other hp htx hi hk⟩, rfl⟩

/-- Results move at reset and at completions alone. -/
theorem Move.results {s t : State} {i : Option Input} (m : Move s i t) (hp : s.params.legal = true) :
    t = assertReset s ∨ ResultsKept s t ∨ ∃ op, s.phase = .busy op ∧ exec op s = .next t := by
  cases m with
  | reset => exact .inl rfl
  | writeReg a v r => exact .inr (.inl (resultsKept_writeReg s v r))
  | writeEntry a v b k _ hb hk => exact .inr (.inl (resultsKept_writeEntry hp hb hk))
  | spiEvent e es =>
    rw [performSpiOp_eq]
    exact .inr (.inl (resultsKept_of_mem rfl rfl ⟨rfl, rfl⟩ ⟨rfl, rfl, rfl⟩ rfl rfl))
  | complete _ op _ hb run => exact .inr (.inr ⟨op, hb, run⟩)
  | _ => exact .inr (.inl (resultsKept_of_mem rfl rfl ⟨rfl, rfl⟩ ⟨rfl, rfl, rfl⟩ rfl rfl))

theorem exec_codecDec_kept {op : Instr} {s t : State} (hop : op ≠ .codecDec) (h : exec op s = .next t) :
    t.codecDecRaw = s.codecDecRaw ∧ t.codecDecTag = s.codecDecTag := by
  rw [exec_changes h]
  cases op with
  | codecDec => exact absurd rfl hop
  | _ => exact ⟨rfl, rfl⟩

theorem exec_rxResults_kept {op : Instr} {s t : State} (hp : s.params.legal = true) (hop : op ≠ .uartRxDecode)
    (h : exec op s = .next t) : RxResultsKept s t := by
  have hb : resultBuf op ≠ some .rxByte := by
    cases op with
    | uartRxDecode => exact absurd rfl hop
    | _ => simp [resultBuf]
  have counts : t.rxNbytes = s.rxNbytes ∧ t.rxNbits = s.rxNbits ∧ t.rxNdrop = s.rxNdrop := by
    rw [exec_changes h]
    cases op with
    | uartRxDecode => exact absurd rfl hop
    | _ => exact ⟨rfl, rfl, rfl⟩
  obtain ⟨hbytes, hbits, hdrop⟩ := counts
  exact ⟨hbytes, hbits, hdrop, fun k hk => exec_readEntry hp h hb hk⟩

theorem exec_txResults_kept {op : Instr} {s t : State} (hp : s.params.legal = true) (hop : op ≠ .uartTxBuild)
    (h : exec op s = .next t) : TxResultsKept s t := by
  have hb : resultBuf op ≠ some .txFrame := by
    cases op with
    | uartTxBuild => exact absurd rfl hop
    | _ => simp [resultBuf]
  have hbits : t.txNbits = s.txNbits := by
    rw [exec_changes h]
    cases op with
    | uartTxBuild => exact absurd rfl hop
    | _ => rfl
  exact ⟨hbits, fun k hk => exec_readEntry hp h hb hk⟩

theorem exec_spiReading_kept {op : Instr} {s t : State} (hread : op ≠ .spiRead) (hasm : op ≠ .spiAssemble)
    (h : exec op s = .next t) : t.spiReading = s.spiReading := by
  rw [exec_changes h]
  cases op with
  | spiRead => exact absurd rfl hread
  | spiAssemble => exact absurd rfl hasm
  | _ => rfl

/-- The receiver's results move at reset and at the completion of UART_RX_DECODE alone. -/
theorem Move.rxResults {s t : State} {i : Option Input} (m : Move s i t) (hp : s.params.legal = true) :
    t = assertReset s ∨ RxResultsKept s t ∨ (s.phase = .busy .uartRxDecode ∧ exec .uartRxDecode s = .next t) := by
  rcases m.results hp with h | h | ⟨op, hb, run⟩
  · exact .inl h
  · exact .inr (.inl h.received)
  · by_cases hop : op = .uartRxDecode
    · exact .inr (.inr ⟨hop ▸ hb, hop ▸ run⟩)
    · exact .inr (.inl (exec_rxResults_kept hp hop run))

/-- The transmitter's results move at reset and at the completion of UART_TX_BUILD alone. -/
theorem Move.txResults {s t : State} {i : Option Input} (m : Move s i t) (hp : s.params.legal = true) :
    t = assertReset s ∨ TxResultsKept s t ∨ (s.phase = .busy .uartTxBuild ∧ exec .uartTxBuild s = .next t) := by
  rcases m.results hp with h | h | ⟨op, hb, run⟩
  · exact .inl h
  · exact .inr (.inl h.framed)
  · by_cases hop : op = .uartTxBuild
    · exact .inr (.inr ⟨hop ▸ hb, hop ▸ run⟩)
    · exact .inr (.inl (exec_txResults_kept hp hop run))

/-- CODEC_DEC moves at reset and at the completion of its command alone. -/
theorem Move.decResults {s t : State} {i : Option Input} (m : Move s i t) (hp : s.params.legal = true) :
    t = assertReset s ∨ (t.codecDecRaw = s.codecDecRaw ∧ t.codecDecTag = s.codecDecTag) ∨
      (s.phase = .busy .codecDec ∧ exec .codecDec s = .next t) := by
  rcases m.results hp with h | h | ⟨op, hb, run⟩
  · exact .inl h
  · exact .inr (.inl h.decoded)
  · by_cases hop : op = .codecDec
    · exact .inr (.inr ⟨hop ▸ hb, hop ▸ run⟩)
    · exact .inr (.inl (exec_codecDec_kept hop run))

/-- SPI_READING moves at reset and at the completions of SPI_READ and SPI_ASSEMBLE alone. -/
theorem Move.reading {s t : State} {i : Option Input} (m : Move s i t) (hp : s.params.legal = true) :
    t = assertReset s ∨ t.spiReading = s.spiReading ∨
      ∃ op, (op = .spiRead ∨ op = .spiAssemble) ∧ s.phase = .busy op ∧ exec op s = .next t := by
  rcases m.results hp with h | h | ⟨op, hb, run⟩
  · exact .inl h
  · exact .inr (.inl h.reading)
  · by_cases hop : op = .spiRead ∨ op = .spiAssemble
    · exact .inr (.inr ⟨op, hop, hb, run⟩)
    · obtain ⟨hread, hasm⟩ := not_or.mp hop
      exact .inr (.inl (exec_spiReading_kept hread hasm run))

/-- A state just reset has `rst` at 1. -/
theorem ne_assertReset_of_released {s t : State} (hr : t.rst = false) : t ≠ assertReset s := by
  rintro rfl
  exact Bool.noConfusion hr

/-- Settles O10: it holds; each result is traced to its own completion. -/
theorem resultsChangeOnlyAtTheirCompletion : Obligations.ResultsChangeOnlyAtTheirCompletion := by
  intro s t hp hs hr
  obtain ⟨i, rest, -, m⟩ := step_move hs
  have notReset := ne_assertReset_of_released (s := setInputs rest s) hr
  refine ⟨fun hne => ?_, fun hne => ?_, fun hne => ?_, fun hne => ?_⟩
  · rcases m.decResults hp with h | ⟨hraw, htag⟩ | ⟨hb, run⟩
    · exact absurd h notReset
    · exact absurd hne (not_or.mpr ⟨not_not_intro hraw, not_not_intro htag⟩)
    · exact ⟨hb, (exec_frame run).1⟩
  · rcases m.rxResults hp with h | ⟨hbytes, hbits, hdrop, hent⟩ | ⟨hb, run⟩
    · exact absurd h notReset
    · rcases hne with h | h | h | ⟨k, hk, h⟩
      exacts [absurd hbytes h, absurd hbits h, absurd hdrop h, absurd (hent k hk) h]
    · exact ⟨hb, (exec_frame run).1⟩
  · rcases m.txResults hp with h | ⟨hbits, hent⟩ | ⟨hb, run⟩
    · exact absurd h notReset
    · rcases hne with h | ⟨k, hk, h⟩
      exacts [absurd hbits h, absurd (hent k hk) h]
    · exact ⟨hb, (exec_frame run).1⟩
  · rcases m.reading hp with h | h | ⟨op, hop, hb, run⟩
    · exact absurd h notReset
    · exact absurd h hne
    · refine ⟨?_, (exec_frame run).1⟩
      rcases hop with rfl | rfl
      exacts [.inl hb, .inr hb]

end Sys2Proof.Machine
end

-- ==== The receiver's results ====
section
/-! What UART_RX_DECODE leaves, and that its counts stay bounded with RX_BYTE 0 beyond them (10_state.md R37, R38, R46;
41_uart_rx.md R133). -/

namespace Sys2Proof.Machine

open Sys2Proof

/-- The results of a decode, in both its paths: those of some resolved bits, no more than there are samples. A ratio below 1
(41_uart_rx.md R121) gives those of no bits. -/
theorem exec_uartRxDecode_results {s t : State} (h : exec .uartRxDecode s = .next t) :
    ∃ bits : List Bool, bits.length ≤ s.rxLen.toNat ∧ t.rxNbytes = BitVec.ofNat 32 (rxOut bits).length ∧
      t.rxNbits = BitVec.ofNat 32 bits.length ∧ t.rxNdrop = BitVec.ofNat 32 (rxDropped bits) ∧
      t.mem = (fillBuffer s .rxByte (rxEntryOf (rxOut bits))).mem := by
  simp only [exec, execUartRxDecode] at h
  split at h <;> (injection h with h; subst h)
  · exact ⟨[], Nat.zero_le _, rfl, rfl, rfl, rfl⟩
  · refine ⟨_, ?_, rfl, rfl, rfl, rfl⟩
    rw [rxBits_length, rxSamplesOp_length]
    exact rxGroupCount_le _ _

theorem rxCountsBounded_exec_uartRxDecode {s t : State} (hl : LengthsLegal s) (h : exec .uartRxDecode s = .next t) :
    RxCountsBounded t := by
  obtain ⟨bits, hlen, hbytes, hbits, hdrop, -⟩ := exec_uartRxDecode_results h
  have hp := exec_params h
  obtain ⟨-, hdepth, -⟩ := hl
  have words := rxOut_length_add_dropped bits
  have small := s.rxLen.isLt
  unfold RxCountsBounded Params.rxOutDepth
  rw [hbytes, hbits, hdrop, hp, BitVec.toNat_ofNat, BitVec.toNat_ofNat, BitVec.toNat_ofNat, Nat.mod_eq_of_lt (by omega),
    Nat.mod_eq_of_lt (by omega), Nat.mod_eq_of_lt (by omega)]
  omega

/-- An entry of RX_BYTE from the number of bytes recovered on is written 0. -/
theorem rxEntryOf_of_le {out : List Byte} {k : Nat} (h : out.length ≤ k) : rxEntryOf out k = 0#32 := by
  rw [rxEntryOf, List.getD_eq_default _ _ h]
  rfl

theorem rxTailZero_exec_uartRxDecode {s t : State} (hw : s.mem.wf = true)
    (h : exec .uartRxDecode s = .next t) : RxTailZero t := by
  obtain ⟨bits, hlen, hbytes, -, -, hm⟩ := exec_uartRxDecode_results h
  have words := rxOut_length_add_dropped bits
  have small := s.rxLen.isLt
  have hp := exec_params h
  intro k hk hd
  rw [hbytes, BitVec.toNat_ofNat, Nat.mod_eq_of_lt (by omega)] at hk
  rw [hp] at hd
  have entry : readEntry t .rxByte k = readEntry (fillBuffer s .rxByte (rxEntryOf (rxOut bits))) .rxByte k :=
    readEntry_congr (by simp [hp]) (by rw [hm])
  rw [entry, readEntry_fillBuffer hw hd, rxEntryOf_of_le hk]
  exact entryValue_of_lt (Nat.two_pow_pos _)

theorem rxCountsBounded_of_kept {s t : State} (hp : t.params = s.params) (hk : RxResultsKept s t) (h : RxCountsBounded s) :
    RxCountsBounded t := by
  obtain ⟨hbytes, hbits, hdrop, -⟩ := hk
  unfold RxCountsBounded
  rwa [hp, hbytes, hbits, hdrop]

theorem rxTailZero_of_kept {s t : State} (hp : t.params = s.params) (hk : RxResultsKept s t) (h : RxTailZero s) :
    RxTailZero t := by
  obtain ⟨hbytes, -, -, hent⟩ := hk
  intro k hle hlt
  rw [hbytes] at hle
  rw [hp] at hlt
  rw [hent k hlt]
  exact h k hle hlt

theorem rxCountsBounded_assertReset (s : State) : RxCountsBounded (assertReset s) := by
  refine ⟨Nat.zero_le _, Nat.zero_le _, ?_⟩
  simp [assertReset, State.reset]

/-- The results after a move are those of a decode, of reset, or what they were. -/
theorem Move.rxConsistent {s t : State} {i : Option Input} (m : Move s i t) (hw : s.mem.wf = true) (hl : LengthsLegal s)
    (hc : RxCountsBounded s) (htail : RxTailZero s) : RxCountsBounded t ∧ RxTailZero t := by
  rcases m.rxResults hl.1 with rfl | kept | ⟨-, run⟩
  · exact ⟨rxCountsBounded_assertReset s, rxTailZero_of_mem_nil rfl⟩
  · exact ⟨rxCountsBounded_of_kept m.params kept hc, rxTailZero_of_kept m.params kept htail⟩
  · exact ⟨rxCountsBounded_exec_uartRxDecode hl run, rxTailZero_exec_uartRxDecode hw run⟩

/-- Settles O56: it holds, since every step is a move. -/
theorem stepKeepsReceiverResultsConsistent : Obligations.StepKeepsReceiverResultsConsistent := by
  intro s t hw hl hc htail hs
  obtain ⟨i, rest, -, m⟩ := step_move hs
  exact m.rxConsistent hw hl hc htail

end Sys2Proof.Machine
end

-- ==== The transmitter's frames ====
section
/-! What UART_TX_BUILD leaves, and that TX_FRAME stays whole (10_state.md R48; 42_uart_tx.md R155, R157). -/

namespace Sys2Proof.Machine

open Sys2Proof

/-- The start bit of a frame is 0 (42_uart_tx.md R151). -/
theorem frameOf_start (b : Byte) : (frameOf b).getLsbD 0 = false := by
  simp [frameOf]

/-- The stop bit of a frame is 1 (42_uart_tx.md R151). -/
theorem frameOf_stop (b : Byte) : (frameOf b).getLsbD 9 = true := by
  simp [frameOf]

theorem exec_uartTxBuild_results {s t : State} (h : exec .uartTxBuild s = .next t) :
    t.txNbits = BitVec.ofNat 32 (10 * txCountOp s) ∧ t.mem = (fillBuffer s .txFrame (txEntryOf s)).mem := by
  injection h with h
  subst h
  exact ⟨rfl, rfl⟩

/-- What UART_TX_BUILD writes fits an entry of TX_FRAME. -/
theorem txEntryOf_lt (s : State) (k : Nat) : (txEntryOf s k).toNat < 2 ^ 10 := by
  unfold txEntryOf
  split
  · rw [BitVec.toNat_setWidth]
    exact lt_of_le_of_lt (Nat.mod_le _ _) (frameOf _).isLt
  · exact Nat.two_pow_pos _

theorem readEntry_exec_uartTxBuild {s t : State} (hw : s.mem.wf = true) (h : exec .uartTxBuild s = .next t) {k : Nat}
    (hk : k < s.params.txDepth) : readEntry t .txFrame k = txEntryOf s k := by
  obtain ⟨-, hm⟩ := exec_uartTxBuild_results h
  have entry : readEntry t .txFrame k = readEntry (fillBuffer s .txFrame (txEntryOf s)) .txFrame k :=
    readEntry_congr (by simp [exec_params h]) (by rw [hm])
  rw [entry, readEntry_fillBuffer hw hk]
  exact entryValue_of_lt (txEntryOf_lt s k)

theorem txFramesWhole_exec_uartTxBuild {s t : State} (hw : s.mem.wf = true) (hl : LengthsLegal s)
    (h : exec .uartTxBuild s = .next t) : TxFramesWhole t := by
  obtain ⟨hbits, -⟩ := exec_uartTxBuild_results h
  obtain ⟨hp, -, hdepth⟩ := hl
  have hmax : s.params.txDepth ≤ 256 := by
    simp only [Params.legal, Bool.and_eq_true, decide_eq_true_eq] at hp
    omega
  have hcount : t.txNbits.toNat = 10 * s.txNbytes.toNat := by
    rw [hbits, BitVec.toNat_ofNat, txCountOp, Nat.mod_eq_of_lt (by omega)]
  unfold TxFramesWhole
  rw [hcount, exec_params h]
  refine ⟨by omega, by omega, fun k hk => ?_⟩
  rw [readEntry_exec_uartTxBuild hw h hk, txEntryOf, txCountOp]
  by_cases hframe : k < s.txNbytes.toNat
  · rw [if_pos hframe, if_pos (by omega)]
    rw [BitVec.getLsbD_setWidth, BitVec.getLsbD_setWidth, frameOf_start, frameOf_stop]
    exact ⟨rfl, rfl⟩
  · rw [if_neg hframe, if_neg (by omega)]

theorem txFramesWhole_of_kept {s t : State} (hp : t.params = s.params) (hk : TxResultsKept s t) (h : TxFramesWhole s) :
    TxFramesWhole t := by
  obtain ⟨hbits, hent⟩ := hk
  obtain ⟨hten, hmax, hframes⟩ := h
  unfold TxFramesWhole
  rw [hp, hbits]
  refine ⟨hten, hmax, fun k hlt => ?_⟩
  rw [hent k hlt]
  exact hframes k hlt

/-- The frames after a move are those of a build, of reset, or what they were. -/
theorem Move.txFramesWhole {s t : State} {i : Option Input} (m : Move s i t) (hw : s.mem.wf = true) (hl : LengthsLegal s)
    (hf : TxFramesWhole s) : TxFramesWhole t := by
  rcases m.txResults hl.1 with rfl | kept | ⟨-, run⟩
  · exact txFramesWhole_of_mem_nil rfl rfl
  · exact txFramesWhole_of_kept m.params kept hf
  · exact txFramesWhole_exec_uartTxBuild hw hl run

/-- Settles O57: it holds, since every step is a move. -/
theorem stepKeepsTransmitFramesWhole : Obligations.StepKeepsTransmitFramesWhole := by
  intro s t hw hl hf hs
  obtain ⟨i, rest, -, m⟩ := step_move hs
  exact m.txFramesWhole hw hl hf

end Sys2Proof.Machine
end

-- ==== Memory holds the buffers alone ====
section
/-! Every write of memory is of an entry below its buffer's depth, cut to the entry's width (10_state.md R45 to R49; 20_memory.md
R66). -/

namespace Sys2Proof.Machine

open Sys2Proof

theorem onlyEntriesStored_congr {s t : State} (hp : t.params = s.params) (hm : t.mem = s.mem) (h : OnlyEntriesStored s) :
    OnlyEntriesStored t := by
  unfold OnlyEntriesStored
  rwa [hp, hm]

/-- Storing one entry: its four lanes are lanes of an entry, and its value is cut to the width. -/
theorem onlyEntriesStored_writeEntry {s : State} {b : Buf} {i : Nat} (v : Word) (hw : s.mem.wf = true)
    (hp : s.params.legal = true) (hi : i < bufDepth s.params b) (h : OnlyEntriesStored s) :
    OnlyEntriesStored (writeEntry s b i v) := by
  obtain ⟨hzero, hfit⟩ := h
  constructor
  · intro a ha
    have outside : a < bufAddr b i ∨ bufAddr b i + 4 ≤ a := by
      by_contra hin
      exact ha ⟨b, i, hi, by omega, by omega⟩
    rw [writeEntry_mem, readByte_writeWord_outside outside]
    exact hzero a ha
  · intro c k hk
    rw [writeEntry_params] at hk ⊢
    by_cases hbc : b = c
    · subst hbc
      by_cases hik : k = i
      · subst hik
        rw [writeEntry_mem, readWord_writeWord_self hw, entryValue_toNat]
        exact Nat.mod_lt _ (Nat.two_pow_pos _)
      · rw [writeEntry_mem, readWord_writeWord_apart (by simp only [bufAddr]; omega)]
        exact hfit b k hk
    · rw [readWord_writeEntry_other hp hbc hi hk]
      exact hfit c k hk

theorem onlyEntriesStored_writeEntries {s : State} {b : Buf} {i : Nat} {vs : List Word} (hw : s.mem.wf = true)
    (hp : s.params.legal = true) (hi : i + vs.length ≤ bufDepth s.params b) (h : OnlyEntriesStored s) :
    OnlyEntriesStored (writeEntries s b i vs) := by
  induction vs generalizing s i with
  | nil => exact h
  | cons v vs ih =>
    rw [List.length_cons] at hi
    have stored := onlyEntriesStored_writeEntry v hw hp (show i < bufDepth s.params b by omega) h
    exact ih (wf_writeWord hw) hp (by rw [writeEntry_params]; omega) stored

theorem onlyEntriesStored_fillBuffer {s : State} {b : Buf} {f : Nat → Word} (hw : s.mem.wf = true)
    (hp : s.params.legal = true) (h : OnlyEntriesStored s) : OnlyEntriesStored (fillBuffer s b f) :=
  onlyEntriesStored_writeEntries hw hp (by simp) h

/-- A completion leaves memory or fills one buffer. -/
theorem onlyEntriesStored_exec {op : Instr} {s t : State} (hw : s.mem.wf = true) (hp : s.params.legal = true)
    (h : OnlyEntriesStored s) (run : exec op s = .next t) : OnlyEntriesStored t := by
  have hparams := exec_params run
  rcases exec_mem run with hm | ⟨-, out, hm⟩ | ⟨-, hm⟩ | ⟨-, hm⟩
  · exact onlyEntriesStored_congr hparams hm h
  · exact onlyEntriesStored_congr (by simp [hparams]) hm (onlyEntriesStored_fillBuffer hw hp h)
  · exact onlyEntriesStored_congr (by simp [hparams]) hm (onlyEntriesStored_fillBuffer hw hp h)
  · have hspi : OnlyEntriesStored (spiFinish s) := onlyEntriesStored_congr (spiFinish_params s) (spiFinish_mem s) h
    exact onlyEntriesStored_congr (by simp [hparams]) hm
      (onlyEntriesStored_fillBuffer (by simpa using hw) (by simpa using hp) hspi)

theorem Move.onlyEntriesStored {s t : State} {i : Option Input} (m : Move s i t) (hw : s.mem.wf = true)
    (hp : s.params.legal = true) (h : OnlyEntriesStored s) : OnlyEntriesStored t := by
  cases m with
  | reset => exact onlyEntriesStored_of_mem_nil rfl
  | writeReg a v r => exact onlyEntriesStored_congr (writeReg_params s v r) (writeReg_mem s v r) h
  | writeEntry a v b k _ _ hk => exact onlyEntriesStored_writeEntry v hw hp hk h
  | spiEvent e es =>
    rw [performSpiOp_eq]
    exact h
  | complete _ op _ _ run => exact onlyEntriesStored_exec hw hp h run
  | _ => exact h

/-- Settles O58: it holds; a step writes entries within their widths, or no memory at all. -/
theorem stepKeepsOnlyEntriesStored : Obligations.StepKeepsOnlyEntriesStored := by
  intro s t hw hp h hs
  obtain ⟨i, rest, -, m⟩ := step_move hs
  exact m.onlyEntriesStored hw hp h

end Sys2Proof.Machine
end

-- ==== The pins ====
section
/-! `spi_cs_n` and `spi_sclk` at rest and through a transaction (10_state.md R51, R52), and that performing an event ahead of its
completion changes nothing (R22). -/

namespace Sys2Proof.Machine

open Sys2Proof

/-- Outside an SPI_READ: chip select at 1, the clock at its idle level, no transaction in progress. -/
def PinsAtRest (s : State) : Prop :=
  s.spiCsN = true ∧ s.spiSclk = s.spiMode.getLsbD 0 ∧ s.spiPos = 0 ∧ s.spiBits = []

/-- During an SPI_READ: the pins and the bits drawn are what the events performed so far give. -/
def PinsMidTransaction (s : State) : Prop :=
  s.spiPos ≤ (spiProgramOf s).length ∧
    (s.spiCsN, s.spiSclk) = pinsAfter (true, spiIdleLevel s.spiMode) ((spiProgramOf s).take s.spiPos) ∧
    s.spiBits.length = drawCount ((spiProgramOf s).take s.spiPos)

theorem pinsAsSpecified_iff_mid {s : State} (h : s.phase = .busy .spiRead) : PinsAsSpecified s ↔ PinsMidTransaction s := by
  rw [PinsAsSpecified, if_pos h]
  rfl

theorem pinsAsSpecified_iff_rest {s : State} (h : s.phase ≠ .busy .spiRead) : PinsAsSpecified s ↔ PinsAtRest s := by
  rw [PinsAsSpecified, if_neg h]
  rfl

theorem not_busy_of_idle {s : State} {op : Instr} (h : s.phase = .idle) : s.phase ≠ .busy op := by
  rw [h]
  exact Phase.noConfusion

theorem pinsAtRest_assertReset (s : State) : PinsAtRest (assertReset s) := by
  simp [PinsAtRest, assertReset, State.reset]

/-- Issuing a command from rest: for SPI_READ, no event of its transaction is performed yet. -/
theorem pinsAsSpecified_issue {s : State} (op : Instr) (h : PinsAtRest s) : PinsAsSpecified (issue op s) := by
  obtain ⟨hcs, hclk, -, -⟩ := h
  by_cases hop : op = .spiRead
  · rw [pinsAsSpecified_iff_mid (by rw [issue_phase, hop])]
    refine ⟨Nat.zero_le _, ?_, rfl⟩
    rw [issue_spiCsN, issue_spiSclk, hcs, hclk]
    rfl
  · rw [pinsAsSpecified_iff_rest (by simp [hop])]
    exact ⟨hcs, hclk, rfl, rfl⟩

/-- A register write at rest leaves the pins at rest, or issues a command; a write of MODE moves the clock along (R51). -/
theorem pinsAsSpecified_writeReg {s : State} (v : Word) (r : Reg) (hi : s.phase = .idle) (h : PinsAtRest s) :
    PinsAsSpecified (writeReg s v r) := by
  have rest : ∀ {t : State}, t.phase = .idle → PinsAtRest t → PinsAsSpecified t := fun ht =>
    (pinsAsSpecified_iff_rest (not_busy_of_idle ht)).mpr
  obtain ⟨hcs, hclk, hpos, hbits⟩ := id h
  cases r with
  | cmd =>
    simp only [writeReg, writeCommand]
    split
    · exact pinsAsSpecified_issue _ h
    · exact rest hi h
  | spiCtrl => exact rest hi ⟨hcs, rfl, hpos, hbits⟩
  | _ => exact rest hi h

@[simp] theorem performSpiOp_spiPos (s : State) (e : Nat × SpiOp) : (performSpiOp s e).spiPos = s.spiPos + 1 := by
  obtain ⟨c, op⟩ := e
  cases op <;> rfl

@[simp] theorem performSpiOp_phase (s : State) (e : Nat × SpiOp) : (performSpiOp s e).phase = s.phase := by
  rw [performSpiOp_eq]

@[simp] theorem performSpiOp_spiMode (s : State) (e : Nat × SpiOp) : (performSpiOp s e).spiMode = s.spiMode := by
  rw [performSpiOp_eq]

@[simp] theorem spiProgramOf_performSpiOp (s : State) (e : Nat × SpiOp) : spiProgramOf (performSpiOp s e) = spiProgramOf s := by
  rw [performSpiOp_eq]
  rfl

theorem performSpiOp_pins (s : State) (e : Nat × SpiOp) :
    ((performSpiOp s e).spiCsN, (performSpiOp s e).spiSclk) = pinsAfter (s.spiCsN, s.spiSclk) [e] := by
  obtain ⟨c, op⟩ := e
  cases op <;> rfl

theorem performSpiOp_bits_length (s : State) (e : Nat × SpiOp) :
    (performSpiOp s e).spiBits.length = s.spiBits.length + drawCount [e] := by
  obtain ⟨c, op⟩ := e
  cases op <;> simp [performSpiOp, drawCount]

/-- The events performed once the next one is. -/
theorem take_succ_of_spiRemaining {s : State} {e : Nat × SpiOp} {es : List (Nat × SpiOp)} (h : spiRemaining s = e :: es) :
    s.spiPos < (spiProgramOf s).length ∧
      (spiProgramOf s).take (s.spiPos + 1) = (spiProgramOf s).take s.spiPos ++ [e] := by
  unfold spiRemaining at h
  have hlen : s.spiPos < (spiProgramOf s).length := by
    by_contra hge
    rw [List.drop_eq_nil_of_le (Nat.not_lt.mp hge)] at h
    cases h
  rw [List.drop_eq_getElem_cons hlen] at h
  injection h with he
  exact ⟨hlen, by rw [List.take_succ_eq_append_getElem hlen, he]⟩

theorem pinsMidTransaction_performSpiOp {s : State} {e : Nat × SpiOp} {es : List (Nat × SpiOp)}
    (hn : spiRemaining s = e :: es) (h : PinsMidTransaction s) : PinsMidTransaction (performSpiOp s e) := by
  obtain ⟨-, hpins, hbits⟩ := h
  obtain ⟨hlt, htake⟩ := take_succ_of_spiRemaining hn
  unfold PinsMidTransaction
  rw [spiProgramOf_performSpiOp, performSpiOp_spiPos, performSpiOp_spiMode, htake, pinsAfter_append, drawCount_append, ← hpins,
    ← hbits]
  exact ⟨hlt, performSpiOp_pins s e, performSpiOp_bits_length s e⟩

/-- A completion other than SPI_READ's leaves the pins, the mode and the transaction's progress alone. -/
theorem exec_pinsAtRest {op : Instr} {s t : State} (hop : op ≠ .spiRead) (h : exec op s = .next t) (hr : PinsAtRest s) :
    PinsAtRest t := by
  rw [exec_changes h]
  cases op with
  | spiRead => exact absurd rfl hop
  | _ => exact hr

/-- The whole transaction, part performed and the rest: the pins are back at rest. -/
theorem pinsAfter_spiRemaining {s : State} (h : PinsMidTransaction s) :
    pinsAfter (s.spiCsN, s.spiSclk) (spiRemaining s) = (true, spiIdleLevel s.spiMode) := by
  obtain ⟨-, hpins, -⟩ := h
  rw [hpins, spiRemaining, ← pinsAfter_append, List.take_append_drop, spiProgramOf, pinsAfter_spiProgram]
  simp

theorem exec_spiRead_pinsAtRest {s t : State} (h : exec .spiRead s = .next t) (hm : PinsMidTransaction s) : PinsAtRest t := by
  have hpins := pinsAfter_spiRemaining hm
  simp only [exec, execSpiRead] at h
  injection h with h
  subst h
  refine ⟨?_, ?_, rfl, rfl⟩ <;> simp [spiFinish_eq, hpins, spiIdleLevel]

theorem pinsAsSpecified_exec {op : Instr} {s t : State} (hb : s.phase = .busy op) (h : exec op s = .next t)
    (hpins : PinsAsSpecified s) : PinsAsSpecified t := by
  rw [pinsAsSpecified_iff_rest (not_busy_of_idle (exec_frame h).1)]
  by_cases hop : op = .spiRead
  · subst hop
    exact exec_spiRead_pinsAtRest h ((pinsAsSpecified_iff_mid hb).mp hpins)
  · exact exec_pinsAtRest hop h ((pinsAsSpecified_iff_rest (by simp [hb, hop])).mp hpins)

theorem Move.pinsAsSpecified {s t : State} {i : Option Input} (m : Move s i t) (h : PinsAsSpecified s) : PinsAsSpecified t := by
  cases m with
  | reset =>
    rw [pinsAsSpecified_iff_rest (not_busy_of_idle rfl)]
    exact pinsAtRest_assertReset s
  | writeReg a v r _ hi =>
    exact pinsAsSpecified_writeReg v r hi ((pinsAsSpecified_iff_rest (not_busy_of_idle hi)).mp h)
  | spiEvent e es hb hn =>
    rw [pinsAsSpecified_iff_mid ((performSpiOp_phase s e).trans hb)]
    exact pinsMidTransaction_performSpiOp hn ((pinsAsSpecified_iff_mid hb).mp h)
  | complete _ op _ hb run => exact pinsAsSpecified_exec hb run h
  | _ => exact h

/-- Settles O59: it holds, since every step is a move. -/
theorem stepKeepsThePinsAsSpecified : Obligations.StepKeepsThePinsAsSpecified := by
  intro s t h hs
  obtain ⟨i, rest, -, m⟩ := step_move hs
  exact m.pinsAsSpecified h

/-- The rest of a transaction is the same whether its next event has been performed on its own or not. -/
theorem spiFinish_performSpiOp {s : State} {e : Nat × SpiOp} {es : List (Nat × SpiOp)} (h : spiRemaining s = e :: es) :
    spiFinish (performSpiOp s e) = spiFinish s := by
  rw [spiFinish, spiFinish, spiRemaining_performSpiOp h, h, List.foldl_cons]

/-- What SPI_READ writes depends on the configuration and the bits drawn alone. -/
theorem spiEntryOf_performSpiOp (s : State) (e : Nat × SpiOp) : spiEntryOf (performSpiOp s e) = spiEntryOf s := by
  rw [performSpiOp_eq]
  rfl

/-- Settles O50: it holds; the completion starts by performing the rest of the transaction. -/
theorem spiEventsBeforeTheCompletionChangeNothing : Obligations.SpiEventsBeforeTheCompletionChangeNothing := by
  intro s
  rcases spiEventStep_cases s with h | ⟨-, e, es, hn, h⟩
  · rw [h]
  · rw [h]
    simp only [exec, execSpiRead]
    rw [spiFinish_performSpiOp hn, spiEntryOf_performSpiOp]

end Sys2Proof.Machine
end

-- ==== The clock divider ====
section
/-! SPI_CLKDIV sets the times of a transaction's events and nothing else (10_state.md R43): every command's meaning commutes with a
change of the divider and of the times recorded. -/

namespace Sys2Proof.Machine

open Sys2Proof

/-- `s` with another divider and another record of events. -/
def retime (d : BitVec 16) (hist : List PinEvent) (s : State) : State := { s with spiClkdiv := d, history := hist }

theorem writeEntries_retime (d : BitVec 16) (hist : List PinEvent) (s : State) (b : Buf) (i : Nat) (vs : List Word) :
    writeEntries (retime d hist s) b i vs = retime d hist (writeEntries s b i vs) := by
  induction vs generalizing s i with
  | nil => rfl
  | cons v vs ih => exact ih (writeEntry s b i v) (i + 1)

theorem fillBuffer_retime (d : BitVec 16) (hist : List PinEvent) (s : State) (b : Buf) (f : Nat → Word) :
    fillBuffer (retime d hist s) b f = retime d hist (fillBuffer s b f) :=
  writeEntries_retime d hist s b 0 _

theorem writeRxResults_retime (d : BitVec 16) (hist : List PinEvent) (s : State) (out : List Byte) (nbits ndrop : Nat) :
    writeRxResults out nbits ndrop (retime d hist s) = retime d hist (writeRxResults out nbits ndrop s) := by
  simp only [writeRxResults, fillBuffer_retime]
  rfl

@[simp] theorem retime_spiBits (d : BitVec 16) (hist : List PinEvent) (s : State) : (retime d hist s).spiBits = s.spiBits := rfl

@[simp] theorem retime_history (d : BitVec 16) (hist : List PinEvent) (s : State) : (retime d hist s).history = hist := rfl

theorem spiEntryOf_retime (d : BitVec 16) (hist : List PinEvent) (s : State) : spiEntryOf (retime d hist s) = spiEntryOf s := rfl

theorem assemble_retime (d : BitVec 16) (hist : List PinEvent) (s : State) :
    assemble (retime d hist s) = retime d hist (assemble s) := rfl

theorem complete_clearSpiProgress_retime (d : BitVec 16) (hist : List PinEvent) (s : State) :
    complete (clearSpiProgress (retime d hist s)) = retime d hist (complete (clearSpiProgress s)) := rfl

/-- No command but SPI_READ reads the divider or the history. -/
theorem exec_retime {op : Instr} {s t : State} (d : BitVec 16) (hist : List PinEvent) (hop : op ≠ .spiRead)
    (h : exec op s = .next t) : exec op (retime d hist s) = .next (retime d hist t) := by
  cases op with
  | spiRead => exact absurd rfl hop
  | uartRxDecode =>
    have hratio : rxRatioBelowOne (retime d hist s) = rxRatioBelowOne s := rfl
    simp only [exec, execUartRxDecode, writeRxResults_retime, hratio] at h ⊢
    split at h <;> (rename_i hc; injection h with h; subst h)
    · rw [if_pos hc]
      rfl
    · rw [if_neg hc]
      rfl
  | uartTxBuild =>
    simp only [exec, execUartTxBuild, fillBuffer_retime] at h ⊢
    injection h with h
    subst h
    rfl
  | _ =>
    injection h with h
    subst h
    rfl

theorem exec_history_kept {op : Instr} {s t : State} (hop : op ≠ .spiRead) (h : exec op s = .next t) :
    t.history = s.history := by
  rw [exec_changes h]
  cases op with
  | spiRead => exact absurd rfl hop
  | _ => rfl

/-! ### A transaction's events without their times -/

/-- Two lists of the same events, times apart. -/
def SameSignals (es fs : List (Nat × SpiOp)) : Prop := List.Forall₂ (fun e f => e.2 = f.2) es fs

theorem sameSignals_of_map_eq {es fs : List (Nat × SpiOp)} (h : es.map Prod.snd = fs.map Prod.snd) : SameSignals es fs := by
  rwa [← List.forall₂_eq_eq_eq, List.forall₂_map_left_iff, List.forall₂_map_right_iff] at h

theorem spiBitOps_signals (mode : BitVec 2) (half half' k : Nat) :
    (spiBitOps mode half k).map Prod.snd = (spiBitOps mode half' k).map Prod.snd := by
  unfold spiBitOps
  split <;> rfl

/-- A transaction's events are a matter of the mode and the byte count; the divider gives their times (43_spi.md R178). -/
theorem spiProgram_signals (mode : BitVec 2) (half half' n : Nat) :
    (spiProgram mode half n).map Prod.snd = (spiProgram mode half' n).map Prod.snd := by
  simp only [spiProgram, List.map_cons, List.map_append, List.map_flatMap, List.map_nil, spiBitOps_signals mode half half']

theorem spiRemaining_retime (d : BitVec 16) (hist : List PinEvent) (s : State) :
    SameSignals (spiRemaining (retime d hist s)) (spiRemaining s) := by
  apply sameSignals_of_map_eq
  unfold spiRemaining
  rw [List.map_drop, List.map_drop]
  exact congrArg (List.drop s.spiPos) (spiProgram_signals s.spiMode _ _ (spiCountOp s))

theorem pinsAfter_of_sameSignals {es fs : List (Nat × SpiOp)} (h : SameSignals es fs) (pins : Bool × Bool) :
    pinsAfter pins es = pinsAfter pins fs := by
  induction h generalizing pins with
  | nil => rfl
  | @cons e f _ _ he _ ih =>
    obtain ⟨c, op⟩ := e
    obtain ⟨c', op'⟩ := f
    cases he
    cases op <;> exact ih _

theorem drawCount_of_sameSignals {es fs : List (Nat × SpiOp)} (h : SameSignals es fs) : drawCount es = drawCount fs := by
  induction h with
  | nil => rfl
  | cons he _ ih =>
    simp only [drawCount] at ih
    simp only [drawCount, List.countP_cons, ih, he]

theorem spiTrace_of_sameSignals {es fs : List (Nat × SpiOp)} (h : SameSignals es fs) (level : Nat → Bool) (index k : Nat) :
    (spiTrace level index k es).map PinEvent.signal = (spiTrace level index k fs).map PinEvent.signal := by
  induction h generalizing index k with
  | nil => rfl
  | @cons e f _ _ he _ ih =>
    obtain ⟨c, op⟩ := e
    obtain ⟨c', op'⟩ := f
    cases he
    cases op <;> simp only [spiTrace, List.map_cons, ih]

/-- The rest of a transaction at another divider: the same but for the times recorded. -/
theorem spiFinish_retime (d : BitVec 16) (s : State) :
    ∃ hist, spiFinish (retime d s.history s) = retime d hist (spiFinish s) ∧
      hist.map PinEvent.signal = (spiFinish s).history.map PinEvent.signal := by
  have same := spiRemaining_retime d s.history s
  refine ⟨s.history ++ spiTrace (misoAt s) s.spiBits.length 0 (spiRemaining (retime d s.history s)), ?_, ?_⟩
  · rw [spiFinish_eq, spiFinish_eq, drawCount_of_sameSignals same, pinsAfter_of_sameSignals same, List.Forall₂.length_eq same]
    rfl
  · rw [spiFinish_eq, List.map_append, spiTrace_of_sameSignals same, ← List.map_append]

/-- SPI_READ reads the divider for the times it records alone. -/
theorem exec_spiRead_retime (d : BitVec 16) (s : State) :
    ∃ t hist, exec .spiRead s = .next t ∧ exec .spiRead (retime d s.history s) = .next (retime d hist t) ∧
      hist.map PinEvent.signal = t.history.map PinEvent.signal := by
  obtain ⟨hist, hfinish, hsignals⟩ := spiFinish_retime d s
  refine ⟨_, hist, rfl, ?_, by simpa using hsignals⟩
  simp only [exec, execSpiRead, hfinish, fillBuffer_retime, spiEntryOf_retime, retime_spiBits, assemble_retime,
    complete_clearSpiProgress_retime]

/-- Settles O51: it holds; of the commands SPI_READ alone looks at the divider. -/
theorem clockDividerAffectsTimingAlone : Obligations.ClockDividerAffectsTimingAlone := by
  intro op s d
  by_cases hop : op = .spiRead
  · subst hop
    obtain ⟨t, hist, ht, hu, hsignals⟩ := exec_spiRead_retime d s
    exact ⟨t, retime d hist t, ht, hu, rfl, hsignals⟩
  · obtain ⟨u, hu⟩ := exec_completes op s
    refine ⟨complete u, retime d s.history (complete u), hu, exec_retime d s.history hop hu, rfl, ?_⟩
    rw [exec_history_kept hop hu, retime_history]

end Sys2Proof.Machine
end

-- ==== Issue, completion and the phase ====
section
/-! Which words decode and what a write of CMD does (30_encoding.md R80 to R83), and how the phase moves (10_state.md R21, R22). -/

namespace Sys2Proof.Machine

open Sys2Proof

theorem decode_encode (i : Instr) : decode (encode i) = .ok i := by cases i <;> rfl

theorem opcodeMap_eq_some {op : BitVec 4} {i : Instr} (h : opcodeMap op = some i) : op = opcodeOf i := by
  cases i <;> revert op <;> decide

/-- A word is its RSV field above its OP field (30_encoding.md R80). -/
theorem rsv_append_op (w : Word) : w = (w.extractLsb' 4 28 ++ w.extractLsb' 0 4 : BitVec 32) := by
  have h := BitVec.extractLsb'_append_extractLsb'_eq_extractLsb' (x := w) (start₁ := 0) (start₂ := 4) (len₁ := 4) (len₂ := 28) rfl
  exact (h.trans BitVec.extractLsb'_eq_self).symm

/-- A word that decodes is the word of the command it decodes to. -/
theorem eq_encode_of_decode {w : Word} {i : Instr} (h : decode w = .ok i) : w = encode i := by
  unfold decode at h
  split at h
  · rename_i hrsv
    split at h
    · rename_i j hop
      injection h with h
      subst h
      rw [encode, ← hrsv, ← opcodeMap_eq_some hop]
      exact rsv_append_op w
    · cases h
  · cases h

theorem writeReg_cmd_encode (s : State) (i : Instr) : writeReg s (encode i) .cmd = issue i s := by
  simp only [writeReg, writeCommand, decode_encode]

/-- A register write while IDLE leaves the phase, unless it is of a command's word to CMD. -/
theorem writeReg_phase_cases (s : State) (v : Word) (r : Reg) :
    (writeReg s v r).phase = s.phase ∨ ∃ op, r = .cmd ∧ v = encode op ∧ writeReg s v r = issue op s := by
  cases r with
  | cmd =>
    cases hd : decode v with
    | ok op =>
      rw [eq_encode_of_decode hd]
      exact .inr ⟨op, rfl, rfl, writeReg_cmd_encode s op⟩
    | error e => exact .inl (by simp only [writeReg, writeCommand, hd, setCmdRej_phase])
  | _ => exact .inl rfl

/-- A move from IDLE to BUSY is a write of the command's word to CMD. -/
theorem Move.leaves_idle {s t : State} {i : Option Input} {op : Instr} (m : Move s i t) (hi : s.phase = .idle)
    (hb : t.phase = .busy op) :
    s.rst = false ∧ ∃ a, i = some (.write a (encode op)) ∧ s.params.base ≤ a ∧ a < s.params.base + 4 := by
  have stays : ∀ {u : State}, u.phase = s.phase → u.phase ≠ .busy op := fun hu => by
    rw [hu]
    exact not_busy_of_idle hi
  cases m with
  | reset => cases hb
  | writeReg a v r hr _ low high =>
    rcases writeReg_phase_cases s v r with h | ⟨op', rfl, rfl, h⟩
    · exact absurd hb (stays h)
    · rw [h] at hb
      cases hb
      exact ⟨hr, a, rfl, low, high⟩
  | spiEvent e es => exact absurd hb (stays (performSpiOp_phase s e))
  | complete _ op' _ hop => exact absurd hop (not_busy_of_idle hi)
  | _ => exact absurd hb (stays rfl)

/-- Settles O6: it holds; every other move from IDLE stays there. -/
theorem onlyALegalCommandWriteLeavesIdle : Obligations.OnlyALegalCommandWriteLeavesIdle := by
  intro s t op hi hs hb
  obtain ⟨i, rest, hin, m⟩ := step_move hs
  obtain ⟨hr, a, rfl, low, high⟩ := m.leaves_idle hi hb
  exact ⟨hr, a, rest, hin, low, high⟩

/-- While a command stays issued, a move changes no operand, result or buffer. -/
theorem Move.frame_of_busy {s t : State} {i : Option Input} {op op' : Instr} (m : Move s i t) (hb : s.phase = .busy op)
    (ht : t.phase = .busy op') :
    t = { s with
      inputs := t.inputs, status := t.status, rdata := t.rdata, spiSclk := t.spiSclk, spiCsN := t.spiCsN,
      spiPos := t.spiPos, spiBits := t.spiBits, miso := t.miso, misoDrawn := t.misoDrawn, history := t.history,
      rst := t.rst } := by
  cases m with
  | reset => cases ht
  | writeReg a v r _ hi => exact absurd hb (not_busy_of_idle hi)
  | writeEntry a v b k hi => exact absurd hb (not_busy_of_idle hi)
  | spiEvent e es => rw [performSpiOp_eq]
  | complete _ op _ _ run => exact absurd ht (not_busy_of_idle (exec_frame run).1)
  | _ => rfl

/-- Settles O9: it holds, since every step is a move. -/
theorem operandsAndResultsHoldWhileBusy : Obligations.OperandsAndResultsHoldWhileBusy := by
  intro s t op op' hb hs ht
  obtain ⟨i, rest, -, m⟩ := step_move hs
  exact m.frame_of_busy hb ht

theorem decodeTableWord_encode (i : Instr) : decodeTableWord 32 (encode i).toNat = some i := by
  cases i <;> decide

theorem withFetchWord_encode (s : State) (i : Instr) :
    s.withFetchWord 32 (encode i).toNat = issue i (releaseReset (setInputs [] s)) := by
  simp only [State.withFetchWord, placeCommand, decodeTableWord_encode]

/-- With nothing scheduled an issued command runs (log 7). -/
theorem step_busy_nil {s : State} {i : Instr} (hb : s.phase = .busy i) (hin : s.inputs = []) : step s = exec i s := by
  rw [step_nil hin, engineStep_busy hb]

/-- With its completion scheduled an issued command runs, on the state without that input. -/
theorem step_busy_complete {s : State} {i : Instr} {rest : List Input} (hb : s.phase = .busy i)
    (hin : s.inputs = .complete :: rest) : step s = exec i (setInputs rest s) := by
  rw [step_complete hin]
  exact engineStep_busy hb

/-- A host write while IDLE at the address a register is named by (30_encoding.md R85). -/
theorem step_write_regAddr {s : State} {r : Reg} {v : Word} {rest : List Input} (hp : s.phase = .idle) (hr : s.rst = false)
    (hin : s.inputs = .write (regAddr s.params r) v :: rest) : step s = .next (writeReg (setInputs rest s) v r) :=
  step_write_reg hin hr hp (Nat.le_refl _) (Nat.lt_add_of_pos_right (by decide))

/-- A write of a command's word to CMD while IDLE issues it. -/
theorem step_write_cmd {s : State} {i : Instr} {rest : List Input} (hp : s.phase = .idle) (hr : s.rst = false)
    (hin : s.inputs = .write (regAddr s.params .cmd) (encode i) :: rest) : step s = .next (issue i (setInputs rest s)) := by
  rw [step_write_regAddr hp hr hin, writeReg_cmd_encode]

/-- Settles O3: it holds, clause by clause. -/
theorem stepRunsTheIssuedCommand : Obligations.StepRunsTheIssuedCommand := by
  refine ⟨fun s i hb hin => step_busy_nil hb hin, fun s i rest hb hin => step_busy_complete hb hin, ?_, ?_⟩
  · intro s i rest _ hp hr hin
    exact ⟨_, step_write_cmd hp hr hin, rfl, step_busy_complete rfl rfl⟩
  · intro s i _
    rw [withFetchWord_encode]
    exact ⟨rfl, step_busy_nil rfl rfl⟩

/-- Settles O5: it holds; the engine moves only in BUSY, and a completion leaves the schedule alone. -/
theorem engineCompletesWhenBusyAndHoldsWhenIdle : Obligations.EngineCompletesWhenBusyAndHoldsWhenIdle := by
  constructor
  · intro s op hb hin
    obtain ⟨u, hu⟩ := exec_completes op s
    exact ⟨complete u, (step_busy_nil hb hin).trans hu, rfl, rfl, (exec_inputs hu).trans hin⟩
  · intro s hi
    refine ⟨fun hin => ?_, fun rest hin => ?_, fun rest hin => ?_⟩
    · rw [step_nil hin, engineStep_idle hi]
    · rw [step_complete hin, engineStep_idle (by exact hi)]
      rfl
    · rw [step_spiEvent hin]
      rcases spiEventStep_cases (setInputs rest s) with h | ⟨hb, -⟩
      · rw [h]
        rfl
      · exact absurd hb (not_busy_of_idle hi)

end Sys2Proof.Machine
end

-- ==== The sticky flags ====
section
/-! A sticky flag is set by the engine and by rejected writes, and cleared by the host's write of STATUS or at reset (10_state.md
R27). -/

namespace Sys2Proof.Machine

open Sys2Proof

/-- No sticky flag is cleared from one state to the other. -/
def FlagsKept (s t : State) : Prop :=
  (s.status.done = true → t.status.done = true) ∧ (s.status.frameErr = true → t.status.frameErr = true) ∧
    (s.status.short = true → t.status.short = true) ∧ (s.status.codecErr = true → t.status.codecErr = true) ∧
    (s.status.cfgErr = true → t.status.cfgErr = true) ∧ (s.status.cmdRej = true → t.status.cmdRej = true)

theorem flagsKept_of_status {s t : State} (h : t.status = s.status) : FlagsKept s t := by
  simp [FlagsKept, h]

theorem flagsKept_setCmdRej (s : State) : FlagsKept s (setCmdRej s) := by
  simp [FlagsKept]

@[simp] theorem assemble_status (s : State) :
    (assemble s).status = { s.status with short := s.status.short || spiFrameShort s } := rfl

/-- Every flag that a command touches is set by an "or" (60_exceptions.md R201). -/
theorem flagsKept_exec {op : Instr} {s t : State} (h : exec op s = .next t) : FlagsKept s t := by
  cases op with
  | uartRxDecode =>
    simp only [exec, execUartRxDecode] at h
    split at h <;> (injection h with h; subst h; simp +contextual [FlagsKept])
  | _ =>
    injection h with h
    subst h
    simp +contextual [FlagsKept]

theorem flags_writeReg (s : State) (v : Word) (r : Reg) :
    (r = .status ∧ (writeReg s v r).status = clearStatus v s.status) ∨ FlagsKept s (writeReg s v r) := by
  cases r with
  | status => exact .inl ⟨rfl, rfl⟩
  | cmd =>
    refine .inr ?_
    simp only [writeReg, writeCommand]
    split
    · exact flagsKept_of_status rfl
    · exact flagsKept_setCmdRej s
  | _ => exact .inr (flagsKept_of_status rfl)

/-- A move resets, is the host's write of STATUS, or clears no flag. -/
theorem Move.flags {s t : State} {i : Option Input} (m : Move s i t) :
    i = some (.rst true) ∨
      (∃ a v, i = some (.write a v) ∧ s.rst = false ∧ s.params.base + 4 ≤ a ∧ a < s.params.base + 8 ∧
        t.status = clearStatus v s.status) ∨
      FlagsKept s t := by
  cases m with
  | reset => exact .inl rfl
  | writeReg a v r hr _ low high =>
    rcases flags_writeReg s v r with ⟨rfl, h⟩ | h
    · exact .inr (.inl ⟨a, v, rfl, hr, low, high, h⟩)
    · exact .inr (.inr h)
  | clearFlags a v op hr _ low high => exact .inr (.inl ⟨a, v, rfl, hr, low, high, rfl⟩)
  | reject => exact .inr (.inr (flagsKept_setCmdRej s))
  | spiEvent e es =>
    rw [performSpiOp_eq]
    exact .inr (.inr (flagsKept_of_status rfl))
  | complete _ op _ _ run => exact .inr (.inr (flagsKept_exec run))
  | _ => exact .inr (.inr (flagsKept_of_status rfl))

/-- Settles O11: it holds, since every step is a move. -/
theorem stickyFlagsAreClearedOnlyByTheHostOrReset : Obligations.StickyFlagsAreClearedOnlyByTheHostOrReset := by
  intro s t hs
  obtain ⟨i, rest, hin, m⟩ := step_move hs
  rcases m.flags with rfl | ⟨a, v, rfl, hr, low, high, h⟩ | h
  · exact .inl ⟨rest, hin⟩
  · exact .inr (.inl ⟨a, v, rest, hin, hr, low, high, h⟩)
  · exact .inr (.inr h)

/-- Settles O17: it holds; in either phase the step is the W1C action alone. -/
theorem statusWriteClearsTheOnesWritten : Obligations.StatusWriteClearsTheOnesWritten := by
  intro s v rest hr hin
  refine ⟨clearStatus v s.status, ?_, rfl, rfl, rfl, rfl, rfl, rfl⟩
  cases hp : s.phase with
  | idle =>
    rw [step_write_regAddr hp hr hin]
    simp only [writeReg, setInputs, hp]
  | busy op =>
    have hword : (regAddr s.params .status - s.params.base) / 4 = 1 := by simp [regAddr, regOffset]
    rw [step_write_busy hin hr hp (by simp only [regAddr]; omega) (by simp only [regAddr, regOffset]; omega), if_pos hword]
    simp only [setInputs, hp]

end Sys2Proof.Machine
end

-- ==== Registers and entries at the bus ====
section
/-! The bits of each register (10_state.md R25), the clamped lengths (R36, R40), the entries the host writes (R45, R47, R49), and the
values after reset. -/

namespace Sys2Proof.Machine

open Sys2Proof

/-- A field above another weighs what the other's width says. -/
theorem toNat_append_eq_add {m n : Nat} (x : BitVec m) (y : BitVec n) : (x ++ y).toNat = x.toNat * 2 ^ n + y.toNat := by
  rw [BitVec.toNat_append, Nat.shiftLeft_eq, Nat.mul_comm, Nat.two_pow_add_eq_or_of_lt y.isLt]

theorem isBusy_toNat (s : State) : (isBusy s).toNat = if s.phase = .idle then 0 else 1 := by
  cases h : s.phase <;> simp [isBusy, h]

theorem statusWord_toNat (s : State) :
    (statusWord s).toNat =
      (if s.phase = .idle then 0 else 1) + 2 * s.status.done.toNat + 4 * s.status.frameErr.toNat + 8 * s.status.short.toNat +
        16 * s.status.codecErr.toNat + 64 * s.status.cfgErr.toNat + 128 * s.status.cmdRej.toNat := by
  rw [← isBusy_toNat]
  simp only [statusWord, toNat_append_eq_add, BitVec.toNat_ofBool, BitVec.toNat_ofNat]
  omega

theorem codecDecWord_toNat (s : State) : (codecDecWord s).toNat = s.codecDecRaw.toNat + 256 * s.codecDecTag.toNat := by
  simp only [codecDecWord, toNat_append_eq_add, BitVec.toNat_ofNat]
  omega

theorem spiCtrlWord_toNat (s : State) :
    (spiCtrlWord s).toNat = s.spiMode.toNat + 4 * s.spiOrder.toNat + 256 * s.spiByteCount.toNat := by
  simp only [spiCtrlWord, toNat_append_eq_add, BitVec.toNat_ofBool, BitVec.toNat_ofNat]
  omega

/-- Settles O12: it holds; a register of one field below 32 bits is its zero extension. -/
theorem registersReadTheirFieldsInPlace : Obligations.RegistersReadTheirFieldsInPlace := by
  intro s
  have field : ∀ {n : Nat} (x : BitVec n), n ≤ 32 → (x.setWidth 32).toNat = x.toNat := fun x hn =>
    BitVec.toNat_setWidth_of_le hn
  exact ⟨rfl, statusWord_toNat s, rfl, rfl, rfl, field _ (by decide), field _ (by decide), codecDecWord_toNat s, rfl,
    field _ (by decide), rfl, rfl, rfl, rfl, rfl, rfl, spiCtrlWord_toNat s, field _ (by decide), field _ (by decide)⟩

/-- Settles O16: it holds; the value stored is the clamped one. -/
theorem lengthWritesAreClampedToTheDepth : Obligations.LengthWritesAreClampedToTheDepth := by
  intro s v rest hp hr
  exact ⟨fun hin => ⟨_, step_write_regAddr hp hr hin, toNat_clampedLength v _⟩,
    fun hin => ⟨_, step_write_regAddr hp hr hin, toNat_clampedLength v _⟩⟩

/-- An entry written to a canonical memory reads back its low bits. -/
theorem readEntry_writeEntry_self {s : State} {b : Buf} {i : Nat} {v : Word} (hw : s.mem.wf = true) :
    (readEntry (writeEntry s b i v) b i).toNat = v.toNat % 2 ^ bufWidth s.params b := by
  rw [readEntry, writeEntry_mem, writeEntry_params, readWord_writeWord_self hw, entryValue_idem, entryValue_toNat]

/-- Settles O19: it holds; the three buffers named are the writable ones. -/
theorem bufferWriteStoresTheLowBits : Obligations.BufferWriteStoresTheLowBits := by
  intro s b i v rest hp hr hl hw hb hi hin
  have writable : bufWritable b = true := by
    revert hb
    cases b <;> decide
  refine ⟨(writeEntry s b i v).mem, ?_, readEntry_writeEntry_self hw, fun a ha => readByte_writeWord_outside ha⟩
  rw [step_write_entry hin hl hr hp hi (Nat.le_refl _) (by simp only [entryAddr]; omega), if_pos writable]
  rfl

/-- Settles O21: it holds; memory is empty at reset, and the registers are as tabled. -/
theorem resetStateIsAsTabled : Obligations.ResetStateIsAsTabled := by
  refine ⟨fun r => ?_, readEntry_of_mem_nil rfl, rfl, rfl, rfl⟩
  cases r <;> rfl

end Sys2Proof.Machine
end

-- ==== The host port: locations, dropped and ignored writes ====
section
/-! What a host access finds at its address (20_memory.md R60, R66) and what it does there: reads (R62), writes of RW registers and
writes that are ignored while IDLE (R63), writes dropped while BUSY (R64). -/

namespace Sys2Proof.Machine

open Sys2Proof

/-! ### The location an address selects -/

/-- An address within a register's four bytes selects the register. -/
theorem locate_locationOffset_reg {p : Params} {a : Nat} {r : Reg} (h1 : p.base + regOffset r ≤ a)
    (h2 : a < p.base + regOffset r + 4) : locate p (locationOffset p a) = .reg r := by
  have hb := regOffset_lt r
  rw [locationOffset_of (regOffset_aligned r) (by omega) h1 h2, locate_regOffset]

/-- An address within an entry's four bytes selects the entry. -/
theorem locate_locationOffset_entry {p : Params} {a : Nat} {b : Buf} {i : Nat} (hp : p.legal = true) (hi : i < bufDepth p b)
    (h1 : p.base + bufAddr b i ≤ a) (h2 : a < p.base + bufAddr b i + 4) :
    locate p (locationOffset p a) = .entry b i := by
  obtain ⟨-, hwindow, haligned⟩ := bufAddr_lt hp hi
  rw [locationOffset_of haligned (by omega) h1 h2, locate_bufAddr hp hi]

/-- Offset `off` is no byte of a register. -/
def NoRegister (off : Nat) : Prop := ∀ r, ¬ (regOffset r ≤ off ∧ off < regOffset r + 4)

/-- An address of the window that is a byte of no register and of no entry selects nothing. -/
theorem locate_locationOffset_unmapped {p : Params} {a : Nat} (hw : inWindow p a = true) (hreg : NoRegister (a - p.base))
    (hlane : ¬ IsEntryLane p (a - p.base)) : locate p (locationOffset p a) = .unmapped := by
  rcases locate_eq (locationOffset_aligned p a) rfl with h | ⟨r, -, ho⟩ | ⟨b, i, -, hi, ho⟩
  · exact h
  · obtain ⟨low, high⟩ := address_of_locationOffset hw ho
    exact absurd ⟨by omega, by omega⟩ (hreg r)
  · obtain ⟨low, high⟩ := address_of_locationOffset hw ho
    exact absurd ⟨b, i, hi, by omega, by omega⟩ hlane

/-- The low two address bits select nothing (R60). -/
theorem locationOffset_add_low {p : Params} {q k : Nat} (hk : k < 4) (hq : 4 * q < 0x10000) :
    locationOffset p (p.base + 4 * q + k) = 4 * q :=
  locationOffset_of (Nat.mul_mod_right 4 q) hq (by omega) (by omega)

theorem inWindow_add_low {p : Params} {q k : Nat} (hk : k < 4) (hq : 4 * q < 0x10000) :
    inWindow p (p.base + 4 * q + k) = true := inWindow_iff.mpr (by omega)

theorem inWindow_eq_false {p : Params} {a : Nat} (h : a < p.base ∨ p.base + 0x10000 ≤ a) : inWindow p a = false := by
  rw [Bool.eq_false_iff, Ne, inWindow_iff]
  omega

/-! ### Accesses as functions of the location -/

/-- An access outside the window does not reach the block (log 12). -/
theorem hostRead_outside {s : State} {a : Nat} (h : a < s.params.base ∨ s.params.base + 0x10000 ≤ a) : hostRead s a = s := by
  simp [hostRead, inWindow_eq_false h]

theorem hostWrite_outside {s : State} {a : Nat} {v : Word} (h : a < s.params.base ∨ s.params.base + 0x10000 ≤ a) :
    hostWrite s a v = s := by
  simp [hostWrite, inWindow_eq_false h]

/-- A read depends on the address through the location it selects. -/
theorem hostRead_congr {s : State} {a a' : Nat} (hw : inWindow s.params a = inWindow s.params a')
    (ho : locationOffset s.params a = locationOffset s.params a') : hostRead s a = hostRead s a' := by
  simp only [hostRead, hw, ho]

theorem hostWrite_congr {s : State} {a a' : Nat} (v : Word) (hw : inWindow s.params a = inWindow s.params a')
    (ho : locationOffset s.params a = locationOffset s.params a') : hostWrite s a v = hostWrite s a' v := by
  simp only [hostWrite, hw, ho]

/-- A host write while IDLE where nothing is mapped is ignored. -/
theorem hostWrite_unmapped {s : State} {a : Nat} {v : Word} (hi : s.phase = .idle)
    (hl : locate s.params (locationOffset s.params a) = .unmapped) : hostWrite s a v = s := by
  simp only [hostWrite, hi, hl, writeIdle, ite_self]

theorem regWord_setInputs (rest : List Input) (s : State) (r : Reg) : regWord (setInputs rest s) r = regWord s r := by
  cases r <;> rfl

/-! ### Register writes -/

/-- A write of an RO register stores nothing. -/
theorem writeReg_readOnly {r : Reg} (h : r ∈ [Reg.codecDec, .rxNbytes, .rxNbits, .rxNdrop, .txNbits, .spiReading]) (s : State)
    (v : Word) : writeReg s v r = s := by
  simp only [List.mem_cons, List.not_mem_nil, or_false] at h
  rcases h with rfl | rfl | rfl | rfl | rfl | rfl <;> rfl

/-- A register write moves no other register's value; only CMD's moves BUSY and CMD_REJ. -/
theorem regWord_writeReg_other {r r' : Reg} (hcmd : r ≠ .cmd) (h : r' ≠ r) (s : State) (v : Word) :
    regWord (writeReg s v r) r' = regWord s r' := by
  cases r <;> cases r' <;> first | contradiction | rfl

/-- `spi_sclk` follows a write of MODE, and no other register write moves it (R51). -/
theorem writeReg_spiSclk (s : State) (v : Word) (r : Reg) :
    (writeReg s v r).spiSclk = if r = .spiCtrl then v.getLsbD 0 else s.spiSclk := by
  cases r with
  | cmd =>
    simp only [writeReg, writeCommand]
    split <;> rfl
  | spiCtrl => simp [writeReg, writeSpiCtrl, spiIdleLevel]
  | _ => rfl

@[simp] theorem writeReg_spiCsN (s : State) (v : Word) (r : Reg) : (writeReg s v r).spiCsN = s.spiCsN := by
  rw [writeReg_eq]

@[simp] theorem writeReg_history (s : State) (v : Word) (r : Reg) : (writeReg s v r).history = s.history := by
  rw [writeReg_eq]

/-- The low `n` bits of a word, zero-extended, are the word masked with `n` ones. -/
theorem setWidth_setWidth_eq_and (v : Word) {n : Nat} (h : n ≤ 32) :
    (v.setWidth n).setWidth 32 = v &&& BitVec.ofNat 32 (2 ^ n - 1) := by
  have hpow : 2 ^ n ≤ 2 ^ 32 := Nat.pow_le_pow_right (by decide) h
  apply BitVec.eq_of_toNat_eq
  rw [BitVec.toNat_setWidth_of_le h, BitVec.toNat_setWidth, BitVec.toNat_and, BitVec.toNat_ofNat,
    Nat.mod_eq_of_lt (by omega : 2 ^ n - 1 < 2 ^ 32), Nat.and_two_pow_sub_one_eq_mod]

/-- SPI_CTRL keeps BYTECOUNT, ORDER and MODE of the word written (R42). -/
theorem spiCtrlWord_writeSpiCtrl (s : State) (v : Word) : spiCtrlWord (writeSpiCtrl s v) = v &&& 0xF07#32 := by
  apply BitVec.eq_of_getLsbD_eq
  intro i hi
  simp only [spiCtrlWord, writeSpiCtrl, BitVec.getLsbD_append, BitVec.getLsbD_extractLsb', BitVec.getLsbD_and]
  interval_cases i <;> simp

/-- The RW registers of one word each, with the mask of their fields (R25). -/
def rwMasks : List (Reg × Word) :=
  [(.codecValue, 0xFFFFFFFF#32), (.codecMax, 0xFFFFFFFF#32), (.codecMin, 0xFFFFFFFF#32), (.codecTag, 0x3#32),
    (.codecFrame, 0xFF#32), (.rxSpb, 0xFFFFFFFF#32), (.rxThresh, 0xFFFF#32), (.spiCtrl, 0xF07#32), (.spiClkdiv, 0xFFFF#32)]

theorem ne_cmd_of_mem_rwMasks {r : Reg} {mask : Word} (h : (r, mask) ∈ rwMasks) : r ≠ .cmd := by
  rintro rfl
  simp [rwMasks] at h

/-- An RW register reads back what was written, masked with its fields. -/
theorem regWord_writeReg_self {r : Reg} {mask : Word} (h : (r, mask) ∈ rwMasks) (s : State) (v : Word) :
    regWord (writeReg s v r) r = v &&& mask := by
  have whole : v = v &&& 0xFFFFFFFF#32 := BitVec.and_allOnes.symm
  simp only [rwMasks, List.mem_cons, Prod.mk.injEq, List.not_mem_nil, or_false] at h
  rcases h with ⟨rfl, rfl⟩ | ⟨rfl, rfl⟩ | ⟨rfl, rfl⟩ | ⟨rfl, rfl⟩ | ⟨rfl, rfl⟩ | ⟨rfl, rfl⟩ | ⟨rfl, rfl⟩ | ⟨rfl, rfl⟩ | ⟨rfl, rfl⟩
  · exact whole
  · exact whole
  · exact whole
  · exact setWidth_setWidth_eq_and v (n := 2) (by decide)
  · exact setWidth_setWidth_eq_and v (n := 8) (by decide)
  · exact whole
  · exact setWidth_setWidth_eq_and v (n := 16) (by decide)
  · exact spiCtrlWord_writeSpiCtrl s v
  · exact setWidth_setWidth_eq_and v (n := 16) (by decide)

/-! ### The statements -/

/-- Settles O8: it holds, by the one rule for writes while BUSY; word 1 of the window is STATUS. -/
theorem busyWritesAreDropped : Obligations.BusyWritesAreDropped := by
  intro s a v rest op hin hr hb hlow hhigh
  rw [step_write_busy hin hr hb hlow hhigh]
  refine ⟨fun hword => ⟨?_, ?_⟩, fun hword => ?_⟩
  · rw [if_pos hword]
    rfl
  · exact step_write_reg (s := { s with phase := .idle }) (r := .status) hin hr rfl
      (by simp only [regOffset]; omega) (by simp only [regOffset]; omega)
  · rw [if_neg hword]
    rfl

/-- Settles O13: it holds; the three cases are the three kinds of location. -/
theorem readReturnsTheLocationAndChangesNothing : Obligations.ReadReturnsTheLocationAndChangesNothing := by
  intro s a rest hin hr hp hlow hhigh
  refine ⟨_, step_read_in hin hr hlow hhigh, fun r h1 h2 => ?_, fun b i hi h1 h2 => ?_, fun hreg hlane => ?_⟩
  · rw [locate_locationOffset_reg (r := r) (by omega) (by omega)]
    exact regWord_setInputs rest s r
  · rw [locate_locationOffset_entry hp hi (by omega) (by omega)]
    rfl
  · rw [locate_locationOffset_unmapped (inWindow_iff.mpr ⟨hlow, hhigh⟩) hreg hlane]
    rfl

/-- Settles O15: it holds; the step is the register's write, which stores the fields of the mask. -/
theorem registerWritesReadBackMasked : Obligations.RegisterWritesReadBackMasked := by
  intro s v rest r mask hi hr hin hmask
  have hcmd : r ≠ .cmd := ne_cmd_of_mem_rwMasks hmask
  have hphase : (writeReg (setInputs rest s) v r).phase = .idle := by
    rcases writeReg_phase_cases (setInputs rest s) v r with h | ⟨-, h, -⟩
    · exact h.trans hi
    · exact absurd h hcmd
  refine ⟨_, step_write_regAddr hi hr hin, regWord_writeReg_self hmask _ v, fun r' hr' => ?_, writeReg_mem _ v r, hphase,
    writeReg_spiCsN _ v r, writeReg_history _ v r, writeReg_spiSclk _ v r⟩
  rw [regWord_writeReg_other hcmd hr', regWord_setInputs]

/-- Settles O18: it holds; nothing is stored at an RO register, at an entry that the host may not write, or at no location. -/
theorem writesToReadOnlyAndUnmappedAreIgnored : Obligations.WritesToReadOnlyAndUnmappedAreIgnored := by
  intro s v rest hi hr hp
  refine ⟨fun r hro hin => ?_, fun b hb i hd hin => ?_, fun off hoff hreg hlane hin => ?_⟩
  · rw [step_write_regAddr hi hr hin, writeReg_readOnly hro]
    rfl
  · have hro : bufWritable b = false := by
      revert hb
      cases b <;> decide
    rw [step_write_entry hin hp hr hi hd (Nat.le_refl _) (by simp only [entryAddr]; omega), hro]
    rfl
  · have hdiff : s.params.base + off - s.params.base = off := Nat.add_sub_cancel_left ..
    have hl : locate s.params (locationOffset s.params (s.params.base + off)) = .unmapped :=
      locate_locationOffset_unmapped (inWindow_iff.mpr (by omega)) (hdiff.symm ▸ hreg) (hdiff.symm ▸ hlane)
    rw [step_write hin, hostWrite_unmapped (by exact hi) (by exact hl)]
    rfl

/-- Settles O14: it holds; outside the window an access does nothing, and inside it the location selected is all that counts. -/
theorem onlyTheWindowIsDecodedAndLowBitsAreIgnored : Obligations.OnlyTheWindowIsDecodedAndLowBitsAreIgnored := by
  refine ⟨fun s a rest ha => ⟨fun hin => ?_, fun v hin => ?_⟩, fun s q k v rest hk hq => ?_⟩
  · rw [step_read hin, hostRead_outside (by exact ha)]
    rfl
  · rw [step_write hin, hostWrite_outside (by exact ha)]
    rfl
  · have hwindow : inWindow s.params (s.params.base + 4 * q + k) = inWindow s.params (s.params.base + 4 * q) :=
      (inWindow_add_low hk hq).trans (inWindow_add_low (k := 0) (by decide) hq).symm
    have hoffset : locationOffset s.params (s.params.base + 4 * q + k) = locationOffset s.params (s.params.base + 4 * q) :=
      (locationOffset_add_low hk hq).trans (locationOffset_add_low (k := 0) (by decide) hq).symm
    constructor
    · rw [step_read rfl, step_read rfl]
      exact congrArg _ (hostRead_congr hwindow hoffset)
    · rw [step_write rfl, step_write rfl]
      exact congrArg _ (hostWrite_congr v hwindow hoffset)

end Sys2Proof.Machine
end

-- ==== Command words ====
section
/-! Which words are commands (30_encoding.md R80 to R83, the model's `legalWord`), and what a host write of a word to CMD does
(10_state.md R26). -/

namespace Sys2Proof.Machine

open Sys2Proof

theorem encodingShape (i : Instr) : Laws.EncodingShape.Statement i := by
  cases i with
  | codecEnc => exact Laws.EncodingShape.codecEnc
  | codecDec => exact Laws.EncodingShape.codecDec
  | uartRxDecode => exact Laws.EncodingShape.uartRxDecode
  | uartTxBuild => exact Laws.EncodingShape.uartTxBuild
  | spiRead => exact Laws.EncodingShape.spiRead
  | spiAssemble => exact Laws.EncodingShape.spiAssemble

/-- The fields of a legal word, R82. -/
theorem legalWord_iff {w : Word} :
    legalWord w = true ↔ w.extractLsb' 4 28 = 0#28 ∧ 1 ≤ (w.extractLsb' 0 4).toNat ∧ (w.extractLsb' 0 4).toNat ≤ 6 := by
  simp only [legalWord, rsvIsZero, opIsAssigned, Bool.and_eq_true, beq_iff_eq, decide_eq_true_eq]

theorem legalWord_encode (i : Instr) : legalWord (encode i) = true := by
  obtain ⟨-, hrsv, hop, -⟩ := encodingShape i
  rw [legalWord, hrsv, hop, Bool.and_self]

/-- The opcode map has no gap between 1 and 6 (R81). -/
theorem exists_opcodeMap {op : BitVec 4} (hlow : 1 ≤ op.toNat) (hhigh : op.toNat ≤ 6) : ∃ i, opcodeMap op = some i := by
  rw [← Option.isSome_iff_exists]
  revert op
  decide

theorem exists_decode_iff_legalWord {w : Word} : (∃ i, decode w = .ok i) ↔ legalWord w = true := by
  constructor
  · rintro ⟨i, hi⟩
    rw [eq_encode_of_decode hi]
    exact legalWord_encode i
  · intro h
    obtain ⟨hrsv, hlow, hhigh⟩ := legalWord_iff.mp h
    obtain ⟨i, hi⟩ := exists_opcodeMap hlow hhigh
    exact ⟨i, by rw [decode, if_pos hrsv, hi]⟩

/-- Settles O2: it holds; `legalWord` is the condition named. -/
theorem decodeAcceptsExactlyTheLegalWords : Obligations.DecodeAcceptsExactlyTheLegalWords :=
  fun _ => ⟨exists_decode_iff_legalWord.trans legalWord_iff, fun _ => eq_encode_of_decode⟩

/-- The lanes of a command's word make up the word again (20_memory.md R61). -/
theorem decodeBytes_encodeBytes (i : Instr) : decodeBytes (encodeBytes i) = .ok i := by
  rw [encodeBytes, decodeBytes, wordOfLanes_laneOfWord, decode_encode]

/-- Settles O1: it holds; the tabled words are the encodings of their commands. -/
theorem commandWordsDecodeAsTabled : Obligations.CommandWordsDecodeAsTabled :=
  ⟨decode_encode .codecEnc, decode_encode .codecDec, decode_encode .uartRxDecode, decode_encode .uartTxBuild,
    decode_encode .spiRead, decode_encode .spiAssemble, decodeBytes_encodeBytes .spiRead,
    fun i _ => ⟨decode_encode i, decodeBytes_encodeBytes i⟩⟩

/-- An illegal word written to CMD while IDLE is rejected (R83). -/
theorem writeReg_cmd_illegal {w : Word} (h : legalWord w = false) (s : State) : writeReg s w .cmd = setCmdRej s := by
  cases hd : decode w with
  | ok i => exact absurd (exists_decode_iff_legalWord.mp ⟨i, hd⟩) (Bool.eq_false_iff.mp h)
  | error e => simp only [writeReg, writeCommand, hd]

/-- Settles O7: it holds; while IDLE by whether the word decodes, while BUSY because CMD is not STATUS. -/
theorem commandWriteIssuesOrRejects : Obligations.CommandWriteIssuesOrRejects := by
  intro s a w rest hin hr hlow hhigh
  refine ⟨fun hi => ?_, fun op hb => ?_⟩
  · have written : step s = .next (writeReg (setInputs rest s) w .cmd) := step_write_reg hin hr hi hlow hhigh
    rw [← legalWord_iff, Bool.not_eq_true, written]
    refine ⟨fun hlegal => ?_, fun hillegal => ?_⟩
    · obtain ⟨op, hop⟩ := exists_decode_iff_legalWord.mpr hlegal
      have hw : w = encode op := eq_encode_of_decode hop
      refine ⟨op, hw, ?_⟩
      rw [hw, writeReg_cmd_encode]
      rfl
    · rw [writeReg_cmd_illegal hillegal]
      rfl
  · rw [step_write_busy hin hr hb hlow (by omega), if_neg (by omega)]
    rfl

end Sys2Proof.Machine
end

-- ==== A RUN and its polls ====
section
/-! Runs of several steps, polls of STATUS, and a RUN of a command as the host program notation has it (30_encoding.md R86). -/

namespace Sys2Proof.Machine

open Sys2Proof

/-- A run goes on from the state its first step leads to. -/
theorem run_succ_of_step {M : Host.Core} {s t : M.State} (h : M.step s = .next t) (n : Nat) : M.run (n + 1) s = M.run n t := by
  rw [Host.Core.run, h]

/-- A run of `m + n` steps whose first `m` lead to `t` goes on from `t`. -/
theorem run_add_of_run {M : Host.Core} {m : Nat} {s t : M.State} (h : M.run m s = .next t) (n : Nat) :
    M.run (m + n) s = M.run n t := by
  induction m generalizing s with
  | zero =>
    cases h
    rw [Nat.zero_add]
  | succ m ih =>
    rw [Nat.succ_add]
    cases hs : M.step s with
    | next u =>
      rw [run_succ_of_step hs] at h ⊢
      exact ih h
    | fault r => simp [Host.Core.run, hs] at h
    | refused r => simp [Host.Core.run, hs] at h

/-- A host read at the address a register is named by (R85). -/
theorem step_read_regAddr {s : State} {r : Reg} {rest : List Input} (hr : s.rst = false)
    (hin : s.inputs = .read (regAddr s.params r) :: rest) :
    step s = .next { setInputs rest s with rdata := regWord s r } := by
  have hoff := regOffset_lt r
  have hloc : locate s.params (locationOffset s.params (regAddr s.params r)) = .reg r :=
    locate_locationOffset_reg (Nat.le_refl _) (Nat.lt_add_of_pos_right (by decide))
  rw [step_read_in hin hr (Nat.le_add_right ..) (by simp only [regAddr]; omega), hloc, locationWord, regWord_setInputs]

/-- Bit 0 of STATUS is BUSY, bit 1 is DONE (10_state.md R27). -/
theorem statusWord_busyBit (s : State) : (statusWord s).getLsbD 0 = isBusy s := by
  simp only [statusWord, BitVec.getLsbD_append]
  simp

theorem statusWord_doneBit (s : State) : (statusWord s).getLsbD 1 = s.status.done := by
  simp only [statusWord, BitVec.getLsbD_append]
  simp

theorem isBusy_of_busy {s : State} {op : Instr} (h : s.phase = .busy op) : isBusy s = true := by
  rw [isBusy, h]

/-- `s` after `n` host reads of STATUS, with `rest` left to come. -/
def polled (n : Nat) (rest : List Input) (s : State) : State :=
  { s with inputs := rest, rdata := if n = 0 then s.rdata else statusWord s }

/-- Reading STATUS moves nothing that STATUS shows, so that every poll sees the same. -/
theorem run_polls {n : Nat} {rest : List Input} {s : State} (hr : s.rst = false)
    (hin : s.inputs = List.replicate n (.read (regAddr s.params .status)) ++ rest) :
    Host.Core.run core n s = .next (polled n rest s) := by
  induction n generalizing s with
  | zero =>
    have hrest : s.inputs = rest := hin
    subst hrest
    rfl
  | succ n ih =>
    rw [List.replicate_succ, List.cons_append] at hin
    refine (run_succ_of_step (M := core) (step_read_regAddr hr hin) n).trans ((ih ?_ ?_).trans ?_)
    · exact hr
    · rfl
    · cases n <;> rfl

/-- A RUN up to its `k`-th poll, with `rest` left to come. -/
theorem run_issue_polls {s : State} {op : Instr} {k : Nat} {rest : List Input} (hi : s.phase = .idle) (hr : s.rst = false)
    (hin : s.inputs = issueInputs s.params op ++ (List.replicate k (.read (regAddr s.params .status)) ++ rest)) :
    Host.Core.run core (k + 1) s = .next (polled k rest (issue op s)) := by
  exact (run_succ_of_step (M := core) (step_write_cmd hi hr hin) k).trans (run_polls hr rfl)

/-- The completion of an issued command and the poll after it. -/
theorem run_complete_poll {s : State} {op : Instr} (hb : s.phase = .busy op) (hr : s.rst = false)
    (hin : s.inputs = [.complete, .read (regAddr s.params .status)]) :
    ∃ u, Host.Core.run core 2 s = .next (polled 1 [] (complete u)) := by
  obtain ⟨u, hu⟩ := exec_completes op (setInputs [.read (regAddr s.params .status)] s)
  have hparams : (complete u).params = s.params := (exec_params hu :)
  have hinputs : (complete u).inputs = [.read (regAddr (complete u).params .status)] := by
    rw [hparams]
    exact exec_inputs hu
  have hrst : (complete u).rst = s.rst := (congrArg State.rst (exec_frame hu).2 :)
  refine ⟨u, ?_⟩
  exact (run_succ_of_step (M := core) ((step_busy_complete hb hin).trans hu) 1).trans (run_polls (hrst.trans hr) hinputs)

/-- A WAIT's first `k + 1` polls before its completion. -/
theorem waitInputs_eq_polls_append {k polls : Nat} (hk : k < polls) (p : Params) :
    waitInputs p polls = List.replicate (k + 1) (.read (regAddr p .status)) ++ waitInputs p (polls - (k + 1)) := by
  rw [waitInputs, waitInputs, ← List.append_assoc (List.replicate (k + 1) _), List.replicate_append_replicate,
    Nat.add_sub_cancel' hk]

/-- Settles O20: it holds; the issue and the polls leave the phase BUSY, and the completion and the last poll end the run. -/
theorem runWaitsForTheCompletion : Obligations.RunWaitsForTheCompletion := by
  intro s op polls hi hr hin
  have hrun : s.inputs = issueInputs s.params op ++ waitInputs s.params polls := hin.trans (List.append_nil _)
  obtain ⟨u, hu⟩ := run_complete_poll (s := polled polls [.complete, .read (regAddr s.params .status)] (issue op s))
    (op := op) rfl hr rfl
  refine ⟨_, (run_add_of_run (run_issue_polls hi hr hrun) 2).trans hu, rfl, rfl, ?_, ?_, fun k hk => ?_⟩
  · exact statusWord_busyBit (complete u)
  · exact statusWord_doneBit (complete u)
  · rw [waitInputs_eq_polls_append hk] at hrun
    exact ⟨_, run_issue_polls hi hr hrun, (statusWord_busyBit (issue op s)).trans (isBusy_of_busy rfl)⟩

end Sys2Proof.Machine
end

-- ==== The codec ====
section
/-! The code of CODEC_ENC as a floor quotient, the frame it packs, and what CODEC_DEC reads back (40_codec.md). -/

namespace Sys2Proof.Machine

open Sys2Proof

theorem clampInt_bounds {v lo hi : Int} (h : lo < hi) : lo ≤ clampInt v lo hi ∧ clampInt v lo hi ≤ hi := by
  unfold clampInt
  omega

theorem clampInt_of_mem {v lo hi : Int} (hlo : lo ≤ v) (hhi : v ≤ hi) : clampInt v lo hi = v := by
  rw [clampInt, max_eq_left hlo, min_eq_left hhi]

theorem clampInt_scaled {k : Int} (hk : 0 < k) (v lo hi : Int) :
    clampInt (k * v) (k * lo) (k * hi) = k * clampInt v lo hi := by
  rw [clampInt, clampInt, mul_min_of_nonneg _ _ hk.le, mul_max_of_nonneg _ _ hk.le]

/-- The one rule of the code (R101): it is the greatest integer whose multiple of the range fits below the scaled value. -/
theorem le_codecRaw_iff {v hi lo : Int} (h : lo < hi) (k : Int) :
    k ≤ codecRaw v hi lo ↔ k * (hi - lo) ≤ (clampInt v lo hi - lo) * 63 :=
  Int.le_ediv_iff_mul_le (Int.sub_pos_of_lt h)

theorem codecRaw_mul_le {v hi lo : Int} (h : lo < hi) :
    codecRaw v hi lo * (hi - lo) ≤ (clampInt v lo hi - lo) * 63 :=
  (le_codecRaw_iff h _).mp le_rfl

theorem lt_codecRaw_add_one_mul {v hi lo : Int} (h : lo < hi) :
    (clampInt v lo hi - lo) * 63 < (codecRaw v hi lo + 1) * (hi - lo) :=
  not_le.mp (mt (le_codecRaw_iff h _).mpr (not_le.mpr (Int.lt_succ _)))

theorem codecRaw_bounds {v hi lo : Int} (h : lo < hi) : 0 ≤ codecRaw v hi lo ∧ codecRaw v hi lo ≤ 63 := by
  obtain ⟨hlo, hhi⟩ := clampInt_bounds (v := v) h
  have hzero := le_codecRaw_iff (v := v) h 0
  have hmany := le_codecRaw_iff (v := v) h 64
  omega

theorem codecRaw_eq_zero_iff {v hi lo : Int} (h : lo < hi) :
    codecRaw v hi lo = 0 ↔ (clampInt v lo hi - lo) * 63 < hi - lo := by
  have hpos := codecRaw_bounds (v := v) h
  have hone := le_codecRaw_iff (v := v) h 1
  omega

theorem codecRaw_eq_max_iff {v hi lo : Int} (h : lo < hi) : codecRaw v hi lo = 63 ↔ clampInt v lo hi = hi := by
  have hmax := codecRaw_bounds (v := v) h
  have hclamp := clampInt_bounds (v := v) h
  have htop := le_codecRaw_iff (v := v) h 63
  omega

/-- A common positive factor of the operands cancels in the quotient (R104). -/
theorem codecRaw_scaled {k : Int} (hk : 0 < k) (v hi lo : Int) :
    codecRaw (k * v) (k * hi) (k * lo) = codecRaw v hi lo := by
  rw [codecRaw, codecRaw, clampInt_scaled hk, ← mul_sub, ← mul_sub, mul_assoc, Int.mul_ediv_mul_of_pos _ _ hk]

/-- A code in range is not cut by the mask of 6 bits (R105). -/
theorem codecFrameOf_raw_toNat {raw : Int} (hlo : 0 ≤ raw) (hhi : raw ≤ 63) (tag : BitVec 2) :
    ((codecFrameOf tag raw).extractLsb' 0 6).toNat = raw.toNat := by
  rw [codecFrameOf_raw, BitVec.toNat_ofInt, Int.emod_eq_of_lt hlo (by omega)]

theorem codecFrameOf_codecRaw_toNat {v hi lo : Int} (h : lo < hi) (tag : BitVec 2) :
    ((codecFrameOf tag (codecRaw v hi lo)).extractLsb' 0 6).toNat = (codecRaw v hi lo).toNat :=
  codecFrameOf_raw_toNat (codecRaw_bounds h).1 (codecRaw_bounds h).2 tag

/-- The frame that CODEC_ENC writes, for either range (R101, R102). -/
def encodedFrame (s : State) : BitVec 8 :=
  if codecRangeDegenerate s then 0#8
  else codecFrameOf s.codecTag (codecRaw s.codecValue.toInt s.codecMax.toInt s.codecMin.toInt)

theorem exec_codecEnc (s : State) :
    exec .codecEnc s = .next (complete (setCodecErr (codecRangeDegenerate s) { s with codecFrame := encodedFrame s })) := rfl

theorem encodedFrame_of_le {s : State} (h : s.codecMax.toInt ≤ s.codecMin.toInt) : encodedFrame s = 0#8 :=
  if_pos (codecRangeDegenerate_iff.mpr h)

theorem encodedFrame_of_lt {s : State} (h : s.codecMin.toInt < s.codecMax.toInt) :
    encodedFrame s = codecFrameOf s.codecTag (codecRaw s.codecValue.toInt s.codecMax.toInt s.codecMin.toInt) :=
  if_neg (by simp [codecRangeDegenerate_eq_false_iff.mpr h])

theorem encodedFrame_tag {s : State} (h : s.codecMin.toInt < s.codecMax.toInt) :
    (encodedFrame s).extractLsb' 6 2 = s.codecTag := by
  rw [encodedFrame_of_lt h, codecFrameOf_tag]

theorem encodedFrame_raw {s : State} (h : s.codecMin.toInt < s.codecMax.toInt) :
    (((encodedFrame s).extractLsb' 0 6).toNat : Int) =
      codecRaw s.codecValue.toInt s.codecMax.toInt s.codecMin.toInt := by
  rw [encodedFrame_of_lt h, codecFrameOf_codecRaw_toNat h, Int.toNat_of_nonneg (codecRaw_bounds h).1]

theorem exec_codecDec (s : State) :
    exec .codecDec s = .next (complete { s with
      codecDecTag := s.codecFrame.extractLsb' 6 2
      codecDecRaw := s.codecFrame.extractLsb' 0 6 }) := rfl

/-- Settles O24: it holds; a degenerate range sets the flag and the frame 0, and any other range packs the floor quotient. -/
theorem codecEncPacksTagAndScaledMagnitude : Obligations.CodecEncPacksTagAndScaledMagnitude := by
  intro s
  refine ⟨_, exec_codecEnc s, fun hle => ⟨encodedFrame_of_le hle, ?_⟩, fun hlt => ⟨?_, encodedFrame_tag hlt, ?_⟩, rfl⟩
  · simp [codecRangeDegenerate_iff.mpr hle]
  · simp [codecRangeDegenerate_eq_false_iff.mpr hlt]
  · rintro c raw rfl rfl
    have hraw := encodedFrame_raw hlt
    simp only [complete_codecFrame, setCodecErr_codecFrame, hraw]
    exact ⟨codecRaw_mul_le hlt, lt_codecRaw_add_one_mul hlt⟩

/-- Settles O25: it holds; each clause is the rule of the code at 0, 1, 63 or 64. -/
theorem codecRawReachesItsExtremesExactly : Obligations.CodecRawReachesItsExtremesExactly := by
  rintro v hi lo c h rfl
  obtain ⟨hlo, hhi⟩ := clampInt_bounds (v := v) h
  obtain ⟨hmin, hmax⟩ := codecRaw_bounds (v := v) h
  exact ⟨Int.sub_nonneg_of_le hlo, Int.sub_le_sub_right hhi lo, hmin, hmax, codecRaw_eq_zero_iff h, codecRaw_eq_max_iff h,
    codecFrameOf_codecRaw_toNat h⟩

/-- Settles O26: it holds; the factor keeps the order of the bounds, and cancels in the code. -/
theorem codecEncIsScaleInvariant : Obligations.CodecEncIsScaleInvariant := by
  intro s u k hk hv hhi hlo htag
  refine ⟨_, _, exec_codecEnc s, exec_codecEnc u, ?_⟩
  change encodedFrame u = encodedFrame s
  by_cases h : s.codecMin.toInt < s.codecMax.toInt
  · have hu : u.codecMin.toInt < u.codecMax.toInt := by
      rw [hlo, hhi]
      exact Int.mul_lt_mul_of_pos_left h hk
    rw [encodedFrame_of_lt h, encodedFrame_of_lt hu, htag, hv, hhi, hlo, codecRaw_scaled hk]
  · have hle := not_lt.mp h
    have hu : u.codecMax.toInt ≤ u.codecMin.toInt := by
      rw [hlo, hhi]
      exact Int.mul_le_mul_of_nonneg_left hle hk.le
    rw [encodedFrame_of_le hle, encodedFrame_of_le hu]

/-- Settles O27: it holds; the two bounds of the floor quotient, divided by the range. -/
theorem codecRawIsWithinOneStepBelow : Obligations.CodecRawIsWithinOneStepBelow := by
  intro v hi lo h hlo hhi
  have hrange : (0 : ℚ) < (hi : ℚ) - lo := sub_pos.mpr (by exact_mod_cast h)
  have hbelow := codecRaw_mul_le (v := v) h
  have habove := lt_codecRaw_add_one_mul (v := v) h
  rw [clampInt_of_mem hlo hhi] at hbelow habove
  rw [sub_nonneg, sub_lt_iff_lt_add', le_div_iff₀ hrange, div_lt_iff₀ hrange]
  exact ⟨by exact_mod_cast hbelow, by exact_mod_cast habove⟩

/-- Settles O29: it holds; the decoder takes the two fields that the encoder packed. -/
theorem codecDecodeInvertsEncode : Obligations.CodecDecodeInvertsEncode := by
  intro s h
  exact ⟨_, _, exec_codecEnc s, exec_codecDec _, encodedFrame_tag h, encodedFrame_raw h⟩

/-- Settles O28: it holds; the two fields are the quotient and the remainder by 64. -/
theorem codecDecSplitsTheFrame : Obligations.CodecDecSplitsTheFrame := by
  intro s
  have htag : (s.codecFrame.extractLsb' 6 2).toNat = s.codecFrame.toNat / 64 := by
    rw [BitVec.extractLsb'_toNat, Nat.shiftRight_eq_div_pow]
    omega
  have hraw : (s.codecFrame.extractLsb' 0 6).toNat = s.codecFrame.toNat % 64 := by
    rw [BitVec.extractLsb'_toNat, Nat.shiftRight_zero]
  refine ⟨_, exec_codecDec s, htag, hraw, ?_, rfl⟩
  exact (codecDecWord_toNat _).trans (congrArg₂ (fun raw tag => raw + 256 * tag) hraw htag)

end Sys2Proof.Machine
end

-- ==== The receiver's groups ====
section
/-! The samples of a capture in groups (41_uart_rx.md R124, R125), and the reference they are normalised by (R122). -/

namespace Sys2Proof.Machine

open Sys2Proof

/-! ### The reference -/

theorem rxMax_eq_max? (xs : List Nat) : rxMax xs = xs.max?.getD 0 := by
  rw [rxMax, List.foldl_max, Nat.zero_max]

theorem le_rxMax {xs : List Nat} {x : Nat} (h : x ∈ xs) : x ≤ rxMax xs := by
  rw [rxMax_eq_max?]
  exact List.le_max?_getD_of_mem h

theorem rxMax_mem {xs : List Nat} (h : xs ≠ []) : rxMax xs ∈ xs := by
  rw [rxMax_eq_max?]
  cases hm : xs.max? with
  | none => exact absurd (List.max?_eq_none_iff.mp hm) h
  | some m => exact (List.max?_eq_some_iff.mp hm).1

theorem rxMax_eq_of_mem {xs : List Nat} {m : Nat} (hm : m ∈ xs) (hle : ∀ x ∈ xs, x ≤ m) : rxMax xs = m :=
  le_antisymm (hle _ (rxMax_mem (List.ne_nil_of_mem hm))) (le_rxMax hm)

theorem rxMax_map_mul (c : Nat) (xs : List Nat) : rxMax (xs.map (c * ·)) = c * rxMax xs := by
  cases xs with
  | nil => rfl
  | cons x xs =>
    refine rxMax_eq_of_mem (List.mem_map_of_mem (rxMax_mem (List.cons_ne_nil x xs))) fun y hy => ?_
    obtain ⟨z, hz, rfl⟩ := List.mem_map.mp hy
    exact Nat.mul_le_mul_left c (le_rxMax hz)

/-- Beyond its end a capture is read as 0, so the reference bounds every index. -/
theorem getD_le_rxMax (xs : List Nat) (j : Nat) : xs.getD j 0 ≤ rxMax xs := by
  by_cases h : j < xs.length
  · rw [List.getD_eq_getElem _ _ h]
    exact le_rxMax (List.getElem_mem h)
  · rw [List.getD_eq_default _ _ (not_lt.mp h)]
    exact Nat.zero_le _

/-- Settles O35: it holds; the fold is the library's maximum. -/
theorem rxReferenceIsTheMaximum : Obligations.RxReferenceIsTheMaximum :=
  fun _ => ⟨fun _ => le_rxMax, rxMax_mem, rfl⟩

/-! ### The bounds of a group -/

theorem groupStart_intRatio (k i : Nat) : groupStart (k * 0x10000) i = k * i := by
  rw [groupStart, ← Nat.mul_assoc, Nat.mul_div_cancel _ (by decide), Nat.mul_comm]

theorem groupEnd_intRatio (k i : Nat) : groupEnd (k * 0x10000) i = k * i + k := by
  rw [groupEnd_eq_groupStart, groupStart_intRatio, Nat.mul_succ]

theorem groupStart_eq_floor (S i : Nat) : (groupStart S i : ℤ) = ⌊(i : ℚ) * ((S : ℚ) / 2 ^ 16)⌋ := by
  have h := Rat.floor_natCast_div_natCast (i * S) 0x10000
  push_cast at h
  rw [← mul_div_assoc, show (2 : ℚ) ^ 16 = 65536 by norm_num, h, groupStart]
  push_cast
  rfl

theorem floor_ratio (S : Nat) : ⌊(S : ℚ) / 2 ^ 16⌋ = ((S / 0x10000 : Nat) : ℤ) := by
  have h := groupStart_eq_floor S 1
  rw [Nat.cast_one, one_mul] at h
  rw [← h, groupStart, one_mul]

theorem ceil_ratio (S : Nat) : ⌈(S : ℚ) / 2 ^ 16⌉ = (((S + 0xFFFF) / 0x10000 : Nat) : ℤ) := by
  have h := Rat.ceil_natCast_div_natCast S 0x10000
  push_cast at h
  rw [show (2 : ℚ) ^ 16 = 65536 by norm_num, h]
  omega

theorem groupEnd_sub_groupStart (S i : Nat) :
    groupEnd S i - groupStart S i = S / 0x10000 ∨ groupEnd S i - groupStart S i = (S + 0xFFFF) / 0x10000 := by
  rw [groupEnd, groupStart, Nat.succ_mul]
  omega

theorem groupStart_le_groupEnd (S i : Nat) : groupStart S i ≤ groupEnd S i :=
  groupStart_mono (Nat.le_succ i)

/-- Group 0xFFFF ends at sample S, where the fractions of the ratio have added up: it is one of the longer groups. -/
theorem group_0xFFFF_size (S : Nat) : groupEnd S 0xFFFF - groupStart S 0xFFFF = (S + 0xFFFF) / 0x10000 := by
  unfold groupEnd groupStart
  omega

/-- Settles O36: it holds; the difference of two floor quotients is the floor or the ceiling of the quotient of the difference. -/
theorem rxGroupsPartitionTheSamples : Obligations.RxGroupsPartitionTheSamples := by
  refine ⟨fun S i => ⟨groupEnd_eq_groupStart S i, by simp [groupStart], groupStart_eq_floor S i, ?_⟩,
    fun k i => ⟨groupStart_intRatio k i, groupEnd_intRatio k i⟩⟩
  rw [floor_ratio, ceil_ratio, ← Nat.cast_sub (groupStart_le_groupEnd S i), Nat.cast_inj, Nat.cast_inj]
  exact groupEnd_sub_groupStart S i

/-! ### The number of complete groups -/

/-- Group i ends within L samples exactly when i is below a fixed quotient. -/
theorem groupEnd_le_iff {S : Nat} (h : 0x10000 ≤ S) (L i : Nat) :
    groupEnd S i ≤ L ↔ i < ((L + 1) * 0x10000 - 1) / S := by
  rw [groupEnd, Nat.lt_iff_add_one_le, Nat.le_div_iff_mul_le (by omega), ← Nat.lt_succ_iff, Nat.div_lt_iff_lt_mul (by decide)]
  omega

theorem countP_range_lt (g n : Nat) : (List.range n).countP (fun i => decide (i < g)) = min n g := by
  induction n with
  | zero => simp
  | succ n ih =>
    rw [List.range_succ, List.countP_append, ih, List.countP_singleton]
    simp only [decide_eq_true_eq]
    split <;> omega

theorem rxGroupCount_eq {S : Nat} (h : 0x10000 ≤ S) (L : Nat) : rxGroupCount S L = ((L + 1) * 0x10000 - 1) / S := by
  have bound : ((L + 1) * 0x10000 - 1) / S ≤ L := by
    refine (Nat.div_le_div_left h (by decide)).trans ?_
    omega
  simp only [rxGroupCount, groupEnd_le_iff h, countP_range_lt]
  exact min_eq_right bound

theorem lt_rxGroupCount_iff {S : Nat} (h : 0x10000 ≤ S) (L i : Nat) : i < rxGroupCount S L ↔ groupEnd S i ≤ L := by
  rw [rxGroupCount_eq h, groupEnd_le_iff h]

theorem rxGroupCount_intRatio {k : Nat} (hk : 1 ≤ k) (L : Nat) : rxGroupCount (k * 0x10000) L = L / k := by
  rw [rxGroupCount_eq (by omega), Nat.mul_comm k, ← Nat.div_div_eq_div_mul]
  congr 1
  omega

/-- Settles O37: it holds; the groups within the capture are those below one quotient, and all of them are below L. -/
theorem rxCountsExactlyTheCompleteGroups : Obligations.RxCountsExactlyTheCompleteGroups :=
  ⟨fun _ L i h => lt_rxGroupCount_iff h L i, fun _ L hk => rxGroupCount_intRatio hk L⟩

/-! ### The sum of a group -/

theorem sum_take_drop_eq_sum_range (xs : List Nat) (a n : Nat) :
    ((xs.drop a).take n).sum = ∑ r ∈ Finset.range n, xs.getD (a + r) 0 := by
  induction n with
  | zero => simp
  | succ n ih =>
    rw [List.take_add_one, List.sum_append, ih, Finset.sum_range_succ, List.getElem?_drop, List.getD_eq_getElem?_getD]
    cases xs[a + n]? <;> simp

theorem groupSum_eq_sum (S : Nat) (xs : List Nat) (i : Nat) :
    groupSum S xs i = ∑ j ∈ Finset.Ico (groupStart S i) (groupEnd S i), xs.getD j 0 := by
  rw [groupSum, sum_take_drop_eq_sum_range, Finset.sum_Ico_eq_sum_range]

theorem groupSum_le (S : Nat) (xs : List Nat) (i : Nat) :
    groupSum S xs i ≤ (groupEnd S i - groupStart S i) * rxMax xs := by
  rw [groupSum_eq_sum, ← Nat.card_Ico, ← smul_eq_mul]
  exact Finset.sum_le_card_nsmul _ _ _ fun j _ => getD_le_rxMax xs j

theorem groupSum_of_constant {S : Nat} {xs : List Nat} {i m : Nat}
    (h : ∀ j, groupStart S i ≤ j → j < groupEnd S i → xs.getD j 0 = m) :
    groupSum S xs i = (groupEnd S i - groupStart S i) * m := by
  rw [groupSum_eq_sum, Finset.sum_congr rfl fun j hj => h j (Finset.mem_Ico.mp hj).1 (Finset.mem_Ico.mp hj).2,
    Finset.sum_const, Nat.card_Ico, smul_eq_mul]

theorem groupSum_map_mul (S c : Nat) (xs : List Nat) (i : Nat) : groupSum S (xs.map (c * ·)) i = c * groupSum S xs i := by
  rw [groupSum, ← List.map_drop, ← List.map_take]
  exact (List.sum_map_mul_left _ id c).trans (by rw [List.map_id, groupSum])

theorem groupSum_pos_iff {S : Nat} {xs : List Nat} {i : Nat} :
    0 < groupSum S xs i ↔ ∃ j, groupStart S i ≤ j ∧ j < groupEnd S i ∧ xs.getD j 0 ≠ 0 := by
  simp only [groupSum_eq_sum, Finset.sum_pos_iff, Finset.mem_Ico, Nat.pos_iff_ne_zero, and_assoc]

end Sys2Proof.Machine
end

-- ==== The receiver's resolved bits ====
section
/-! The threshold detector (41_uart_rx.md R126, R123, R134, R138) and the words of the stream that it resolves (R127, R128). -/

namespace Sys2Proof.Machine

open Sys2Proof

/-! ### The vote -/

/-- For M > 0 the vote is the integer comparison of R126. -/
theorem resolveBit_iff_of_pos {M : Nat} (hM : 0 < M) (tieHigh : Bool) (S T sum : Nat) :
    resolveBit tieHigh S T M sum = true ↔ S * T * M < sum * 2 ^ 31 ∨ (tieHigh = true ∧ sum * 2 ^ 31 = S * T * M) := by
  simp [resolveBit, hM.ne', and_comm]

/-- For M = 0 nothing exceeds the threshold, and only a threshold of 0 is tied with (R123). -/
theorem resolveBit_iff_of_zero (tieHigh : Bool) (S T sum : Nat) :
    resolveBit tieHigh S T 0 sum = true ↔ tieHigh = true ∧ S * T = 0 := by
  simp only [resolveBit, if_pos, Nat.not_lt_zero, decide_false, Bool.false_or, Bool.and_eq_true, decide_eq_true_eq]
  exact ⟨fun ⟨h, t⟩ => ⟨t, h.symm⟩, fun ⟨t, h⟩ => ⟨h.symm, t⟩⟩

theorem resolveBit_of_lt {S T M sum : Nat} (hM : 0 < M) (h : S * T * M < sum * 2 ^ 31) (tieHigh : Bool) :
    resolveBit tieHigh S T M sum = true :=
  (resolveBit_iff_of_pos hM tieHigh S T sum).mpr (.inl h)

/-- Where ties resolve low, a bit is 1 exactly when its group's sum exceeds the threshold. -/
theorem resolveBit_false_iff {S T M sum : Nat} :
    resolveBit false S T M sum = true ↔ 0 < M ∧ S * T * M < sum * 2 ^ 31 := by
  rcases Nat.eq_zero_or_pos M with rfl | hM
  · simp [resolveBit_iff_of_zero]
  · simp [resolveBit_iff_of_pos hM, hM]

/-- At threshold 0 with ties high every group resolves to 1. -/
theorem resolveBit_true_threshold_zero (S M sum : Nat) : resolveBit true S 0 M sum = true := by
  rcases Nat.eq_zero_or_pos M with rfl | hM
  · simp [resolveBit_iff_of_zero]
  · rw [resolveBit_iff_of_pos hM, Nat.mul_zero, Nat.zero_mul]
    exact (Nat.eq_zero_or_pos (sum * 2 ^ 31)).symm.imp id (fun h => ⟨rfl, h⟩)

theorem resolveBit_mul {c : Nat} (hc : 0 < c) (tieHigh : Bool) (S T M sum : Nat) :
    resolveBit tieHigh S T (c * M) (c * sum) = resolveBit tieHigh S T M sum := by
  rcases Nat.eq_zero_or_pos M with rfl | hM
  · rw [Nat.mul_zero, Bool.eq_iff_iff, resolveBit_iff_of_zero, resolveBit_iff_of_zero]
  · rw [Bool.eq_iff_iff, resolveBit_iff_of_pos (Nat.mul_pos hc hM), resolveBit_iff_of_pos hM, Nat.mul_left_comm (S * T),
      Nat.mul_assoc c, Nat.mul_lt_mul_left hc, Nat.mul_right_inj hc.ne']

/-- The rational sum of a group's normalised samples (R123, R126). -/
theorem normalised_sum_eq (S : Nat) (xs : List Nat) (i : Nat) :
    (∑ j ∈ Finset.Ico (groupStart S i) (groupEnd S i), (if rxMax xs = 0 then 0 else (xs.getD j 0 : ℚ) / rxMax xs)) =
      (groupSum S xs i : ℚ) / rxMax xs := by
  rw [groupSum_eq_sum, Nat.cast_sum, Finset.sum_div]
  refine Finset.sum_congr rfl fun j _ => ?_
  split
  · rename_i hzero
    rw [hzero, Nat.cast_zero, div_zero]
  · rfl

/-- spb · t over the denominator of R126's integer comparison. -/
theorem threshold_eq (S T : Nat) : ((S : ℚ) / 2 ^ 16) * ((T : ℚ) / 2 ^ 15) = ((S * T : Nat) : ℚ) / 2 ^ 31 := by
  push_cast
  ring

/-- The vote is the comparison of the rational sum with spb · t. -/
theorem resolveBit_iff_rational (tieHigh : Bool) (S T M sum : Nat) :
    resolveBit tieHigh S T M sum = true ↔
      ((S : ℚ) / 2 ^ 16) * ((T : ℚ) / 2 ^ 15) < (sum : ℚ) / M ∨
        (tieHigh = true ∧ (sum : ℚ) / M = ((S : ℚ) / 2 ^ 16) * ((T : ℚ) / 2 ^ 15)) := by
  rw [threshold_eq]
  rcases Nat.eq_zero_or_pos M with rfl | hM
  · have nonneg : ¬ ((S * T : Nat) : ℚ) / 2 ^ 31 < 0 := not_lt.mpr (by positivity)
    rw [resolveBit_iff_of_zero, Nat.cast_zero, div_zero, or_iff_right nonneg, eq_comm (a := (0 : ℚ)), div_eq_zero_iff,
      or_iff_left (by positivity), Nat.cast_eq_zero]
  · have hM' : (0 : ℚ) < M := Nat.cast_pos.mpr hM
    rw [resolveBit_iff_of_pos hM, div_lt_div_iff₀ (by positivity) hM', div_eq_div_iff hM'.ne' (by positivity)]
    exact_mod_cast Iff.rfl

theorem getElem?_rxBits {tieHigh : Bool} {S T : Nat} {xs : List Nat} {i : Nat} (h : i < rxGroupCount S xs.length) :
    (rxBits tieHigh S T xs)[i]? = some (resolveBit tieHigh S T (rxMax xs) (groupSum S xs i)) := by
  rw [rxBits, List.getElem?_map, List.getElem?_range h, Option.map_some]

/-- Settles O38: it holds; the two fractions are compared over their common denominator 2^31 · M. -/
theorem rxBitIsTheRationalThresholdVote : Obligations.RxBitIsTheRationalThresholdVote := by
  rintro tieHigh S T xs i v thr - rfl rfl
  rw [normalised_sum_eq]
  exact ⟨resolveBit_iff_rational .., fun hM => resolveBit_iff_of_pos hM .., rxBits_length .., getElem?_rxBits⟩

/-- Settles O41: it holds; the factor is in the reference and in every sum, and cancels in the vote. -/
theorem rxIsAmplitudeInvariant : Obligations.RxIsAmplitudeInvariant := by
  intro tieHigh S T c xs hc
  simp only [rxBits, List.length_map, rxMax_map_mul, groupSum_map_mul, resolveBit_mul hc]

/-! ### The corners of the threshold -/

/-- A group that holds the maximum throughout resolves to 1 whenever its size exceeds spb · t. -/
theorem resolveBit_of_all_maximum {S T : Nat} {xs : List Nat} {i : Nat} (hM : 0 < rxMax xs)
    (hall : ∀ j, groupStart S i ≤ j → j < groupEnd S i → xs.getD j 0 = rxMax xs)
    (hsize : S * T < (groupEnd S i - groupStart S i) * 2 ^ 31) (tieHigh : Bool) :
    resolveBit tieHigh S T (rxMax xs) (groupSum S xs i) = true := by
  refine resolveBit_of_lt hM ?_ tieHigh
  rw [groupSum_of_constant hall, Nat.mul_right_comm _ (rxMax xs) (2 ^ 31)]
  exact Nat.mul_lt_mul_of_pos_right hsize hM

/-- The size of a group exceeds spb · t as rationals exactly when it does over the integers. -/
theorem mul_lt_size_of_rational {S T n : Nat} (h : ((S : ℚ) / 2 ^ 16) * ((T : ℚ) / 2 ^ 15) < n) : S * T < n * 2 ^ 31 := by
  rw [threshold_eq, div_lt_iff₀ (by positivity)] at h
  exact_mod_cast h

/-- At t = 1 with ties low no group of an integer ratio exceeds the threshold: it holds k samples, none above the maximum. -/
theorem resolveBit_threshold_one_low (k : Nat) (xs : List Nat) (i : Nat) :
    resolveBit false (k * 0x10000) 0x8000 (rxMax xs) (groupSum (k * 0x10000) xs i) = false := by
  have sum := groupSum_le (k * 0x10000) xs i
  rw [groupEnd_intRatio, groupStart_intRatio, Nat.add_sub_cancel_left] at sum
  rw [Bool.eq_false_iff, ne_eq, resolveBit_false_iff, Nat.mul_assoc k, Nat.mul_right_comm]
  omega

/-- At t = 1 with ties high a group of maximum samples is tied. -/
theorem resolveBit_threshold_one_high {k : Nat} {xs : List Nat} {i : Nat} (hM : 0 < rxMax xs)
    (hall : ∀ j, k * i ≤ j → j < k * i + k → xs.getD j 0 = rxMax xs) :
    resolveBit true (k * 0x10000) 0x8000 (rxMax xs) (groupSum (k * 0x10000) xs i) = true := by
  rw [← groupEnd_intRatio, ← groupStart_intRatio] at hall
  rw [resolveBit_iff_of_pos hM, groupSum_of_constant hall, groupEnd_intRatio, groupStart_intRatio, Nat.add_sub_cancel_left]
  refine .inr ⟨rfl, ?_⟩
  ring

/-- Settles O43: it holds; each corner bounds the sum of a group by its size times the maximum. -/
theorem rxThresholdCorners : Obligations.RxThresholdCorners := by
  refine ⟨fun S xs i _ => ?_, resolveBit_threshold_one_low, fun k xs i _ hall hM => resolveBit_threshold_one_high hM hall,
    fun tieHigh S xs i _ hfrac _ hsize hall hM => ?_, fun S _ _ => ⟨0xFFFF, ?_⟩⟩
  · have bound := groupSum_le S xs i
    rw [resolveBit_false_iff, ← groupSum_pos_iff, Nat.mul_zero, Nat.zero_mul]
    refine ⟨fun ⟨_, h⟩ => by omega, fun h => ⟨?_, by omega⟩⟩
    exact Nat.pos_of_mul_pos_left (h.trans_le bound)
  · have size : groupEnd S i - groupStart S i = (S + 0xFFFF) / 0x10000 := by
      rwa [ceil_ratio, ← Nat.cast_sub (groupStart_le_groupEnd S i), Nat.cast_inj] at hsize
    refine ⟨resolveBit_of_all_maximum hM hall ?_ tieHigh, fun T hT => resolveBit_of_all_maximum hM hall ?_ tieHigh⟩
    · rw [size]
      omega
    · rw [size]
      exact mul_lt_size_of_rational (by rw [ceil_ratio] at hT; exact_mod_cast hT)
  · rw [ceil_ratio, ← Nat.cast_sub (groupStart_le_groupEnd S 0xFFFF), group_0xFFFF_size]

/-! ### Words -/

theorem wordValid_iff {bits : List Bool} {w : Nat} :
    wordValid bits w = true ↔ bitAt bits (10 * w) = false ∧ bitAt bits (10 * w + 9) = true := by
  rw [wordValid, Bool.and_eq_true, Bool.not_eq_true']

theorem bits_sum_succ (f : Nat → Bool) (n : Nat) :
    ((List.range (n + 1)).map fun i => (f i).toNat <<< i).sum =
      2 ^ n * (f n).toNat + ((List.range n).map fun i => (f i).toNat <<< i).sum := by
  rw [List.range_succ, List.map_append, List.sum_append, List.map_singleton, List.sum_singleton, Nat.shiftLeft_eq,
    Nat.add_comm, Nat.mul_comm]

theorem bits_sum_lt (f : Nat → Bool) (n : Nat) : ((List.range n).map fun i => (f i).toNat <<< i).sum < 2 ^ n := by
  induction n with
  | zero => simp
  | succ n ih =>
    have bit : 2 ^ n * (f n).toNat ≤ 2 ^ n * 1 := Nat.mul_le_mul_left _ (Bool.toNat_le _)
    rw [bits_sum_succ]
    omega

theorem bits_sum_testBit (f : Nat → Bool) {n i : Nat} (h : i < n) :
    ((List.range n).map fun i => (f i).toNat <<< i).sum.testBit i = f i := by
  induction n with
  | zero => exact absurd h (Nat.not_lt_zero i)
  | succ n ih =>
    rw [bits_sum_succ, Nat.testBit_two_pow_mul_add _ (bits_sum_lt f n)]
    split
    · next hlt => exact ih hlt
    · next hge =>
      obtain rfl : i = n := by omega
      rw [Nat.sub_self]
      cases f i <;> rfl

theorem getLsbD_wordByte (bits : List Bool) (w : Nat) {i : Nat} (h : i < 8) :
    (wordByte bits w).getLsbD i = bitAt bits (10 * w + 1 + i) := by
  rw [wordByte, BitVec.getLsbD_ofNat, decide_eq_true h, Bool.true_and]
  exact bits_sum_testBit (fun i => bitAt bits (10 * w + 1 + i)) h

/-- Settles O39: it holds; the sum of the shifted bits has each of them in its place. -/
theorem rxWordIsLsbFirst : Obligations.RxWordIsLsbFirst :=
  fun bits w => ⟨fun _ h => getLsbD_wordByte bits w h, wordValid_iff⟩

end Sys2Proof.Machine
end

-- ==== The receiver's command ====
section
/-! UART_RX_DECODE: what it writes for a ratio below 1 (41_uart_rx.md R121) and for a legal one (R129 to R133), the short captures
(R136, R139), and that it leaves its operands alone (R132). -/

namespace Sys2Proof.Machine

open Sys2Proof

/-! ### Both paths of the command -/

/-- The state after a decode with a ratio below 1 (R121). -/
def rxUnconfigured (s : State) : State := complete (setCfgErr true (writeRxResults [] 0 0 s))

/-- The state after a decode that resolved these bits (R129). -/
def rxDecoded (bits : List Bool) (s : State) : State :=
  complete (setShort (rxTailDiscarded (rxSpbOp s) (rxLenOp s) bits.length)
    (setFrameErr (decide (0 < rxDropped bits)) (writeRxResults (rxOut bits) bits.length (rxDropped bits) s)))

/-- The bits that the operands in a state resolve to. -/
def resolvedBits (s : State) : List Bool := rxBits s.params.rxTieHigh (rxSpbOp s) (rxThreshOp s) (rxSamplesOp s)

theorem exec_uartRxDecode_of_lt {s : State} (h : s.rxSpb.toNat < 0x10000) :
    exec .uartRxDecode s = .next (rxUnconfigured s) :=
  if_pos (rxRatioBelowOne_iff.mpr h)

theorem exec_uartRxDecode_of_le {s : State} (h : 0x10000 ≤ s.rxSpb.toNat) :
    exec .uartRxDecode s = .next (rxDecoded (resolvedBits s) s) :=
  if_neg (by rw [rxRatioBelowOne_eq_false_iff.mpr h]; exact Bool.false_ne_true)

theorem resolvedBits_length (s : State) : (resolvedBits s).length = rxGroupCount s.rxSpb.toNat s.rxLen.toNat := by
  rw [resolvedBits, rxBits_length, rxSamplesOp_length, rxSpbOp, rxLenOp]

theorem resolvedBits_length_le (s : State) : (resolvedBits s).length ≤ s.rxLen.toNat :=
  (resolvedBits_length s).trans_le (rxGroupCount_le _ _)

/-- On both paths every byte outside RX_BYTE is left alone. -/
theorem exec_uartRxDecode_sameBytesOutside {s t : State} (h : exec .uartRxDecode s = .next t) :
    SameBytesOutside (bufAddr .rxByte 0) (bufAddr .rxByte s.params.rxOutDepth) s.mem t.mem := by
  obtain ⟨bits, -, -, -, -, hm⟩ := exec_uartRxDecode_results h
  intro a ha
  rw [hm]
  exact readByte_fillBuffer_outside ha

/-- On both paths the command changes memory, the counts, STATUS and the phase alone. -/
theorem exec_uartRxDecode_frame {s t : State} (h : exec .uartRxDecode s = .next t) :
    t = { s with
      mem := t.mem, rxNbytes := t.rxNbytes, rxNbits := t.rxNbits, rxNdrop := t.rxNdrop, phase := .idle, status := t.status } := by
  obtain ⟨idle, -⟩ := exec_frame h
  have changes := exec_changes h
  rw [withChangesOf, idle] at changes
  exact changes

/-! ### A ratio below 1 -/

theorem readEntry_rxUnconfigured {s : State} {k : Nat} (hw : s.mem.wf = true) (hk : k < s.params.rxOutDepth) :
    readEntry (rxUnconfigured s) .rxByte k = 0#32 :=
  readEntry_writeRxResults (nbits := 0) (ndrop := 0) hw hk

theorem rxUnconfigured_status (s : State) :
    (rxUnconfigured s).status = { s.status with done := true, cfgErr := true } := by
  simp [rxUnconfigured]

/-- Settles O33: it holds; the path of R121 writes the results of no bits. -/
theorem rxRatioBelowOneGivesAnEmptyResult : Obligations.RxRatioBelowOneGivesAnEmptyResult := by
  intro s _ hw hS
  have run := exec_uartRxDecode_of_lt hS
  have frame := exec_uartRxDecode_frame run
  rw [rxUnconfigured_status] at frame
  exact ⟨_, run, fun k hk => readEntry_rxUnconfigured hw hk, exec_uartRxDecode_sameBytesOutside run, frame⟩

/-! ### A legal ratio -/

theorem readEntry_rxDecoded {s : State} {k : Nat} (hw : s.mem.wf = true) (bits : List Bool) (hk : k < s.params.rxOutDepth) :
    readEntry (rxDecoded bits s) .rxByte k = ((rxOut bits).getD k 0#8).setWidth 32 :=
  readEntry_writeRxResults (nbits := bits.length) (ndrop := rxDropped bits) hw hk

theorem rxDecoded_status (bits : List Bool) (s : State) :
    (rxDecoded bits s).status =
      { s.status with
        done := true
        frameErr := s.status.frameErr || decide (0 < rxDropped bits)
        short := s.status.short || rxTailDiscarded s.rxSpb.toNat s.rxLen.toNat bits.length } := by
  simp [rxDecoded, rxSpbOp, rxLenOp]

theorem rxDecoded_rxNbytes (bits : List Bool) (s : State) : (rxDecoded bits s).rxNbytes = BitVec.ofNat 32 (rxOut bits).length :=
  rfl

theorem rxDecoded_rxNbits (bits : List Bool) (s : State) : (rxDecoded bits s).rxNbits = BitVec.ofNat 32 bits.length := rfl

theorem rxDecoded_rxNdrop (bits : List Bool) (s : State) : (rxDecoded bits s).rxNdrop = BitVec.ofNat 32 (rxDropped bits) := rfl

theorem rxDropped_eq_length_filter (bits : List Bool) :
    rxDropped bits = ((List.range (bits.length / 10)).filter fun w => !wordValid bits w).length :=
  List.countP_eq_length_filter

/-- The counts of no more bits than RX_LEN fit their registers, and are read as they are (R133). -/
theorem rxDecoded_counts {bits : List Bool} {s : State} (h : bits.length ≤ s.rxLen.toNat) :
    (rxDecoded bits s).rxNbytes.toNat = (rxOut bits).length ∧ (rxDecoded bits s).rxNbits.toNat = bits.length ∧
      (rxDecoded bits s).rxNdrop.toNat = rxDropped bits := by
  have words := rxOut_length_add_dropped bits
  have small := s.rxLen.isLt
  rw [rxDecoded_rxNbytes, rxDecoded_rxNbits, rxDecoded_rxNdrop, BitVec.toNat_ofNat, BitVec.toNat_ofNat, BitVec.toNat_ofNat]
  exact ⟨Nat.mod_eq_of_lt (by omega), Nat.mod_eq_of_lt (by omega), Nat.mod_eq_of_lt (by omega)⟩

/-- Settles O34: it holds; each result of the decode is read off the state that it leaves. -/
theorem rxDecodeWritesTheRecoveredBytes : Obligations.RxDecodeWritesTheRecoveredBytes := by
  intro s bits _ hw _ hS hbits
  obtain rfl : bits = resolvedBits s := hbits
  have run := exec_uartRxDecode_of_le hS
  obtain ⟨nbytes, nbits, ndrop⟩ := rxDecoded_counts (resolvedBits_length_le s)
  have status := rxDecoded_status (resolvedBits s) s
  refine ⟨_, run, fun k hk => ?_, ?_, nbits, ndrop.trans (rxDropped_eq_length_filter _), ?_, ?_,
    exec_uartRxDecode_sameBytesOutside run, ?_⟩
  · rw [readEntry_rxDecoded hw _ hk, BitVec.toNat_setWidth_of_le (by decide)]
    rfl
  · rw [nbytes, rxOut, List.length_map]
    rfl
  · rw [status, ndrop, Bool.or_eq_true, decide_eq_true_iff]
  · rw [status, Bool.or_eq_true, rxTailDiscarded_iff]
  · have frame := exec_uartRxDecode_frame run
    rw [status] at frame ⊢
    exact frame

/-- Settles O40: it holds; there are no more groups than samples, and every complete word is kept or dropped. -/
theorem rxOutputIsBounded : Obligations.RxOutputIsBounded := by
  intro s _ hlen hS
  have bits := resolvedBits_length_le s
  obtain ⟨nbytes, nbits, ndrop⟩ := rxDecoded_counts bits
  refine ⟨_, exec_uartRxDecode_of_le hS, nbits.trans_le bits, ?_, ?_⟩
  · rw [nbytes, nbits, ndrop, rxOut_length_add_dropped]
  · rw [nbits, Params.rxOutDepth]
    exact Nat.div_le_div_right (bits.trans hlen)

/-! ### Short captures -/

/-- Fewer than ten bits make no word, so nothing is recovered and nothing is dropped. -/
theorem rxOut_and_rxDropped_of_lt_ten {bits : List Bool} (h : bits.length < 10) : rxOut bits = [] ∧ rxDropped bits = 0 := by
  have words := rxOut_length_add_dropped bits
  exact ⟨List.eq_nil_of_length_eq_zero (by omega), by omega⟩

/-- A decode of fewer than ten bits leaves RX_BYTE, RX_NBYTES and RX_NDROP 0, and sets SHORT for discarded samples or bits alone. -/
theorem rxDecoded_of_lt_ten {bits : List Bool} {s : State} (h : bits.length < 10) :
    (rxDecoded bits s).rxNbytes = 0#32 ∧ (rxDecoded bits s).rxNdrop = 0#32 ∧
      (s.mem.wf = true → ∀ k, k < s.params.rxOutDepth → readEntry (rxDecoded bits s) .rxByte k = 0#32) ∧
      (rxDecoded bits s).status =
        { s.status with
          done := true, short := s.status.short || rxTailDiscarded s.rxSpb.toNat s.rxLen.toNat bits.length } := by
  obtain ⟨out, dropped⟩ := rxOut_and_rxDropped_of_lt_ten h
  refine ⟨?_, ?_, fun hw k hk => ?_, ?_⟩
  · rw [rxDecoded_rxNbytes, out]
    rfl
  · rw [rxDecoded_rxNdrop, dropped]
  · rw [readEntry_rxDecoded hw bits hk, out]
    rfl
  · rw [rxDecoded_status, dropped, decide_eq_false (lt_irrefl 0), Bool.or_false]

/-- Settles O44: it holds; 9 bits or none make no word, and only what is left over of the capture can set SHORT. -/
theorem rxShortCapturesYieldNoByte : Obligations.RxShortCapturesYieldNoByte := by
  intro s _ hw _ hS
  have run := exec_uartRxDecode_of_le hS
  have count := resolvedBits_length s
  refine ⟨fun hnine => ?_, fun hshort => ?_⟩
  · rw [hnine] at count
    obtain ⟨nbytes, -, entries, status⟩ := rxDecoded_of_lt_ten (s := s) (count.trans_lt (by decide))
    have tail : rxTailDiscarded s.rxSpb.toNat s.rxLen.toNat 9 = true := rxTailDiscarded_iff.mpr (.inr (by decide))
    rw [count, tail, Bool.or_true] at status
    exact ⟨_, run, nbytes, by rw [rxDecoded_rxNbits, count], entries hw, status⟩
  · have noGroup : rxGroupCount s.rxSpb.toNat s.rxLen.toNat = 0 :=
      Nat.eq_zero_of_not_pos fun hpos => not_le.mpr hshort ((lt_rxGroupCount_iff hS _ 0).mp hpos)
    rw [noGroup] at count
    obtain ⟨nbytes, ndrop, entries, status⟩ := rxDecoded_of_lt_ten (s := s) (count.trans_lt (by decide))
    have tail : rxTailDiscarded s.rxSpb.toNat s.rxLen.toNat 0 = decide (0 < s.rxLen.toNat) := by
      rw [Bool.eq_iff_iff, rxTailDiscarded_iff, decide_eq_true_iff, Nat.zero_mul, Nat.zero_div]
      exact or_iff_left (by decide)
    rw [count, tail] at status
    exact ⟨_, run, by rw [rxDecoded_rxNbits, count], nbytes, ndrop, entries hw, status⟩

/-! ### Repetition -/

theorem exec_rxSpb {op : Instr} {s t : State} (h : exec op s = .next t) : t.rxSpb = s.rxSpb :=
  (congrArg State.rxSpb (exec_frame h).2 :)

theorem exec_rxThresh {op : Instr} {s t : State} (h : exec op s = .next t) : t.rxThresh = s.rxThresh :=
  (congrArg State.rxThresh (exec_frame h).2 :)

/-- RX_SAMPLE is no result of the command (R132). -/
theorem exec_uartRxDecode_rxSample {s t : State} (hp : s.params.legal = true) (h : exec .uartRxDecode s = .next t) {j : Nat}
    (hj : j < s.params.rxDepth) : readEntry t .rxSample j = readEntry s .rxSample j :=
  exec_readEntry hp h (by decide) hj

theorem resolvedBits_exec_uartRxDecode {s t : State} (hp : s.params.legal = true) (hlen : s.rxLen.toNat ≤ s.params.rxDepth)
    (h : exec .uartRxDecode s = .next t) : resolvedBits t = resolvedBits s := by
  have samples : rxSamplesOp t = rxSamplesOp s := by
    rw [rxSamplesOp, rxSamplesOp, rxLenOp, rxLenOp, exec_rxLen h]
    refine List.map_congr_left fun j hj => ?_
    rw [exec_uartRxDecode_rxSample hp h ((List.mem_range.mp hj).trans_le hlen)]
  rw [resolvedBits, resolvedBits, samples, rxSpbOp, rxSpbOp, rxThreshOp, rxThreshOp, exec_params h, exec_rxSpb h, exec_rxThresh h]

theorem exec_uartRxDecode_wf {s t : State} (hw : s.mem.wf = true) (h : exec .uartRxDecode s = .next t) : t.mem.wf = true := by
  obtain ⟨bits, -, -, -, -, hm⟩ := exec_uartRxDecode_results h
  rw [hm]
  exact wf_fillBuffer hw

/-- A second decode sets no flag that the first has not set. -/
theorem rxDecoded_rxDecoded_status (bits : List Bool) (s : State) :
    (rxDecoded bits (rxDecoded bits s)).status = (rxDecoded bits s).status := by
  have spb : (rxDecoded bits s).rxSpb = s.rxSpb := by simp [rxDecoded]
  have len : (rxDecoded bits s).rxLen = s.rxLen := by simp [rxDecoded]
  rw [rxDecoded_status, spb, len, rxDecoded_status]
  simp only [Bool.or_assoc, Bool.or_self]

/-- The results are a function of the operands, so they are the same where the same command runs on the same operands. -/
theorem exec_uartRxDecode_twice {s t u : State} (hp : s.params.legal = true) (hw : s.mem.wf = true)
    (hlen : s.rxLen.toNat ≤ s.params.rxDepth) (ht : exec .uartRxDecode s = .next t) (hu : exec .uartRxDecode t = .next u) :
    RxResultsKept t u ∧ u.status = t.status := by
  have hw' := exec_uartRxDecode_wf hw ht
  have hp' := exec_params ht
  have hS' := exec_rxSpb ht
  have bits := resolvedBits_exec_uartRxDecode hp hlen ht
  rcases lt_or_ge s.rxSpb.toNat 0x10000 with hS | hS
  · rw [exec_uartRxDecode_of_lt hS] at ht
    rw [exec_uartRxDecode_of_lt (hS'.symm ▸ hS)] at hu
    cases ht
    cases hu
    refine ⟨⟨rfl, rfl, rfl, fun k hk => ?_⟩, by simp [rxUnconfigured_status]⟩
    rw [readEntry_rxUnconfigured hw' hk, readEntry_rxUnconfigured hw (hp' ▸ hk)]
  · rw [exec_uartRxDecode_of_le hS] at ht
    rw [exec_uartRxDecode_of_le (hS'.symm ▸ hS), bits] at hu
    cases ht
    cases hu
    refine ⟨⟨rfl, rfl, rfl, fun k hk => ?_⟩, rxDecoded_rxDecoded_status _ s⟩
    rw [readEntry_rxDecoded hw' _ hk, readEntry_rxDecoded hw _ (hp' ▸ hk)]

/-- Settles O45: it holds; the command changes none of its operands, and the results are a function of them. -/
theorem rxDecodeIsRepeatable : Obligations.RxDecodeIsRepeatable := by
  intro s hp hw hlen
  obtain ⟨t, ht⟩ := exec_completes .uartRxDecode s
  obtain ⟨u, hu⟩ := exec_completes .uartRxDecode (complete t)
  obtain ⟨⟨nbytes, nbits, ndrop, entries⟩, status⟩ := exec_uartRxDecode_twice hp hw hlen ht hu
  have hp' := exec_params ht
  refine ⟨_, _, ht, hu, nbytes, nbits, ndrop, status, fun k hk => entries k (hp'.symm ▸ hk), fun j hj => ?_,
    (exec_rxLen hu).trans (exec_rxLen ht), (exec_rxSpb hu).trans (exec_rxSpb ht), (exec_rxThresh hu).trans (exec_rxThresh ht)⟩
  rw [exec_uartRxDecode_rxSample (hp'.symm ▸ hp) hu (hp'.symm ▸ hj), exec_uartRxDecode_rxSample hp ht hj]

end Sys2Proof.Machine
end

-- ==== The round trip of the receiver and the transmitter ====
section
/-! A noiseless oversampled capture of framed bytes decodes to those bytes (41_uart_rx.md R135; 42_uart_tx.md R151). -/

namespace Sys2Proof.Machine

open Sys2Proof

/-! ### A list of equal blocks -/

/-- In a list of blocks of one length, block i is found at i times that length. -/
theorem take_drop_flatMap {α β : Type} {g : α → List β} {k : Nat} (hg : ∀ a, (g a).length = k) {q : List α} {i : Nat}
    (hi : i < q.length) : ((q.flatMap g).drop (k * i)).take k = g q[i] := by
  induction q generalizing i with
  | nil => exact absurd hi (Nat.not_lt_zero i)
  | cons a q ih =>
    rw [List.flatMap_cons]
    cases i with
    | zero => exact List.take_left' (hg a)
    | succ i =>
      rw [Nat.mul_succ, Nat.add_comm, ← List.drop_drop, List.drop_left' (hg a)]
      exact ih (Nat.lt_of_succ_lt_succ hi)

theorem length_flatMap_of_blocks {α β : Type} {g : α → List β} {k : Nat} (hg : ∀ a, (g a).length = k) (q : List α) :
    (q.flatMap g).length = k * q.length := by
  simp only [List.length_flatMap, hg, List.map_const', List.sum_replicate, smul_eq_mul, Nat.mul_comm]

/-! ### The stream of framed bytes -/

/-- The ten bits of a byte's frame, in the order of transmission (R151, R153). -/
def frameBits (b : Byte) : List Bool := (List.range 10).map ((frameOf b).getLsbD ·)

/-- The BitSequence of some bytes (R153). -/
def framedBits (bytes : List Byte) : List Bool := bytes.flatMap frameBits

theorem frameBits_length (b : Byte) : (frameBits b).length = 10 := by
  rw [frameBits, List.length_map, List.length_range]

theorem framedBits_length (bytes : List Byte) : (framedBits bytes).length = 10 * bytes.length :=
  length_flatMap_of_blocks frameBits_length bytes

theorem bitAt_framedBits {bytes : List Byte} {w r : Nat} (hw : w < bytes.length) (hr : r < 10) :
    bitAt (framedBits bytes) (10 * w + r) = (frameOf bytes[w]).getLsbD r := by
  have block : (((framedBits bytes).drop (10 * w)).take 10)[r]? = (frameBits bytes[w])[r]? :=
    congrArg (·[r]?) (take_drop_flatMap frameBits_length hw)
  rw [List.getElem?_take_of_lt hr, List.getElem?_drop, frameBits, List.getElem?_map, List.getElem?_range hr] at block
  rw [bitAt, List.getD_eq_getElem?_getD, block]
  rfl

/-- The data bits of a frame follow its start bit, the least significant first (R151). -/
theorem frameOf_data (b : Byte) {i : Nat} (h : i < 8) : (frameOf b).getLsbD (1 + i) = b.getLsbD i := by
  have inFrame : 1 + i < 10 := by omega
  have notStop : 1 + i < 9 := by omega
  have inByte : i < 10 := by omega
  rw [frameOf, BitVec.getLsbD_or, BitVec.getLsbD_shiftLeft, BitVec.getLsbD_shiftLeft, BitVec.getLsbD_setWidth]
  simp [inFrame, notStop, inByte]

theorem wordValid_framedBits {bytes : List Byte} {w : Nat} (hw : w < bytes.length) : wordValid (framedBits bytes) w = true :=
  wordValid_iff.mpr ⟨(bitAt_framedBits (r := 0) hw (by decide)).trans (frameOf_start _),
    (bitAt_framedBits hw (by decide)).trans (frameOf_stop _)⟩

theorem wordByte_framedBits {bytes : List Byte} {w : Nat} (hw : w < bytes.length) :
    wordByte (framedBits bytes) w = bytes[w] := by
  refine BitVec.eq_of_getLsbD_eq fun i hi => ?_
  rw [getLsbD_wordByte _ _ hi, Nat.add_assoc, bitAt_framedBits hw (by omega), frameOf_data _ hi]

theorem wordCount_framedBits (bytes : List Byte) : wordCount (framedBits bytes) = bytes.length := by
  rw [wordCount, framedBits_length, Nat.mul_div_cancel_left _ (by decide)]

/-- Every word of the stream is valid, and its byte is the byte framed. -/
theorem rxOut_framedBits (bytes : List Byte) : rxOut (framedBits bytes) = bytes := by
  have allValid : (List.range bytes.length).filter (wordValid (framedBits bytes)) = List.range bytes.length :=
    List.filter_eq_self.mpr fun w hw => wordValid_framedBits (List.mem_range.mp hw)
  rw [rxOut, wordCount_framedBits, allValid]
  refine List.ext_getElem (by simp) fun w hw hw' => ?_
  rw [List.getElem_map, List.getElem_range, wordByte_framedBits hw']

theorem rxDropped_framedBits (bytes : List Byte) : rxDropped (framedBits bytes) = 0 := by
  have words := rxOut_length_add_dropped (framedBits bytes)
  rw [rxOut_framedBits, framedBits_length] at words
  omega

theorem true_mem_framedBits {bytes : List Byte} (h : framedBits bytes ≠ []) : true ∈ framedBits bytes := by
  cases bytes with
  | nil => exact absurd rfl h
  | cons b bytes =>
    exact List.mem_flatMap.mpr ⟨b, List.mem_cons_self, List.mem_map.mpr ⟨9, by decide, frameOf_stop b⟩⟩

/-! ### The capture that repeats each bit -/

/-- The level of a bit at amplitude `h`. -/
def levelOf (h : Nat) (q : Bool) : Nat := if q then h else 0

/-- The capture of a bit stream, each bit held for k samples at amplitude `h` (R135). -/
def noiselessCapture (k h : Nat) (q : List Bool) : List Nat := q.flatMap fun b => List.replicate k (levelOf h b)

theorem noiselessCapture_length (k h : Nat) (q : List Bool) : (noiselessCapture k h q).length = k * q.length :=
  length_flatMap_of_blocks (fun _ => List.length_replicate) q

theorem groupSum_noiselessCapture {k h i : Nat} {q : List Bool} (hi : i < q.length) :
    groupSum (k * 0x10000) (noiselessCapture k h q) i = k * levelOf h q[i] := by
  have block := take_drop_flatMap (g := fun b => List.replicate k (levelOf h b)) (fun _ => List.length_replicate) hi
  rw [groupSum, groupEnd_intRatio, groupStart_intRatio, Nat.add_sub_cancel_left, noiselessCapture, block, List.sum_replicate,
    smul_eq_mul]

theorem rxMax_noiselessCapture {k h : Nat} (hk : 1 ≤ k) {q : List Bool} (hq : true ∈ q) :
    rxMax (noiselessCapture k h q) = h := by
  refine rxMax_eq_of_mem ?_ fun x hx => ?_
  · exact List.mem_flatMap.mpr ⟨true, hq, List.mem_replicate.mpr ⟨by omega, rfl⟩⟩
  · obtain ⟨b, -, hb⟩ := List.mem_flatMap.mp hx
    rw [(List.mem_replicate.mp hb).2, levelOf]
    split
    · exact le_rfl
    · exact Nat.zero_le h

/-- A group of one level resolves to its bit: k ones exceed k · t for t < 1, and k zeros do not (R135). -/
theorem resolveBit_of_level {tieHigh : Bool} {k h T : Nat} (hk : 1 ≤ k) (hh : 1 ≤ h) (hT : T < 0x8000)
    (htie : tieHigh = true → 0 < T) (b : Bool) : resolveBit tieHigh (k * 0x10000) T h (k * levelOf h b) = b := by
  have area : 0 < k * h := Nat.mul_pos hk hh
  have threshold : k * 0x10000 * T * h = k * h * (0x10000 * T) := by ring
  cases b with
  | true =>
    refine resolveBit_of_lt hh ?_ tieHigh
    rw [threshold, levelOf, if_pos rfl]
    exact Nat.mul_lt_mul_of_pos_left (by omega) area
  | false =>
    rw [Bool.eq_false_iff, ne_eq, resolveBit_iff_of_pos hh, threshold, levelOf, if_neg Bool.false_ne_true, Nat.mul_zero,
      Nat.zero_mul, not_or]
    refine ⟨Nat.not_lt_zero _, fun ⟨high, tie⟩ => ?_⟩
    exact (Nat.mul_pos area (Nat.mul_pos (by decide) (htie high))).ne tie

theorem rxGroupCount_noiselessCapture {k : Nat} (hk : 1 ≤ k) (h : Nat) (q : List Bool) :
    rxGroupCount (k * 0x10000) (noiselessCapture k h q).length = q.length := by
  rw [rxGroupCount_intRatio hk, noiselessCapture_length, Nat.mul_div_cancel_left _ hk]

theorem rxBits_noiselessCapture {tieHigh : Bool} {k h T : Nat} (hk : 1 ≤ k) (hh : 1 ≤ h) (hT : T < 0x8000)
    (htie : tieHigh = true → 0 < T) {q : List Bool} (hq : q ≠ [] → true ∈ q) :
    rxBits tieHigh (k * 0x10000) T (noiselessCapture k h q) = q := by
  have count := rxGroupCount_noiselessCapture hk h q
  refine List.ext_getElem ((rxBits_length ..).trans count) fun i _ hi => ?_
  have nonempty : q ≠ [] := List.ne_nil_of_length_pos (Nat.zero_lt_of_lt hi)
  have bit := getElem?_rxBits (tieHigh := tieHigh) (T := T) (hi.trans_eq count.symm)
  rw [rxMax_noiselessCapture hk (hq nonempty), groupSum_noiselessCapture hi, resolveBit_of_level hk hh hT htie] at bit
  exact (List.getElem?_eq_some_iff.mp bit).2

/-- With t = 0 and ties high every bit of any capture resolves to 1 (R135). -/
theorem rxBits_threshold_zero (S : Nat) (xs : List Nat) :
    rxBits true S 0 xs = List.replicate (rxGroupCount S xs.length) true := by
  simp only [rxBits, resolveBit_true_threshold_zero, List.map_const', List.length_range]

/-- No start bit is 0 in a stream of ones. -/
theorem rxOut_replicate_true (n : Nat) : rxOut (List.replicate (10 * n) true) = [] := by
  rw [rxOut, List.map_eq_nil_iff, List.filter_eq_nil_iff]
  intro w hw
  rw [wordCount, List.length_replicate, Nat.mul_div_cancel_left _ (by decide), List.mem_range] at hw
  have start : bitAt (List.replicate (10 * n) true) (10 * w) = true := by
    rw [bitAt, List.getD_eq_getElem _ _ (by rw [List.length_replicate]; omega), List.getElem_replicate]
  rw [wordValid_iff, start]
  exact fun ⟨low, _⟩ => Bool.noConfusion low

/-! ### The command on that capture -/

/-- Everything of the capture belongs to a word, so nothing is discarded. -/
theorem rxTailDiscarded_noiselessCapture (k n : Nat) : rxTailDiscarded (k * 0x10000) (k * (10 * n)) (10 * n) = false := by
  rw [Bool.eq_false_iff, ne_eq, rxTailDiscarded_iff, not_or]
  refine ⟨not_lt.mpr (Nat.le_div_iff_mul_le (by decide) |>.mpr ?_), by omega⟩
  exact (Nat.mul_right_comm ..).trans_le (Nat.mul_comm ..).le

/-- The decode that resolved the frames of some bytes sets no flag but DONE. -/
theorem rxDecoded_framedBits_status {s : State} {bytes : List Byte} {k : Nat} (hS : s.rxSpb.toNat = k * 0x10000)
    (hL : s.rxLen.toNat = k * (10 * bytes.length)) :
    (rxDecoded (framedBits bytes) s).status = { s.status with done := true } := by
  rw [rxDecoded_status, rxDropped_framedBits, framedBits_length, hS, hL, rxTailDiscarded_noiselessCapture,
    decide_eq_false (lt_irrefl 0), Bool.or_false, Bool.or_false]

/-- Settles O42: it holds; each group of the capture is one level, and resolves to the bit that it repeats. -/
theorem rxRecoversWhatTheTransmitterFramed : Obligations.RxRecoversWhatTheTransmitterFramed := by
  intro s bytes k h _ hw _ hk hh hS hT hsamples
  change rxSamplesOp s = noiselessCapture k h (framedBits bytes) at hsamples
  have hL : s.rxLen.toNat = k * (10 * bytes.length) := by
    rw [← framedBits_length, ← noiselessCapture_length, ← hsamples, rxSamplesOp_length, rxLenOp]
  have counts := rxDecoded_counts (resolvedBits_length_le s)
  refine ⟨_, exec_uartRxDecode_of_le (by omega), fun htie => ?_, fun htie hzero => ?_⟩
  · have bits : resolvedBits s = framedBits bytes := by
      rw [resolvedBits, hsamples, rxSpbOp, hS]
      exact rxBits_noiselessCapture hk hh hT htie true_mem_framedBits
    rw [bits, rxOut_framedBits] at counts
    obtain ⟨nbytes, -, -⟩ := counts
    rw [bits]
    refine ⟨nbytes, ?_, rxDecoded_framedBits_status hS hL, fun j hj => ?_⟩
    · rw [rxDecoded_rxNdrop, rxDropped_framedBits]
    · rw [readEntry_rxDecoded hw _ hj, rxOut_framedBits, BitVec.toNat_setWidth_of_le (by decide)]
  · have bits : resolvedBits s = List.replicate (10 * bytes.length) true := by
      rw [resolvedBits, hsamples, rxSpbOp, hS, rxThreshOp, hzero, htie, rxBits_threshold_zero,
        rxGroupCount_noiselessCapture hk, framedBits_length]
    have words := rxOut_length_add_dropped (List.replicate (10 * bytes.length) true)
    rw [rxOut_replicate_true, List.length_nil, List.length_replicate] at words
    obtain ⟨-, -, ndrop⟩ := counts
    refine ⟨bits, ?_, ?_⟩
    · rw [bits, rxDecoded_rxNbytes, rxOut_replicate_true]
      rfl
    · rw [ndrop, bits]
      omega

end Sys2Proof.Machine
end

-- ==== The transmitter's command ====
section
/-! UART_TX_BUILD: the frame of a byte as a number and bit by bit (42_uart_tx.md R151), what the command writes and leaves alone
(R152), and the BitSequence that it builds (R153, R155). -/

namespace Sys2Proof.Machine

open Sys2Proof

/-! ### The frame of a byte -/

/-- The stop bit lies above the shifted byte, so joining them is adding them (R151). -/
theorem frameOf_toNat (b : Byte) : (frameOf b).toNat = 0x200 + 2 * b.toNat := by
  have small := b.isLt
  have shifted : (b.setWidth 10 <<< 1).toNat = 2 * b.toNat := by
    rw [BitVec.toNat_shiftLeft, BitVec.toNat_setWidth_of_le (by decide), Nat.shiftLeft_eq]
    omega
  rw [frameOf, BitVec.toNat_or, shifted]
  exact (Nat.two_pow_add_eq_or_of_lt (i := 9) (by omega) 1).symm

/-- Settles O30: it holds, on `frameOf_toNat` and the three parts of a frame. -/
theorem frameIsStartDataLsbFirstStop : Obligations.FrameIsStartDataLsbFirstStop :=
  fun b => ⟨frameOf_toNat b, frameOf_start b, fun _ hi => frameOf_data b hi, frameOf_stop b⟩

/-- Every bit of a frame by its position (R151). -/
theorem frameOf_getLsbD (b : Byte) {i : Nat} (h : i < 10) :
    (frameOf b).getLsbD i = if i = 0 then false else if i = 9 then true else b.getLsbD (i - 1) := by
  split
  · next start => rw [start, frameOf_start]
  · next notStart =>
    split
    · next stop => rw [stop, frameOf_stop]
    · next notStop =>
      obtain ⟨j, rfl⟩ : ∃ j, i = 1 + j := ⟨i - 1, by omega⟩
      rw [frameOf_data b (by omega), Nat.add_sub_cancel_left]

/-! ### What the command writes -/

/-- A payload byte is its whole entry (R150). -/
theorem txByteOp_toNat (s : State) (k : Nat) : (txByteOp s k).toNat = (readEntry s .txByte k).toNat := by
  rw [txByteOp, BitVec.toNat_setWidth]
  exact Nat.mod_eq_of_lt (readEntry_lt s .txByte k)

theorem txByteOp_getLsbD (s : State) (k : Nat) {j : Nat} (h : j < 8) :
    (txByteOp s k).getLsbD j = (readEntry s .txByte k).getLsbD j := by
  rw [txByteOp, BitVec.getLsbD_setWidth, decide_eq_true h, Bool.true_and]

theorem txEntryOf_of_lt {s : State} {k : Nat} (h : k < s.txNbytes.toNat) :
    txEntryOf s k = (frameOf (txByteOp s k)).setWidth 32 :=
  if_pos h

theorem txEntryOf_of_le {s : State} {k : Nat} (h : s.txNbytes.toNat ≤ k) : txEntryOf s k = 0#32 :=
  if_neg (not_lt.mpr h)

theorem txEntryOf_toNat (s : State) (k : Nat) :
    (txEntryOf s k).toNat = if k < s.txNbytes.toNat then 0x200 + 2 * (readEntry s .txByte k).toNat else 0 := by
  split
  · next framed =>
    rw [txEntryOf_of_lt framed, BitVec.toNat_setWidth_of_le (by decide), frameOf_toNat, txByteOp_toNat]
  · next beyond =>
    rw [txEntryOf_of_le (not_lt.mp beyond)]
    rfl

/-- Ten times a legal byte count fits TX_NBITS (R155). -/
theorem exec_uartTxBuild_txNbits {s t : State} (hp : s.params.legal = true) (hn : s.txNbytes.toNat ≤ s.params.txDepth)
    (h : exec .uartTxBuild s = .next t) : t.txNbits.toNat = 10 * s.txNbytes.toNat := by
  obtain ⟨hbits, -⟩ := exec_uartTxBuild_results h
  have depth : s.params.txDepth ≤ 256 := by
    simp only [Params.legal, Bool.and_eq_true, decide_eq_true_eq] at hp
    omega
  rw [hbits, BitVec.toNat_ofNat, txCountOp]
  exact Nat.mod_eq_of_lt (by omega)

/-! ### What the command leaves alone -/

theorem exec_uartTxBuild_sameBytesOutside {s t : State} (h : exec .uartTxBuild s = .next t) :
    SameBytesOutside (bufAddr .txFrame 0) (bufAddr .txFrame s.params.txDepth) s.mem t.mem := by
  obtain ⟨-, hm⟩ := exec_uartTxBuild_results h
  intro a ha
  rw [hm]
  exact readByte_fillBuffer_outside ha

/-- The transmitter sets no error flag (R152). -/
theorem exec_uartTxBuild_status {s t : State} (h : exec .uartTxBuild s = .next t) :
    t.status = { s.status with done := true } := by
  injection h with h
  subst h
  rw [complete_status, fillBuffer_status]

/-- The command changes memory, TX_NBITS, DONE and the phase alone (R152). -/
theorem exec_uartTxBuild_frame {s t : State} (h : exec .uartTxBuild s = .next t) :
    t = { s with mem := t.mem, txNbits := t.txNbits, phase := .idle, status := { s.status with done := true } } := by
  obtain ⟨idle, -⟩ := exec_frame h
  have changes := exec_changes h
  rw [withChangesOf, idle, exec_uartTxBuild_status h] at changes
  exact changes

/-- Settles O31: it holds; the command fills TX_FRAME with `txEntryOf`, and each clause is a lemma on what that leaves. -/
theorem txBuildFramesThePayload : Obligations.TxBuildFramesThePayload := by
  intro s hp hw hn
  obtain ⟨u, run⟩ := exec_completes .uartTxBuild s
  refine ⟨_, run, fun k hk => ?_, exec_uartTxBuild_txNbits hp hn run, exec_uartTxBuild_sameBytesOutside run,
    exec_uartTxBuild_frame run⟩
  rw [readEntry_exec_uartTxBuild hw run hk, txEntryOf_toNat]

/-! ### The BitSequence -/

theorem bitSequence_length (s : State) : (bitSequence s).length = s.txNbits.toNat := by
  rw [bitSequence, List.length_map, List.length_range]

/-- Frames of ten bits follow one another, each from its bit 0 (R153). -/
theorem getElem?_bitSequence {s : State} {k i : Nat} (hi : i < 10) (h : 10 * k + i < s.txNbits.toNat) :
    (bitSequence s)[10 * k + i]? = some ((readEntry s .txFrame k).getLsbD i) := by
  have frame : (10 * k + i) / 10 = k := by omega
  have bit : (10 * k + i) % 10 = i := by omega
  rw [bitSequence, List.getElem?_map, List.getElem?_range h, Option.map_some, frame, bit]

/-- A bit of a frame that the command leaves, by its position (R151, R152). -/
theorem getLsbD_txFrame_exec_uartTxBuild {s t : State} (hw : s.mem.wf = true) (hn : s.txNbytes.toNat ≤ s.params.txDepth)
    (h : exec .uartTxBuild s = .next t) {k i : Nat} (hk : k < s.txNbytes.toNat) (hi : i < 10) :
    (readEntry t .txFrame k).getLsbD i =
      if i = 0 then false else if i = 9 then true else (readEntry s .txByte k).getLsbD (i - 1) := by
  have inWord : i < 32 := by omega
  rw [readEntry_exec_uartTxBuild hw h (hk.trans_le hn), txEntryOf_of_lt hk, BitVec.getLsbD_setWidth, decide_eq_true inWord,
    Bool.true_and, frameOf_getLsbD _ hi]
  split
  · rfl
  · split
    · rfl
    · exact txByteOp_getLsbD s k (by omega)

/-- Settles O32: it holds; element 10·k + i of the sequence is bit i of the frame that the command left in TX_FRAME[k]. -/
theorem bitSequenceIsTheFramesInOrder : Obligations.BitSequenceIsTheFramesInOrder := by
  intro s hp hw hn
  obtain ⟨u, run⟩ := exec_completes .uartTxBuild s
  have nbits := exec_uartTxBuild_txNbits hp hn run
  refine ⟨_, run, (bitSequence_length _).trans nbits, fun k i hk hi => ?_⟩
  rw [getElem?_bitSequence hi (by omega), getLsbD_txFrame_exec_uartTxBuild hw hn run hk hi]

end Sys2Proof.Machine
end

-- ==== The SPI transaction ====
section
/-! What an SPI_READ records, drives and draws from its first event on: the entries of each bit period (43_spi.md R172), their times
(R178) and the levels drawn (R176). -/

namespace Sys2Proof.Machine

open Sys2Proof

/-! ### The record of a transaction -/

theorem spiTrace_append (level : Nat → Bool) (index k : Nat) (es fs : List (Nat × SpiOp)) :
    spiTrace level index k (es ++ fs) =
      spiTrace level index k es ++ spiTrace level (index + drawCount es) (k + drawCount es) fs := by
  induction es generalizing index k with
  | nil => rfl
  | cons e es ih =>
    obtain ⟨c, op⟩ := e
    cases op <;> simp [spiTrace, drawCount, ih, Nat.add_assoc, Nat.add_comm 1]

/-- The record of bit period k, in which draw k is made. -/
def periodTrace (level : Nat → Bool) (mode : BitVec 2) (half k : Nat) : List PinEvent :=
  spiTrace level k k (spiBitOps mode half k)

/-- Every period makes one draw, so period k makes draw k. -/
theorem spiTrace_bits (level : Nat → Bool) (mode : BitVec 2) (half n : Nat) :
    spiTrace level 0 0 ((List.range n).flatMap (spiBitOps mode half)) =
      (List.range n).flatMap (periodTrace level mode half) := by
  induction n with
  | zero => rfl
  | succ n ih =>
    simp only [List.range_succ, List.flatMap_append, spiTrace_append, ih, drawCount_bits, Nat.zero_add, List.flatMap_singleton,
      periodTrace]

/-- A transaction is recorded as the fall of chip select, its bit periods and the rise (R172). -/
theorem spiTrace_spiProgram (level : Nat → Bool) (mode : BitVec 2) (half n : Nat) :
    spiTrace level 0 0 (spiProgram mode half n) =
      [⟨0, .csN false⟩] ++ (List.range (8 * n)).flatMap (periodTrace level mode half) ++
        [⟨half * (16 * n + 1), .csN true⟩] := by
  simp only [spiProgram, spiTrace, spiTrace_append, spiTrace_bits, List.cons_append, List.nil_append]

/-! ### What the record of a bit period shows -/

theorem periodTrace_eq (level : Nat → Bool) (mode : BitVec 2) (half k : Nat) :
    periodTrace level mode half k =
      if mode.getLsbD 1 then
        [⟨half * (2 * k + 1), .sclk (!mode.getLsbD 0)⟩, ⟨half * (2 * k + 2), .sclk (mode.getLsbD 0)⟩,
          ⟨half * (2 * k + 2), .miso k (level k)⟩]
      else
        [⟨half * (2 * k + 1), .sclk (!mode.getLsbD 0)⟩, ⟨half * (2 * k + 1), .miso k (level k)⟩,
          ⟨half * (2 * k + 2), .sclk (mode.getLsbD 0)⟩] := by
  rw [periodTrace, spiBitOps, apply_ite (spiTrace level k k)]
  rfl

theorem periodTrace_signals (level : Nat → Bool) (mode : BitVec 2) (half k : Nat) :
    (periodTrace level mode half k).map PinEvent.signal =
      if mode.getLsbD 1 then [.sclk (!mode.getLsbD 0), .sclk (mode.getLsbD 0), .miso k (level k)]
      else [.sclk (!mode.getLsbD 0), .miso k (level k), .sclk (mode.getLsbD 0)] := by
  rw [periodTrace_eq, apply_ite (List.map PinEvent.signal)]
  rfl

theorem periodTrace_cycles (level : Nat → Bool) (mode : BitVec 2) (half k : Nat) :
    (periodTrace level mode half k).map PinEvent.cycle =
      if mode.getLsbD 1 then [half * (2 * k + 1), half * (2 * k + 2), half * (2 * k + 2)]
      else [half * (2 * k + 1), half * (2 * k + 1), half * (2 * k + 2)] := by
  rw [periodTrace_eq, apply_ite (List.map PinEvent.cycle)]
  rfl

/-- The draw that an entry of the history records, with its bit index. -/
def drawOf (e : PinEvent) : Option (Nat × Bool) :=
  match e.signal with
  | .csN _ => none
  | .sclk _ => none
  | .miso k level => some (k, level)

theorem periodTrace_draws (level : Nat → Bool) (mode : BitVec 2) (half k : Nat) :
    (periodTrace level mode half k).filterMap drawOf = [(k, level k)] := by
  rw [periodTrace_eq]
  split <;> rfl

theorem spiTrace_spiProgram_draws (level : Nat → Bool) (mode : BitVec 2) (half n : Nat) :
    (spiTrace level 0 0 (spiProgram mode half n)).filterMap drawOf =
      (List.range (8 * n)).zip ((List.range (8 * n)).map level) := by
  simp only [spiTrace_spiProgram, List.filterMap_append, List.filterMap_flatMap, periodTrace_draws, ← List.map_eq_flatMap,
    List.map_prod_left_eq_zip]
  exact List.append_nil _

/-! ### An SPI_READ from its first event -/

theorem spiRemaining_of_start {s : State} (hpos : s.spiPos = 0) : spiRemaining s = spiProgramOf s := by
  rw [spiRemaining, hpos, List.drop_zero]

theorem drawCount_spiProgramOf (s : State) : drawCount (spiProgramOf s) = 8 * s.spiByteCount.toNat :=
  drawCount_spiProgram s.spiMode (spiHalfPeriod s) s.spiByteCount.toNat

/-- The bits drawn are the next 8n levels that MISO shows (R172). -/
theorem spiFinish_spiBits_of_start {s : State} (hpos : s.spiPos = 0) (hbits : s.spiBits = []) :
    (spiFinish s).spiBits = (List.range (8 * s.spiByteCount.toNat)).map (misoAt s) := by
  rw [spiFinish_eq, spiRemaining_of_start hpos, drawCount_spiProgramOf, hbits, List.nil_append]

/-- The completion leaves the pins, the levels to come and the history as the transaction does. -/
theorem exec_spiRead_environment {s t : State} (h : exec .spiRead s = .next t) :
    t.spiCsN = (spiFinish s).spiCsN ∧ t.spiSclk = (spiFinish s).spiSclk ∧ t.miso = (spiFinish s).miso ∧
      t.misoDrawn = (spiFinish s).misoDrawn ∧ t.history = (spiFinish s).history := by
  simp only [exec, execSpiRead] at h
  injection h with h
  subst h
  simp

theorem exec_spiRead_history {s t : State} (hpos : s.spiPos = 0) (hbits : s.spiBits = []) (h : exec .spiRead s = .next t) :
    t.history = s.history ++ spiTrace (misoAt s) 0 0 (spiProgramOf s) := by
  obtain ⟨-, -, -, -, hhist⟩ := exec_spiRead_environment h
  rw [hhist, spiFinish_eq, spiRemaining_of_start hpos, hbits, List.length_nil]

theorem exec_spiRead_draws {s t : State} (hpos : s.spiPos = 0) (hbits : s.spiBits = []) (h : exec .spiRead s = .next t) :
    (t.history.drop s.history.length).filterMap drawOf =
      (List.range (8 * s.spiByteCount.toNat)).zip ((List.range (8 * s.spiByteCount.toNat)).map (misoAt s)) := by
  rw [exec_spiRead_history hpos hbits h, List.drop_left]
  exact spiTrace_spiProgram_draws (misoAt s) s.spiMode (spiHalfPeriod s) s.spiByteCount.toNat

/-- Chip select is back at 1, and the clock at its idle level if it moved (R172). -/
theorem exec_spiRead_pins {s t : State} (hpos : s.spiPos = 0) (h : exec .spiRead s = .next t) :
    t.spiCsN = true ∧ t.spiSclk = if s.spiByteCount.toNat = 0 then s.spiSclk else s.spiMode.getLsbD 0 := by
  obtain ⟨hcs, hclk, -⟩ := exec_spiRead_environment h
  have pins := pinsAfter_spiProgram s.spiMode (spiHalfPeriod s) s.spiByteCount.toNat (s.spiCsN, s.spiSclk)
  rw [hcs, hclk, spiFinish_eq, spiRemaining_of_start hpos, spiProgramOf, spiCountOp, pins]
  exact ⟨rfl, rfl⟩

theorem exec_spiRead_levels {s t : State} (hpos : s.spiPos = 0) (h : exec .spiRead s = .next t) :
    t.miso = s.miso.drop (8 * s.spiByteCount.toNat) ∧ t.misoDrawn = s.misoDrawn + 8 * s.spiByteCount.toNat := by
  obtain ⟨-, -, hmiso, hdrawn, -⟩ := exec_spiRead_environment h
  rw [hmiso, hdrawn, spiFinish_eq, spiRemaining_of_start hpos, drawCount_spiProgramOf]
  exact ⟨rfl, rfl⟩

/-! ### The statements -/

/-- Settles O47: it holds, on the record of a transaction period by period. -/
theorem spiReadPerformsTheTransaction : Obligations.SpiReadPerformsTheTransaction := by
  rintro s n idle hpos hbits rfl rfl
  obtain ⟨u, run⟩ := exec_completes .spiRead s
  obtain ⟨hcs, hclk⟩ := exec_spiRead_pins hpos run
  refine ⟨_, run, ?_, hcs, hclk⟩
  rw [exec_spiRead_history hpos hbits run, spiProgramOf, spiTrace_spiProgram]
  simp only [List.map_append, List.map_flatMap, periodTrace_signals, List.append_assoc]
  rfl

/-- `s` where the environment lists these levels before the others. -/
def listLevels (levels : List Bool) (s : State) : State := { s with miso := levels ++ s.miso }

/-- Listed levels are the ones that the next draws show (R176). -/
theorem map_misoAt_listLevels (levels : List Bool) (s : State) :
    (List.range levels.length).map (misoAt (listLevels levels s)) = levels := by
  apply List.ext_getElem (by simp)
  intro k _ hk
  simp [misoAt, listLevels, List.getElem?_append_left hk, hk]

/-- Settles O48: it holds; the draws recorded are the listed levels, each with its index. -/
theorem spiDrawsAreWhateverTheEnvironmentShows : Obligations.SpiDrawsAreWhateverTheEnvironmentShows := by
  rintro s n levels hpos hbits rfl hlen
  obtain ⟨u, run⟩ := exec_completes .spiRead (listLevels levels s)
  obtain ⟨hmiso, hdrawn⟩ := exec_spiRead_levels (s := listLevels levels s) hpos run
  have draws := exec_spiRead_draws (s := listLevels levels s) hpos hbits run
  have listed := map_misoAt_listLevels levels s
  rw [hlen] at listed
  refine ⟨_, run, hmiso.trans (List.drop_left' hlen), hdrawn, draws.trans ?_⟩
  exact congrArg (List.zip _) listed

/-- Settles O49: it holds; half a period is DIV + 1 cycles, and the k-th period begins after k whole ones. -/
theorem spiTransactionIsTimedByTheDivider : Obligations.SpiTransactionIsTimedByTheDivider := by
  rintro s n P hpos hbits rfl rfl
  obtain ⟨u, run⟩ := exec_completes .spiRead s
  have half : 2 * (s.spiClkdiv.toNat + 1) / 2 = spiHalfPeriod s := Nat.mul_div_cancel_left _ Nat.two_pos
  have firstEdge (k : Nat) : spiHalfPeriod s * (2 * k + 1) = spiHalfPeriod s + k * (2 * spiHalfPeriod s) := by ring
  have secondEdge (k : Nat) :
      spiHalfPeriod s * (2 * k + 2) = spiHalfPeriod s + k * (2 * spiHalfPeriod s) + spiHalfPeriod s := by ring
  have rise (n : Nat) : spiHalfPeriod s * (16 * n + 1) = 8 * n * (2 * spiHalfPeriod s) + spiHalfPeriod s := by ring
  refine ⟨_, run, ?_, by rw [half]; rfl⟩
  rw [exec_spiRead_history hpos hbits run, spiProgramOf, spiTrace_spiProgram, half]
  simp only [List.map_append, List.map_flatMap, periodTrace_cycles, firstEdge, secondEdge, rise, List.append_assoc]
  rfl

end Sys2Proof.Machine
end

-- ==== The SPI reading ====
section
/-! The bytes that SPI_READ builds from its draws (43_spi.md R173, R175) and the reading that both SPI commands assemble (R174,
R177). -/

namespace Sys2Proof.Machine

open Sys2Proof

/-! ### The reading -/

/-- The shifted byte and the high nibble beside it share no bit, so joining them is adding them (R174). -/
theorem spiReadingOf_toNat (b0 b1 : Byte) : (spiReadingOf b0 b1).toNat = 16 * b0.toNat + b1.toNat / 16 := by
  have small0 := b0.isLt
  have small1 := b1.isLt
  have high : (b0.setWidth 12 <<< 4).toNat = 2 ^ 4 * b0.toNat := by
    rw [BitVec.toNat_shiftLeft, BitVec.toNat_setWidth_of_le (by decide), Nat.shiftLeft_eq]
    omega
  have low : (b1.setWidth 12 >>> 4).toNat = b1.toNat / 2 ^ 4 := by
    rw [BitVec.toNat_ushiftRight, BitVec.toNat_setWidth_of_le (by decide), Nat.shiftRight_eq_div_pow]
  rw [spiReadingOf, BitVec.toNat_or, high, low]
  exact (Nat.two_pow_add_eq_or_of_lt (by omega) _).symm

/-- A byte of SPI_BYTE is its whole entry (R49). -/
theorem spiByteOp_toNat (s : State) (m : Nat) : (spiByteOp s m).toNat = (readEntry s .spiByte m).toNat := by
  rw [spiByteOp, BitVec.toNat_setWidth]
  exact Nat.mod_eq_of_lt (readEntry_lt s .spiByte m)

/-- Below two bytes there is no reading (R174). -/
theorem assemble_of_lt {s : State} (h : s.spiByteCount.toNat < 2) :
    (assemble s).spiReading = 0#12 ∧ (assemble s).status.short = true := by
  rw [assemble, spiFrameShort_iff.mpr h]
  exact ⟨rfl, Bool.or_true _⟩

theorem assemble_of_le {s : State} (h : 2 ≤ s.spiByteCount.toNat) :
    (assemble s).spiReading.toNat = 16 * (readEntry s .spiByte 0).toNat + (readEntry s .spiByte 1).toNat / 16 ∧
      (assemble s).status.short = s.status.short := by
  rw [assemble, spiFrameShort_eq_false_iff.mpr h, ← spiByteOp_toNat, ← spiByteOp_toNat, ← spiReadingOf_toNat]
  exact ⟨rfl, Bool.or_false _⟩

/-- Settles O52: it holds; the command is the assembly and nothing else. -/
theorem spiAssembleFormsTheReading : Obligations.SpiAssembleFormsTheReading :=
  fun _ => ⟨_, rfl, assemble_of_lt, assemble_of_le, rfl⟩

/-! ### The bytes -/

/-- The weights of a byte's bits, in either order, are distinct powers of two below 2⁸, so no bit is lost (R173). -/
theorem spiByteOf_toNat (order : Bool) (bits : List Bool) (m : Nat) :
    (spiByteOf order bits m).toNat =
      ∑ i ∈ Finset.range 8, (bits.getD (8 * m + i) false).toNat * 2 ^ (if order then i else 7 - i) := by
  have weights : ∑ i ∈ Finset.range 8, 2 ^ (if order then i else 7 - i) = 255 := by cases order <;> rfl
  have bound : ∑ i ∈ Finset.range 8, (bits.getD (8 * m + i) false).toNat * 2 ^ (if order then i else 7 - i) ≤ 255 :=
    weights ▸ Finset.sum_le_sum fun i _ => mul_le_of_le_one_left (Nat.zero_le _) (Bool.toNat_le _)
  simp only [spiByteOf, Nat.shiftLeft_eq, BitVec.toNat_ofNat]
  exact Nat.mod_eq_of_lt (Nat.lt_succ_of_le bound)

theorem spiEntryOf_lt (s : State) (bits : List Bool) (m : Nat) : (spiEntryOf s bits m).toNat < 2 ^ 8 := by
  rw [spiEntryOf]
  split
  · rw [BitVec.toNat_setWidth_of_le (by decide)]
    exact BitVec.isLt _
  · exact Nat.two_pow_pos 8

/-- The bits of byte m are draws 8m to 8m + 7 (R173, R175). -/
theorem spiEntryOf_toNat_of_start {s : State} (hpos : s.spiPos = 0) (hbits : s.spiBits = []) (m : Nat) :
    (spiEntryOf s (spiFinish s).spiBits m).toNat =
      if m < s.spiByteCount.toNat then
        ∑ i ∈ Finset.range 8, (misoAt s (8 * m + i)).toNat * 2 ^ (if s.spiOrder then i else 7 - i) else 0 := by
  rw [spiEntryOf, spiCountOp]
  split
  · next drawn =>
    rw [BitVec.toNat_setWidth_of_le (by decide), spiByteOf_toNat, spiFinish_spiBits_of_start hpos hbits]
    refine Finset.sum_congr rfl fun i hi => ?_
    have inRange : 8 * m + i < 8 * s.spiByteCount.toNat := by
      have := Finset.mem_range.mp hi
      omega
    rw [List.getD_eq_getElem?_getD, List.getElem?_map, List.getElem?_range inRange]
    rfl
  · rfl

/-! ### SPI_READ -/

/-- The state of an SPI_READ once SPI_BYTE is written, before the assembly (R175). -/
def spiFilled (s : State) : State := fillBuffer (spiFinish s) .spiByte (spiEntryOf s (spiFinish s).spiBits)

theorem exec_spiRead (s : State) : exec .spiRead s = .next (complete (clearSpiProgress (assemble (spiFilled s)))) := rfl

theorem spiFilled_spiByteCount (s : State) : (spiFilled s).spiByteCount = s.spiByteCount := by
  rw [spiFilled, fillBuffer_spiByteCount, spiFinish_spiByteCount]

theorem spiFilled_status (s : State) : (spiFilled s).status = s.status := by
  rw [spiFilled, fillBuffer_status, spiFinish_status]

theorem exec_spiRead_mem {s t : State} (h : exec .spiRead s = .next t) : t.mem = (spiFilled s).mem := by
  rw [exec_spiRead] at h
  injection h with h
  rw [← h, complete_mem, clearSpiProgress_mem, assemble_mem]

theorem readEntry_spiFilled {s : State} (hw : s.mem.wf = true) {m : Nat} (hm : m < 15) :
    readEntry (spiFilled s) .spiByte m = spiEntryOf s (spiFinish s).spiBits m := by
  rw [spiFilled, readEntry_fillBuffer (by rwa [spiFinish_mem]) hm]
  exact entryValue_of_lt (spiEntryOf_lt s _ m)

/-- The assembly leaves SPI_BYTE as it was filled. -/
theorem readEntry_exec_spiRead {s t : State} (h : exec .spiRead s = .next t) (m : Nat) :
    readEntry t .spiByte m = readEntry (spiFilled s) .spiByte m := by
  have params : (spiFilled s).params = s.params := by rw [spiFilled, fillBuffer_params, spiFinish_params]
  exact readEntry_congr ((exec_params h).trans params.symm) (by rw [exec_spiRead_mem h])

theorem exec_spiRead_sameBytesOutside {s t : State} (h : exec .spiRead s = .next t) :
    SameBytesOutside (bufAddr .spiByte 0) (bufAddr .spiByte 15) s.mem t.mem := by
  intro a ha
  rw [exec_spiRead_mem h, spiFilled, readByte_fillBuffer_outside ha, spiFinish_mem]

/-- The reading and SHORT are those of the assembly over SPI_BYTE as filled (R175). -/
theorem exec_spiRead_assembles {s t : State} (h : exec .spiRead s = .next t) :
    t.spiReading = (assemble (spiFilled s)).spiReading ∧ t.status.short = (assemble (spiFilled s)).status.short := by
  rw [exec_spiRead] at h
  injection h with h
  rw [← h]
  exact ⟨rfl, rfl⟩

/-- From its first event on, the command leaves no transaction in progress, and its only error flag is SHORT (R174, R175). -/
theorem exec_spiRead_frame {s t : State} (hpos : s.spiPos = 0) (hbits : s.spiBits = []) (h : exec .spiRead s = .next t) :
    t = { s with
      mem := t.mem, spiReading := t.spiReading, spiSclk := t.spiSclk, spiCsN := t.spiCsN, history := t.history,
      miso := t.miso, misoDrawn := t.misoDrawn, phase := .idle,
      status := { s.status with done := true, short := t.status.short } } := by
  have changes := exec_changes h
  obtain ⟨idle, -⟩ := exec_frame h
  rw [exec_spiRead] at h
  injection h with h
  have pos : t.spiPos = s.spiPos := by rw [← h, hpos]; rfl
  have bits : t.spiBits = s.spiBits := by rw [← h, hbits]; rfl
  have status : t.status = { s.status with done := true, short := t.status.short } := by
    rw [← h, ← spiFilled_status s]
    rfl
  rw [withChangesOf, idle, pos, bits, status] at changes
  exact changes

/-- Settles O46: it holds; the command fills SPI_BYTE with `spiEntryOf` of the bits drawn and assembles what it filled. -/
theorem spiReadAssemblesTheDrawnBits : Obligations.SpiReadAssemblesTheDrawnBits := by
  rintro s n byte hw hpos hbits rfl hbyte
  have entry : ∀ m, m < 15 → (readEntry (spiFilled s) .spiByte m).toNat = byte m := fun m hm => by
    rw [readEntry_spiFilled hw hm, spiEntryOf_toNat_of_start hpos hbits, hbyte]
  obtain ⟨u, run⟩ := exec_completes .spiRead s
  obtain ⟨reading, short⟩ := exec_spiRead_assembles run
  refine ⟨_, run, fun m hm => (congrArg _ (readEntry_exec_spiRead run m)).trans (entry m hm), fun few => ?_, fun enough => ?_,
    exec_spiRead_sameBytesOutside run, exec_spiRead_frame hpos hbits run⟩ <;> rw [reading, short]
  · exact assemble_of_lt (by rwa [spiFilled_spiByteCount])
  · have assembled := assemble_of_le (s := spiFilled s) (by rwa [spiFilled_spiByteCount])
    rwa [entry 0 (by decide), entry 1 (by decide), spiFilled_status] at assembled

end Sys2Proof.Machine
end

-- ==== No step stops ====
section
/-! Neither the engine nor an input ends in a fault or a refusal (60_exceptions.md R200), and a completion sets DONE and the phase
IDLE (10_state.md R22). -/

namespace Sys2Proof.Machine

open Sys2Proof

/-- The engine holds while IDLE and completes the issued command while BUSY; it never stops. -/
theorem engineStep_safe (s : State) : ∃ t, engineStep s = .next t := by
  cases hp : s.phase with
  | idle => exact ⟨s, engineStep_idle hp⟩
  | busy op =>
    obtain ⟨u, run⟩ := exec_completes op s
    exact ⟨complete u, (engineStep_busy hp).trans run⟩

/-- Whatever input comes next, the step answers a next state: the engine's turn does, and every other input is taken whole. -/
theorem safeStep (s : State) : SafeStep s := by
  cases hin : s.inputs with
  | nil =>
    obtain ⟨t, ht⟩ := engineStep_safe s
    exact ⟨t, (step_nil hin).trans ht⟩
  | cons input rest =>
    cases input with
    | read a => exact ⟨_, step_read hin⟩
    | write a v => exact ⟨_, step_write hin⟩
    | spiEvent => exact ⟨_, step_spiEvent hin⟩
    | complete =>
      obtain ⟨t, ht⟩ := engineStep_safe (setInputs rest s)
      exact ⟨t, (step_complete hin).trans ht⟩
    | rst level =>
      cases level with
      | true => exact ⟨_, step_rst_high hin⟩
      | false => exact ⟨_, step_rst_low hin⟩

/-- Settles O4: it holds; every step is safe by its input, and every command ends in `complete`. -/
theorem noStepStopsAndEveryCommandCompletes : Obligations.NoStepStopsAndEveryCommandCompletes := by
  refine ⟨safeStep, fun i s => ?_⟩
  obtain ⟨u, run⟩ := exec_completes i s
  exact ⟨complete u, run, rfl, complete_phase u⟩

end Sys2Proof.Machine
end

-- ==== The reset input ====
section
/-! What the clock edges of `rst` and the accesses under it do (70_reset_and_hazards.md R230, R231), and that the block stays in its
reset state while `rst` is 1. -/

namespace Sys2Proof.Machine

open Sys2Proof

/-! ### Accesses while `rst` is 1 -/

theorem hostRead_of_rst {s : State} {a : Nat} (hr : s.rst = true) (hw : inWindow s.params a = true) :
    hostRead s a = { s with rdata := 0#32 } := by
  rw [hostRead, if_pos hw, if_pos hr]

theorem hostWrite_of_rst {s : State} (hr : s.rst = true) (a : Nat) (v : Word) : hostWrite s a v = s := by
  rw [hostWrite, hr, Bool.not_true, Bool.and_false]
  rfl

/-! ### What changes `rst` -/

theorem exec_rst {op : Instr} {s t : State} (h : exec op s = .next t) : t.rst = s.rst :=
  (congrArg State.rst (exec_frame h).2 :)

@[simp] theorem writeReg_rst (s : State) (v : Word) (r : Reg) : (writeReg s v r).rst = s.rst := by
  rw [writeReg_eq]

/-- Only a clock edge that samples `rst` at 1 takes it there, and that edge resets the block. -/
theorem Move.rst_or_reset {s t : State} {i : Option Input} (m : Move s i t) (hr : t.rst = true) :
    s.rst = true ∨ t = assertReset s := by
  cases m with
  | reset => exact .inr rfl
  | release => exact Bool.noConfusion hr
  | writeReg a v r => exact .inl ((writeReg_rst s v r).symm.trans hr)
  | spiEvent e es =>
    rw [performSpiOp_eq] at hr
    exact .inl hr
  | complete _ op _ _ run => exact .inl ((exec_rst run).symm.trans hr)
  | _ => exact .inl hr

/-! ### A block in its reset state -/

/-- Another reset edge finds nothing to reset. -/
theorem assertReset_setInputs_of_held {s : State} (held : s = assertReset s) (rest : List Input) :
    assertReset (setInputs rest s) = setInputs rest s :=
  congrArg (setInputs rest) held.symm

/-- The schedule and the last read's data are no part of the reset state (log 10). -/
theorem held_withInputs_withRdata {s : State} (held : s = assertReset s) (rest : List Input) (data : Word) :
    { s with inputs := rest, rdata := data } = assertReset { s with inputs := rest, rdata := data } :=
  congrArg (fun u : State => { u with inputs := rest, rdata := data }) held

/-- In the reset state with `rst` at 1, a step releases `rst` or moves the schedule and the data of a read alone: no command is
issued, writes are ignored, and another reset edge changes nothing. -/
theorem step_of_held {s t : State} (held : s = assertReset s) (hs : step s = .next t) :
    t.rst = false ∨ ∃ rest data, t = { s with inputs := rest, rdata := data } := by
  have hr : s.rst = true := congrArg State.rst held
  have idle : s.phase = .idle := congrArg State.phase held
  rcases step_cases hs with ⟨rest, -, rfl⟩ | ⟨rest, -, rfl⟩ | ⟨a, rest, -, rfl⟩ | ⟨a, v, rest, -, rfl⟩ | ⟨rest, -, rfl⟩ |
    ⟨rest, -, ⟨-, rfl⟩ | ⟨op, busy, -⟩⟩
  · exact .inr ⟨rest, s.rdata, assertReset_setInputs_of_held held rest⟩
  · exact .inl rfl
  · exact .inr ⟨rest, _, hostRead_eq _ a⟩
  · exact .inr ⟨rest, s.rdata, hostWrite_of_rst (s := setInputs rest s) hr a v⟩
  · rcases spiEventStep_cases (setInputs rest s) with h | ⟨busy, -⟩
    · exact .inr ⟨rest, s.rdata, h⟩
    · exact absurd busy (not_busy_of_idle idle)
  · exact .inr ⟨rest, s.rdata, rfl⟩
  · exact absurd busy (not_busy_of_idle idle)

/-- Settles O60: it holds; with `rst` at 1 before the step the block stays as it is, and else only a reset edge takes it to 1. -/
theorem stepHoldsTheBlockInReset : Obligations.StepHoldsTheBlockInReset := by
  intro s t held hs
  by_cases hr : s.rst = true
  · rcases step_of_held (held hr) hs with released | ⟨rest, data, rfl⟩
    · have low : ¬ t.rst = true := ne_true_of_eq_false released
      exact ⟨fun ht => absurd ht low, fun _ ht => absurd ht low⟩
    · exact ⟨fun _ => held_withInputs_withRdata (held hr) rest data, fun _ _ => rfl⟩
  · refine ⟨fun ht => ?_, fun h => absurd h hr⟩
    obtain ⟨i, rest, -, m⟩ := step_move hs
    rcases m.rst_or_reset ht with h | rfl
    · exact absurd h hr
    · rfl

/-! ### A reset edge -/

/-- No register's reset value depends on what the reset found or keeps. -/
theorem regWord_assertReset (s : State) (r : Reg) : regWord (assertReset s) r = regWord State.reset r := by
  cases r <;> rfl

/-- Settles O22: it holds; every reset edge leaves the registers and memory of the reset state. -/
theorem resetEdgeResetsTheBlock : Obligations.ResetEdgeResetsTheBlock := by
  obtain ⟨registers, -⟩ := resetStateIsAsTabled
  refine ⟨fun s rest hin => ?_, fun s a rest hr low high => ⟨fun hin => ?_, fun v hin => ?_⟩, resetStateIsAsTabled⟩
  · exact ⟨_, step_rst_high hin, rfl, fun r => (regWord_assertReset _ r).trans (registers r), readEntry_of_mem_nil rfl, rfl, rfl,
      rfl, rfl⟩
  · rw [step_read hin]
    exact congrArg _ (hostRead_of_rst (s := setInputs rest s) hr (inWindow_iff.mpr ⟨low, high⟩))
  · rw [step_write hin]
    exact congrArg _ (hostWrite_of_rst (s := setInputs rest s) hr a v)

end Sys2Proof.Machine
end

-- ==== Commands right after reset ====
section
/-! What each command does on the reset values, once `rst` is released (70_reset_and_hazards.md R232). -/

namespace Sys2Proof.Machine

open Sys2Proof

/-- The block right after a reset: releasing `rst` after a reset edge would give the same state. -/
def JustReset (s : State) : Prop := s = releaseReset (assertReset s)

/-! ### The codec -/

/-- Both bounds are 0, a degenerate range (40_codec.md R102). -/
theorem codecEnc_of_justReset {s : State} (h : JustReset s) :
    ∃ t, exec .codecEnc s = .next t ∧ t.codecFrame = 0#8 ∧ t.status.codecErr = true := by
  have hmax : s.codecMax = 0#32 := congrArg State.codecMax h
  have hmin : s.codecMin = 0#32 := congrArg State.codecMin h
  have degenerate : s.codecMax.toInt ≤ s.codecMin.toInt := by rw [hmax, hmin]
  refine ⟨_, exec_codecEnc s, encodedFrame_of_le degenerate, ?_⟩
  simp [codecRangeDegenerate_iff.mpr degenerate]

theorem codecDec_of_justReset {s : State} (h : JustReset s) :
    ∃ t, exec .codecDec s = .next t ∧ t.codecDecRaw = 0#6 ∧ t.codecDecTag = 0#2 := by
  have hframe : s.codecFrame = 0#8 := congrArg State.codecFrame h
  refine ⟨_, exec_codecDec s, ?_⟩
  rw [hframe]
  exact ⟨rfl, rfl⟩

/-! ### The receiver and the transmitter -/

/-- The ratio is 0, below 1 (41_uart_rx.md R121). -/
theorem uartRxDecode_of_justReset {s : State} (h : JustReset s) :
    ∃ t, exec .uartRxDecode s = .next t ∧ t.rxNbytes = 0#32 ∧ t.rxNbits = 0#32 ∧ t.rxNdrop = 0#32 ∧ t.status.cfgErr = true := by
  have hspb : s.rxSpb = 0#32 := congrArg State.rxSpb h
  have below : s.rxSpb.toNat < 0x10000 := by
    rw [hspb]
    decide
  refine ⟨_, exec_uartRxDecode_of_lt below, rfl, rfl, rfl, ?_⟩
  rw [rxUnconfigured_status]

theorem uartTxBuild_of_justReset {s : State} (h : JustReset s) :
    ∃ t, exec .uartTxBuild s = .next t ∧ t.txNbits = 0#32 ∧ bitSequence t = [] := by
  have hcount : s.txNbytes = 0#32 := congrArg State.txNbytes h
  obtain ⟨u, run⟩ := exec_completes .uartTxBuild s
  obtain ⟨nbits, -⟩ := exec_uartTxBuild_results run
  rw [txCountOp, hcount] at nbits
  refine ⟨_, run, nbits, List.length_eq_zero_iff.mp ?_⟩
  rw [bitSequence_length, nbits]
  rfl

/-! ### The SPI sampler -/

/-- Bit i of a byte is its draw i when LSB-first and its draw 7 - i when MSB-first (43_spi.md R173). -/
theorem getLsbD_spiByteOf (order : Bool) (bits : List Bool) (m : Nat) {i : Nat} (h : i < 8) :
    (spiByteOf order bits m).getLsbD i = bits.getD (8 * m + if order then i else 7 - i) false := by
  have weights : spiByteOf order bits m = BitVec.ofNat 8 ((List.range 8).map fun i =>
      (bits.getD (8 * m + if order then i else 7 - i) false).toNat <<< i).sum := by
    cases order with
    | true => rfl
    | false =>
      rw [spiByteOf, ← List.sum_reverse]
      rfl
  rw [weights, BitVec.getLsbD_ofNat, decide_eq_true h, Bool.true_and]
  exact bits_sum_testBit (fun i => bits.getD (8 * m + if order then i else 7 - i) false) h

/-- MODE 0, DIV 0 and BYTECOUNT 2 are the reset values (10_state.md R42, R43). -/
theorem spiProgramOf_of_justReset {s : State} (h : JustReset s) : spiProgramOf s = spiProgram 0#2 1 2 := by
  have hmode : s.spiMode = 0#2 := congrArg State.spiMode h
  have hdiv : s.spiClkdiv = 0#16 := congrArg State.spiClkdiv h
  have hcount : s.spiByteCount = 2#4 := congrArg State.spiByteCount h
  rw [spiProgramOf, spiHalfPeriod, spiCountOp, hmode, hdiv, hcount]
  rfl

/-- The first level drawn is bit 7 of byte 0, as ORDER is 0 (43_spi.md R173, R175). -/
theorem getLsbD_spiByte_of_justReset {s t : State} (h : JustReset s) (run : exec .spiRead s = .next t) :
    (readEntry t .spiByte 0).getLsbD 7 = misoAt s 0 := by
  have hmem : s.mem.wf = true := congrArg (fun u : State => u.mem.wf) h
  have hpos : s.spiPos = 0 := congrArg State.spiPos h
  have hbits : s.spiBits = [] := congrArg State.spiBits h
  have horder : s.spiOrder = false := congrArg State.spiOrder h
  have hcount : s.spiByteCount = 2#4 := congrArg State.spiByteCount h
  have drawn : (spiFinish s).spiBits = (List.range 16).map (misoAt s) := by
    rw [spiFinish_spiBits_of_start hpos hbits, hcount]
    rfl
  have entry : readEntry t .spiByte 0 = (spiByteOf false ((List.range 16).map (misoAt s)) 0).setWidth 32 := by
    rw [readEntry_exec_spiRead run, readEntry_spiFilled hmem (by decide), spiEntryOf, spiCountOp, hcount, horder, drawn]
    rfl
  rw [entry, BitVec.getLsbD_setWidth, getLsbD_spiByteOf false _ 0 (by decide)]
  rfl

theorem spiRead_of_justReset {s : State} (h : JustReset s) :
    ∃ t es, exec .spiRead s = .next t ∧ t.history = s.history ++ es ∧ es.length = 50 ∧
      es.take 4 = [⟨0, .csN false⟩, ⟨1, .sclk true⟩, ⟨1, .miso 0 (misoAt s 0)⟩, ⟨2, .sclk false⟩] ∧
      es.getLast? = some ⟨33, .csN true⟩ ∧ (readEntry t .spiByte 0).getLsbD 7 = misoAt s 0 := by
  have hpos : s.spiPos = 0 := congrArg State.spiPos h
  have hbits : s.spiBits = [] := congrArg State.spiBits h
  obtain ⟨u, run⟩ := exec_completes .spiRead s
  have history := exec_spiRead_history hpos hbits run
  rw [spiProgramOf_of_justReset h] at history
  exact ⟨_, _, run, history, rfl, rfl, rfl, getLsbD_spiByte_of_justReset h run⟩

/-- BYTECOUNT is 2, so the reading is assembled, from two entries that are 0 (43_spi.md R174, R177). -/
theorem spiAssemble_of_justReset {s : State} (h : JustReset s) :
    ∃ t, exec .spiAssemble s = .next t ∧ t.spiReading = 0#12 ∧ t.status.short = false := by
  have hmem : s.mem = [] := congrArg State.mem h
  have hcount : s.spiByteCount = 2#4 := congrArg State.spiByteCount h
  have hstatus : s.status = Status.clear := congrArg State.status h
  have enough : 2 ≤ s.spiByteCount.toNat := by
    rw [hcount]
    decide
  obtain ⟨reading, short⟩ := assemble_of_le enough
  rw [readEntry_of_mem_nil hmem, readEntry_of_mem_nil hmem] at reading
  refine ⟨complete (assemble s), rfl, BitVec.eq_of_toNat_eq reading, ?_⟩
  rw [complete_status, short, hstatus]
  rfl

/-- Settles O23: it holds, command by command on the reset values of its operands. -/
theorem commandsAreDefinedRightAfterReset : Obligations.CommandsAreDefinedRightAfterReset := fun _ h =>
  ⟨congrArg State.phase h, codecEnc_of_justReset h, codecDec_of_justReset h, uartRxDecode_of_justReset h,
    uartTxBuild_of_justReset h, spiRead_of_justReset h, spiAssemble_of_justReset h⟩

end Sys2Proof.Machine
end

-- ==== Memory stays canonical ====
section
/-! Memory is written by byte writes alone, each keeping the canonical form (`wf_writeByte`), or emptied by a reset; the host's
stores and the buffers that completions fill are made of those (20_memory.md R66; log 6). -/

namespace Sys2Proof.Machine

open Sys2Proof

/-- A completion leaves memory or fills one buffer, SPI_READ after events that write no memory. -/
theorem exec_wf {op : Instr} {s t : State} (hw : s.mem.wf = true) (run : exec op s = .next t) : t.mem.wf = true := by
  rcases exec_mem run with hm | ⟨-, out, hm⟩ | ⟨-, hm⟩ | ⟨-, hm⟩
  · rwa [hm]
  · rw [hm]
    exact wf_fillBuffer hw
  · rw [hm]
    exact wf_fillBuffer hw
  · have hspi : (spiFinish s).mem.wf = true := by rwa [spiFinish_mem]
    rw [hm]
    exact wf_fillBuffer hspi

theorem Move.wf {s t : State} {i : Option Input} (m : Move s i t) (hw : s.mem.wf = true) : t.mem.wf = true := by
  cases m with
  | reset => rfl
  | writeReg a v r => rwa [writeReg_mem]
  | writeEntry a v b k =>
    rw [writeEntry_mem]
    exact wf_writeWord hw
  | spiEvent e es =>
    rw [performSpiOp_eq]
    exact hw
  | complete _ op _ _ run => exact exec_wf hw run
  | _ => exact hw

/-- Settles O54: it holds; every move leaves memory, empties it or stores whole words. -/
theorem stepKeepsMemoryCanonical : Obligations.StepKeepsMemoryCanonical := by
  intro s t hw hs
  obtain ⟨i, rest, -, m⟩ := step_move hs
  exact m.wf hw

end Sys2Proof.Machine
end
